-- ==== Sys2Proof/Word.lean ====
section
/-! DEFINITION. The widths of RNGBLK's data (spec/00_scope.md R5, R8).

A byte string of fixed length n is held as a bit vector of 8*n bits whose MOST significant byte is
byte 0 of the string (log entry 26), so that `be128(b)` of R8 is `toNat` and the byte-wise exclusive
or is the exclusive or of bit vectors. -/

namespace Sys2Proof

/-- R8: a byte is 8 bits. -/
abbrev Byte := BitVec 8

/-- R5, R8: a word is 32 bits. -/
abbrev Word := BitVec 32

/-- R5: BLOCKLEN, 16 bytes. -/
abbrev Block := BitVec 128

/-- R5: KEYLEN, 32 bytes. -/
abbrev KeyBits := BitVec 256

/-- R5: SEEDLEN, 48 bytes; also the width of TEMP (10_state.md R17). -/
abbrev Seed48 := BitVec 384

/-- R61: a command word, 64 bits. -/
abbrev CmdWord := BitVec 64

end Sys2Proof
end

