-- ==== Sys2Proof/Config.lean ====
section
/-! DEFINITION. What the spec leaves open: the parameters of spec/00_scope.md R5 and R6, and the free
values. Every opaque constant below has no body: nothing can be proved of its value, so a claim about
the model holds whatever it is. -/

namespace Sys2Proof.Config

/-- R5: a GET_RANDOM request of more bytes than this is invalid input. -/
def maxRequestBytes : Nat := 65536

/-- R5: the reseed interval, 2^48. -/
def reseedInterval : Nat := 281474976710656

/-- R5: bytes of entropy in one RESEED. -/
def seedLen : Nat := 48

/-- R5: FIFO_MIN_WORDS, the level below which EC waits. -/
def fifoMinWords : Nat := 4

/-- The free part of FIFO_DEPTH_WORDS: what the depth exceeds its lower bound 12 by (R6). -/
opaque fifoDepthExtra : Nat

/-- R6: FIFO_DEPTH_WORDS, any number that is at least 12. -/
def fifoDepthWords : Nat := fifoDepthExtra + 12

/-- The free part of ENTROPY_MAX_BYTES (R6). -/
opaque entropyMaxChoice : Nat

/-- R6: ENTROPY_MAX_BYTES, any number from 48 to 4 * FIFO_DEPTH_WORDS (every one of them is reached by
some value of the free part). -/
def entropyMaxBytes : Nat := entropyMaxChoice % (4 * fifoDepthWords - 47) + 48

/-- R6, R96: the clock divider EC programs; its width is log entry 12. -/
opaque ngClkdiv : Word
/-- R6, R96: the off-timer EC programs. -/
opaque ngOffTimer : Word
/-- R6, R96: the startup wait count EC programs. -/
opaque ngInitWait : Word
/-- R6, R96: the block count per cycle EC programs. -/
opaque ngBlocksPerCycle : Word

/-- A free bit vector of width `w`: the value of draw number `n` (R8 "draw", R22, R117). -/
opaque freeBits (w : Nat) (n : Nat) : BitVec w

/-- Free words NG has put into its FIFO by draw number `n` (R22, R43), or holds after a disable (R94). -/
opaque freeWords (n : Nat) : List Word

/-- A free byte string: the value of draw number `n` (R17, R33). -/
opaque freeBytes (n : Nat) : List Byte

end Sys2Proof.Config
end

