-- ==== Sys2Proof/Machine/Aes.lean ====
section
/-! DEFINITION. AES encryption of one block with a 16, 24 or 32 byte key (spec/41_block_cipher_port.md
R113 option (b), spec/00_scope.md R6): FIPS-197, PRESUMED (log entry 5), checked in the tests against
T-A1 and T-A2 of spec/95_test_vectors.md and its generator's vectors. Bytes are in index order; byte 4*c+r of a block is row r of
column c of the AES state. -/

namespace Sys2Proof.Machine.Aes

/-- Row `h` of the substitution table: the sixteen bytes for the inputs 16*h to 16*h+15. -/
def sboxRow (h : Nat) : Nat :=
  match h with
  | 0 => 0x637c777bf26b6fc53001672bfed7ab76
  | 1 => 0xca82c97dfa5947f0add4a2af9ca472c0
  | 2 => 0xb7fd9326363ff7cc34a5e5f171d83115
  | 3 => 0x04c723c31896059a071280e2eb27b275
  | 4 => 0x09832c1a1b6e5aa0523bd6b329e32f84
  | 5 => 0x53d100ed20fcb15b6acbbe394a4c58cf
  | 6 => 0xd0efaafb434d338545f9027f503c9fa8
  | 7 => 0x51a3408f929d38f5bcb6da2110fff3d2
  | 8 => 0xcd0c13ec5f974417c4a77e3d645d1973
  | 9 => 0x60814fdc222a908846eeb814de5e0bdb
  | 10 => 0xe0323a0a4906245cc2d3ac629195e479
  | 11 => 0xe7c8376d8dd54ea96c56f4ea657aae08
  | 12 => 0xba78252e1ca6b4c6e8dd741f4bbd8b8a
  | 13 => 0x703eb5664803f60e613557b986c11d9e
  | 14 => 0xe1f8981169d98e949b1e87e9ce5528df
  | _ => 0x8ca1890dbfe6426841992d0fb054bb16

/-- SubBytes of one byte. -/
def sbox (b : Byte) : Byte :=
  BitVec.ofNat 8 (sboxRow (b.toNat / 16) >>> (8 * (15 - b.toNat % 16)))

/-- Multiplication by x in the field of AES. -/
def xtime (b : Byte) : Byte := if b.msb then (b <<< 1) ^^^ 0x1b else b <<< 1

/-- Byte-wise exclusive or. -/
def xorBytes (a b : List Byte) : List Byte := List.zipWith (· ^^^ ·) a b

/-- ShiftRows. -/
def shiftRows : List Byte → List Byte
  | [a0, a1, a2, a3, a4, a5, a6, a7, a8, a9, a10, a11, a12, a13, a14, a15] =>
    [a0, a5, a10, a15, a4, a9, a14, a3, a8, a13, a2, a7, a12, a1, a6, a11]
  | bs => bs

/-- MixColumns. -/
def mixColumns : List Byte → List Byte
  | a :: b :: c :: d :: rest =>
    (xtime a ^^^ xtime b ^^^ b ^^^ c ^^^ d) :: (a ^^^ xtime b ^^^ xtime c ^^^ c ^^^ d) ::
      (a ^^^ b ^^^ xtime c ^^^ xtime d ^^^ d) :: (xtime a ^^^ a ^^^ b ^^^ c ^^^ xtime d) ::
      mixColumns rest
  | bs => bs

/-- The round constant of the n-th use, n from 1. -/
def rcon : Nat → Byte
  | 0 => 0
  | 1 => 1
  | n + 2 => xtime (rcon (n + 1))

/-- RotWord. -/
def rotWord : List Byte → List Byte
  | a :: rest => rest ++ [a]
  | [] => []

/-- What word `i` of the key schedule is the exclusive or of word `i - nk` with, from word `i - 1`. -/
def scheduleCore (nk i : Nat) (prev : List Byte) : List Byte :=
  if i % nk = 0 then xorBytes ((rotWord prev).map sbox) [rcon (i / nk), 0, 0, 0]
  else if 6 < nk ∧ i % nk = 4 then prev.map sbox
  else prev

/-- `n` more words of the key schedule, from word number `i` on; the newest word first. -/
def expand (nk : Nat) : Nat → Nat → List (List Byte) → List (List Byte)
  | 0, _, ws => ws
  | n + 1, i, ws =>
    expand nk n (i + 1)
      (xorBytes (ws.getD (nk - 1) []) (scheduleCore nk i (ws.getD 0 [])) :: ws)

/-- Successive words of four bytes. -/
def words4 : List Byte → List (List Byte)
  | a :: b :: c :: d :: rest => [a, b, c, d] :: words4 rest
  | _ => []

/-- Successive round keys of four words. -/
def roundKeysOf : List (List Byte) → List (List Byte)
  | a :: b :: c :: d :: rest => (a ++ b ++ c ++ d) :: roundKeysOf rest
  | _ => []

/-- KeyExpansion: the round keys, `nk + 7` of them for a key of `nk` words. -/
def roundKeys (key : List Byte) : List (List Byte) :=
  let nk := key.length / 4
  roundKeysOf (expand nk (4 * (nk + 7) - nk) nk (words4 key).reverse).reverse

/-- The rounds after the first AddRoundKey; the last one has no MixColumns. -/
def rounds (st : List Byte) : List (List Byte) → List Byte
  | [] => st
  | [k] => xorBytes (shiftRows (st.map sbox)) k
  | k :: ks => rounds (xorBytes (mixColumns (shiftRows (st.map sbox))) k) ks

/-- The cipher on byte strings. -/
def encryptBytes (key inp : List Byte) : List Byte :=
  match roundKeys key with
  | [] => inp
  | k :: ks => rounds (xorBytes inp k) ks

end Sys2Proof.Machine.Aes
end

