-- ==== Sys2Proof/Syntax.lean ====
section
/-! DEFINITION. The operations of RNGBLK (spec/00_scope.md R2): one constructor of `Instr` per row of
spec/opcode_table.json, in the table's order. -/

namespace Sys2Proof

/-- 20_memory.md R52: the opaque token that names the input descriptor chain; no other value exists, so
a malformed pointer cannot be expressed (41_block_cipher_port.md R118). -/
inductive ChainAddr where
  | jobChain
deriving DecidableEq, Repr

/-- R52: the opaque token that names the output descriptor. -/
inductive OutAddr where
  | jobOutput
deriving DecidableEq, Repr

/-- The 24 operations. The first two are the host's commands, the next four the internal operations
(30_encoding.md R62), the others the port events (R68). -/
inductive Instr where
  /-- 42_drbg_engine.md R136. -/
  | init
  /-- R137: `dstv` is DSTV (destination non-null), `size` is SIZE. -/
  | getRandom (dstv : Bool) (size : BitVec 32)
  /-- R135. -/
  | reseed
  /-- R132: `hasExtra` is HAS_EXTRA (the operand is the SEED register). -/
  | update (hasExtra : Bool)
  /-- 40_entropy_conditioner.md R82: `esize` is ESIZE. -/
  | getEntropy (esize : BitVec 32)
  /-- 41_block_cipher_port.md R111: `keySize` is key_size in bytes (30_encoding.md R74). -/
  | aesEcbEncrypt (keySize : BitVec 32)
  /-- R93. -/
  | ngEnable
  /-- R94. -/
  | ngDisable
  /-- R95. -/
  | ngReset
  /-- R96. -/
  | ngConfigure (clkdiv offTimer initWait blocksPerCycle : Word)
  /-- R97. -/
  | ngFsmRead
  /-- R98. -/
  | ngKeySet (index : Fin 4) (word : Word)
  /-- R99. -/
  | ngKeyRead (index : Fin 4)
  /-- R100. -/
  | ngLevelRead
  /-- R101. -/
  | ngFifoPop
  /-- R119. -/
  | accEnable
  /-- R120. -/
  | accDisable
  /-- R121. -/
  | accSetFetch (addr : ChainAddr)
  /-- R122. -/
  | accSetPush (addr : OutAddr)
  /-- R123. -/
  | accSetIndirect
  /-- R124. -/
  | accStart
  /-- R125. -/
  | accStatusRead
  /-- R126. -/
  | accSoftreset
  /-- 20_memory.md R54. -/
  | barrier
deriving DecidableEq, Repr

end Sys2Proof
end

