-- ==== Sys2Proof/WellFormed.lean ====
section
/-! DEFINITION. Which instruction terms are legal. The operand types already exclude an index of CK
outside 0..3 and an address that names nothing; what is left is the key size (spec/30_encoding.md R66,
R74). SIZE and ESIZE are legal at every value: a value above the cap is rejected by the operation's own
check, not by its encoding (R63). -/

namespace Sys2Proof

/-- R74: the legal key sizes in bytes. -/
def keySizeLegal (n : BitVec 32) : Bool := n == 16 || n == 24 || n == 32

/-- R66: the only reserved case among the internal operations is a key size other than 16, 24, 32. -/
def Instr.wellFormed : Instr → Bool
  | .init => true
  | .getRandom _ _ => true
  | .reseed => true
  | .update _ => true
  | .getEntropy _ => true
  | .aesEcbEncrypt keySize => keySizeLegal keySize
  | .ngEnable => true
  | .ngDisable => true
  | .ngReset => true
  | .ngConfigure _ _ _ _ => true
  | .ngFsmRead => true
  | .ngKeySet _ _ => true
  | .ngKeyRead _ => true
  | .ngLevelRead => true
  | .ngFifoPop => true
  | .accEnable => true
  | .accDisable => true
  | .accSetFetch _ => true
  | .accSetPush _ => true
  | .accSetIndirect => true
  | .accStart => true
  | .accStatusRead => true
  | .accSoftreset => true
  | .barrier => true

end Sys2Proof
end

