-- ==== Sys2Proof/Decode.lean ====
section
/-! DEFINITION. Encodings (spec/30_encoding.md R60 to R68): the decoder, total on any word and any byte
string and rejecting by name, and then the encoder. -/

namespace Sys2Proof

/-- Why a word or a byte string is no instruction. -/
inductive DecodeError where
  /-- R62: OP is no operation code. -/
  | unassignedOp (op : Byte)
  /-- R61: RSV is not zero. -/
  | reservedBits
  /-- R61: F is set for an operation that takes no flag. -/
  | flagNotZero
  /-- R61: N is not zero for an operation that takes no operand. -/
  | operandNotZero
  /-- R62, R66: an internal code at the host port. -/
  | internalOp
  /-- R68: the first byte is no port event identifier. -/
  | unassignedId (id : Byte)
  /-- R68: NG_KEY_SET or NG_KEY_READ with an index above 3. -/
  | keyIndex
  /-- The byte string ends inside the event's arguments. -/
  | truncated
deriving DecidableEq, Repr

/-! ## Command words (format CW) -/

/-- R61: bits 63:56. -/
def cwOp (w : CmdWord) : Byte := w.extractLsb' 56 8
/-- R61: bits 55:33. -/
def cwRsv (w : CmdWord) : BitVec 23 := w.extractLsb' 33 23
/-- R61: bit 32. -/
def cwF (w : CmdWord) : Bool := w.getLsbD 32
/-- R61, R63: bits 31:0. -/
def cwN (w : CmdWord) : BitVec 32 := w.extractLsb' 0 32

/-- R61: a command word from its fields, RSV zero. -/
def packCw (op : Byte) (f : Bool) (n : BitVec 32) : CmdWord :=
  op ++ (0 : BitVec 23) ++ BitVec.ofBool f ++ n

/-- R61, R62: the instruction of the fields of a command word whose RSV is zero. -/
def decodeFields (op : Byte) (f : Bool) (n : BitVec 32) : Except DecodeError Instr :=
  if op = 0x01 then
    if f then .error .flagNotZero else if n ≠ 0 then .error .operandNotZero else .ok .init
  else if op = 0x02 then .ok (.getRandom f n)
  else if op = 0x10 then
    if f then .error .flagNotZero else if n ≠ 0 then .error .operandNotZero else .ok .reseed
  else if op = 0x11 then
    if n ≠ 0 then .error .operandNotZero else .ok (.update f)
  else if op = 0x20 then
    if f then .error .flagNotZero else .ok (.getEntropy n)
  else if op = 0x30 then
    if f then .error .flagNotZero else .ok (.aesEcbEncrypt n)
  else .error (.unassignedOp op)

/-- R60 to R64, R74: the decoder of command words. A reserved key size is decoded and refused by its
name when it is executed (R66), as `wellFormed` says. -/
def decodeCw (w : CmdWord) : Except DecodeError Instr :=
  if cwRsv w ≠ 0 then .error .reservedBits else decodeFields (cwOp w) (cwF w) (cwN w)

/-- R62: the host issues INIT and GET_RANDOM only. -/
def Instr.isHostCommand : Instr → Bool
  | .init => true
  | .getRandom _ _ => true
  | _ => false

/-- R66: the host port accepts a word that decodes to a host command; every other word is illegal. -/
def decodeHost (w : CmdWord) : Except DecodeError Instr :=
  match decodeCw w with
  | .ok i => if i.isHostCommand then .ok i else .error .internalOp
  | .error e => .error e

/-! ## Port events (format PE): the identifier byte, then each argument as a 32-bit word, least
significant byte first (DESIGN CHOICE, log entry 12: the spec gives the arguments no bits) -/

/-- The next 32-bit argument and the bytes after it. -/
def takeWord : List Byte → Except DecodeError (Word × List Byte)
  | b0 :: b1 :: b2 :: b3 :: rest => .ok (b3 ++ b2 ++ b1 ++ b0, rest)
  | _ => .error .truncated

/-- An index argument: 0 to 3 (R98, R99). -/
def takeIndex (bs : List Byte) : Except DecodeError (Fin 4 × List Byte) :=
  match takeWord bs with
  | .ok (w, rest) => if h : w.toNat < 4 then .ok (⟨w.toNat, h⟩, rest) else .error .keyIndex
  | .error e => .error e

/-- The four arguments of NG_CONFIGURE (R68, R96). -/
def decodeConfigure (bs : List Byte) : Except DecodeError (Instr × List Byte) :=
  match takeWord bs with
  | .error e => .error e
  | .ok (c, bs) => match takeWord bs with
    | .error e => .error e
    | .ok (t, bs) => match takeWord bs with
      | .error e => .error e
      | .ok (s, bs) => match takeWord bs with
        | .error e => .error e
        | .ok (b, bs) => .ok (.ngConfigure c t s b, bs)

/-- The two arguments of NG_KEY_SET (R68, R98). -/
def decodeKeySet (bs : List Byte) : Except DecodeError (Instr × List Byte) :=
  match takeIndex bs with
  | .error e => .error e
  | .ok (i, bs) => match takeWord bs with
    | .error e => .error e
    | .ok (w, bs) => .ok (.ngKeySet i w, bs)

/-- The argument of NG_KEY_READ (R68, R99). -/
def decodeKeyRead (bs : List Byte) : Except DecodeError (Instr × List Byte) :=
  match takeIndex bs with
  | .error e => .error e
  | .ok (i, bs) => .ok (.ngKeyRead i, bs)

/-- R68: the port event whose identifier is `id`, and the bytes after its arguments. -/
def decodeEvent (id : Byte) (bs : List Byte) : Except DecodeError (Instr × List Byte) :=
  if id = 0x40 then .ok (.ngEnable, bs)
  else if id = 0x41 then .ok (.ngDisable, bs)
  else if id = 0x42 then .ok (.ngReset, bs)
  else if id = 0x43 then decodeConfigure bs
  else if id = 0x44 then .ok (.ngFsmRead, bs)
  else if id = 0x45 then decodeKeySet bs
  else if id = 0x46 then decodeKeyRead bs
  else if id = 0x47 then .ok (.ngLevelRead, bs)
  else if id = 0x48 then .ok (.ngFifoPop, bs)
  else if id = 0x50 then .ok (.accEnable, bs)
  else if id = 0x51 then .ok (.accDisable, bs)
  else if id = 0x52 then .ok (.accSetFetch .jobChain, bs)
  else if id = 0x53 then .ok (.accSetPush .jobOutput, bs)
  else if id = 0x54 then .ok (.accSetIndirect, bs)
  else if id = 0x55 then .ok (.accStart, bs)
  else if id = 0x56 then .ok (.accStatusRead, bs)
  else if id = 0x57 then .ok (.accSoftreset, bs)
  else if id = 0x60 then .ok (.barrier, bs)
  else .error (.unassignedId id)

/-- R60, R68: the decoder of port events: the instruction and the bytes after it. -/
def decodePe : List Byte → Except DecodeError (Instr × List Byte)
  | [] => .error .truncated
  | id :: bs => decodeEvent id bs

/-! ## Both formats -/

/-- An encoded instruction: a command word or the bytes of a port event (R60). -/
inductive Code where
  | cw (w : CmdWord)
  | pe (bytes : List Byte)
deriving DecidableEq, Repr

/-- The instruction an encoded form stands for; bytes after a port event's arguments are not looked at. -/
def decode : Code → Except DecodeError Instr
  | .cw w => decodeCw w
  | .pe bytes =>
    match decodePe bytes with
    | .ok (i, _) => .ok i
    | .error e => .error e

/-- The byte with index `k` of a natural number, the least significant byte first. -/
def natByte (w k : Nat) : Byte := BitVec.ofNat 8 (w >>> (8 * k))

/-- How many bytes the longest port event has: NG_CONFIGURE's identifier and four words. -/
def peMaxBytes : Nat := 17

/-- The encoded form of the table's instruction word: 64 bits are a command word, 8 bits the identifier
of a port event, whose argument bytes are then those of `w` (zero above `nbits`). -/
def tableCode (nbits w : Nat) : Option Code :=
  if nbits = 64 then some (.cw (BitVec.ofNat 64 w))
  else if nbits = 8 then some (.pe ((List.range peMaxBytes).map (natByte w)))
  else none

/-- The instruction the decoder reads from an instruction whose bits are `w`, numbered as
spec/opcode_table.json numbers them; none where it refuses. -/
def decodeTableWord (nbits w : Nat) : Option Instr :=
  match tableCode nbits w with
  | none => none
  | some c => match decode c with
    | .ok i => some i
    | .error _ => none

/-! ## The encoder -/

/-- A 32-bit argument, least significant byte first. -/
def wordBytes (w : Word) : List Byte :=
  [w.extractLsb' 0 8, w.extractLsb' 8 8, w.extractLsb' 16 8, w.extractLsb' 24 8]

/-- R61, R62, R68: the encoded form of an instruction. -/
def encode : Instr → Code
  | .init => .cw (packCw 0x01 false 0)
  | .getRandom dstv size => .cw (packCw 0x02 dstv size)
  | .reseed => .cw (packCw 0x10 false 0)
  | .update hasExtra => .cw (packCw 0x11 hasExtra 0)
  | .getEntropy esize => .cw (packCw 0x20 false esize)
  | .aesEcbEncrypt keySize => .cw (packCw 0x30 false keySize)
  | .ngEnable => .pe [0x40]
  | .ngDisable => .pe [0x41]
  | .ngReset => .pe [0x42]
  | .ngConfigure c t s b => .pe (0x43 :: (wordBytes c ++ wordBytes t ++ wordBytes s ++ wordBytes b))
  | .ngFsmRead => .pe [0x44]
  | .ngKeySet i w => .pe (0x45 :: (wordBytes (BitVec.ofNat 32 i.val) ++ wordBytes w))
  | .ngKeyRead i => .pe (0x46 :: wordBytes (BitVec.ofNat 32 i.val))
  | .ngLevelRead => .pe [0x47]
  | .ngFifoPop => .pe [0x48]
  | .accEnable => .pe [0x50]
  | .accDisable => .pe [0x51]
  | .accSetFetch .jobChain => .pe [0x52]
  | .accSetPush .jobOutput => .pe [0x53]
  | .accSetIndirect => .pe [0x54]
  | .accStart => .pe [0x55]
  | .accStatusRead => .pe [0x56]
  | .accSoftreset => .pe [0x57]
  | .barrier => .pe [0x60]

end Sys2Proof
end

