-- ==== Sys2Proof/Machine/State.lean ====
section
/-! DEFINITION. The state of RNGBLK as plain data (spec/10_state.md, spec/20_memory.md), its reset
(R32, spec/70_reset_and_hazards.md R200), and the reasons a step can stop. -/

namespace Sys2Proof.Machine

/-! ## Values -/

/-- R81, R69: the four states of NG that EC distinguishes. -/
inductive NgFsm where
  | reset
  | startup
  | ready
  | error
deriving DecidableEq, Repr, Inhabited

/-- R26: the five flags of acc_status. -/
structure AccStatus where
  busyFetch : Bool
  busyPush : Bool
  pushWaiting : Bool
  fetchError : Bool
  pushError : Bool
deriving DecidableEq, Repr, Inhabited

/-- R65, R170: the status of an operation. -/
inductive Status where
  | ok
  | fail
  | invalid
deriving DecidableEq, Repr, Inhabited

/-- R52: what acc_fetch_addr or acc_push_addr names; `unspecified` until ACC_SET_FETCH or ACC_SET_PUSH
has written it (R25). -/
inductive AddrToken where
  | unspecified
  | jobChain
  | jobOutput
deriving DecidableEq, Repr, Inhabited

/-- R112: the cipher mode of the configuration record; ECB is the only one (R4). -/
inductive CipherMode where
  | ecb
deriving DecidableEq, Repr, Inhabited

/-- R112: where the key comes from; always the software-programmed key. -/
inductive KeySource where
  | software
deriving DecidableEq, Repr, Inhabited

/-- R46, R112: the descriptor chain of one job: the configuration record (mode, key source), the
`keySize` key bytes and the input block. -/
structure Job where
  mode : CipherMode
  keySource : KeySource
  keySize : Nat
  key : List Byte
  inBlock : Block
deriving DecidableEq, Repr, Inhabited

/-- R29, R67, R68: the entries of the port trace; a read carries the value returned. -/
inductive Event where
  | call (op : Byte) (f : Bool) (n : BitVec 32)
  | ret (op : Byte) (status : Status)
  | ngEnable
  | ngDisable
  | ngReset
  | ngConfigure (clkdiv offTimer initWait blocksPerCycle : Word)
  | ngFsmRead (answer : NgFsm)
  | ngKeySet (index : Fin 4) (word : Word)
  | ngKeyRead (index : Fin 4) (answer : Word)
  | ngLevelRead (answer : Nat)
  | ngFifoPop (answer : Word)
  | accEnable
  | accDisable
  | accSetFetch (addr : AddrToken)
  | accSetPush (addr : AddrToken)
  | accSetIndirect
  | accStart
  | accStatusRead (answer : AccStatus)
  | accSoftreset
  | barrier
deriving DecidableEq, Repr, Inhabited

/-! ## DCE -/

/-- R10 to R14. -/
structure GeneratorState where
  /-- R11. -/
  key : KeyBits
  /-- R12. -/
  v : Block
  /-- R13. -/
  reseedCtr : BitVec 64
  /-- R14. -/
  initialized : Bool
deriving DecidableEq, Repr, Inhabited

/-- R16: the operation that called the running one. -/
inductive Ctx where
  | cInit
  | cReseed
  | cGen
deriving DecidableEq, Repr, Inhabited

/-- R16, R147: DCE.phase. -/
inductive DcePhase where
  | idle
  | check
  | zero
  | seed
  | upd (k : Fin 3)
  | commit
  | reseedTest
  | out (j : Nat)
  | final
  | resp
deriving DecidableEq, Repr, Inhabited

/-- R16, R17: the sequencer of DCE and its working registers. -/
structure Dce where
  phase : DcePhase
  /-- R16: the return context, innermost caller first. -/
  ctx : List Ctx
  size : BitVec 32
  dstv : Bool
  cur : BitVec 17
  rem : BitVec 17
  blk : Block
  /-- R17: 48 bytes, kept as their three blocks in order (log entry 26). -/
  temp : Vector Block 3
  vw : Block
  seed : Seed48
  /-- R61: the operand F of the UPDATE in progress: 1 = the 48 bytes of SEED, 0 = none. -/
  hasExtra : Bool
deriving DecidableEq, Repr, Inhabited

/-! ## EC and the Block Cipher Engine -/

/-- R20, R102: EC.phase. -/
inductive EcPhase where
  | idle
  | check
  | enable
  | init
  | poll
  | keyload
  | drain
  | disable
  | resp
deriving DecidableEq, Repr, Inhabited

/-- R18 to R20: the sequencer of EC, its flag and its working registers. -/
structure Ec where
  phase : EcPhase
  /-- R18: CONDITIONING_KEY_SET. -/
  keySet : Bool
  esize : BitVec 32
  /-- R19: NEED (log entry 15 for a number of words it does not hold). -/
  need : BitVec 30
  obsFsm : NgFsm
  obsLevel : Nat
  ebuf : List Byte
  estatus : BitVec 32
deriving DecidableEq, Repr, Inhabited

/-- R111, R115: whether an AES_ECB_ENCRYPT is polling the accelerator (the model's own phase register,
log entry 1). -/
inductive BcePhase where
  | idle
  | poll
deriving DecidableEq, Repr, Inhabited

/-! ## The collaborators' interfaces -/

/-- R21. -/
structure Ng where
  enabled : Bool
  fsm : NgFsm
  /-- The output FIFO, head first. -/
  fifo : List Word
  clkdiv : Word
  offTimer : Word
  initWait : Word
  blocksPerCycle : Word
  ck : Vector Word 4
deriving DecidableEq, Repr

/-- R25. -/
structure Acc where
  enabled : Bool
  fetchAddr : AddrToken
  pushAddr : AddrToken
  indirect : Bool
  job : Option Job
  status : AccStatus
  /-- The model's record of "an ACC_SOFTRESET has been issued since reset": from then on the flags of an
  accelerator without a job are known to be clear (R27, log entry 32). -/
  softresetDone : Bool
deriving DecidableEq, Repr, Inhabited

/-- R46: the JOB space. `chain` is the descriptor chain that stands in it, `none` when there is none;
`ordered` is the model's record of "a BARRIER since the last write to JOB" (R124, log entry 14). -/
structure JobSpace where
  chain : Option Job
  outBlock : Block
  ordered : Bool
deriving DecidableEq, Repr, Inhabited

/-! ## The host port, the environment's answers, the state -/

/-- What waits to be issued: a word the host will write to CMD, or an engine-level operation (the
model's own way to run an internal operation or a port operation by itself, log entry 10). -/
inductive Issue where
  | host (w : CmdWord)
  | engine (c : Code)
deriving DecidableEq, Repr

/-- R28. -/
structure HostPort where
  /-- The command register: the last word the host wrote. -/
  cmd : CmdWord
  status : BitVec 32
  /-- What the host (or the engine-level slot) will issue, oldest first. -/
  issue : List Issue
deriving DecidableEq, Repr

/-- R22, R117: the environment's answers. A queue holds answers NG or ACC has settled on and no engine
has read yet, oldest first; where a queue is empty the answer is a free value of Config, indexed by
`draws` (log entry 2). -/
structure Env where
  ngFsmIn : List NgFsm
  /-- For each coming NG_LEVEL_READ, the words NG puts into its FIFO before it. -/
  ngWordsIn : List (List Word)
  accStatusIn : List AccStatus
  draws : Nat
deriving DecidableEq, Repr, Inhabited

/-- Everything spec/10_state.md and spec/20_memory.md give the machine. -/
structure State where
  gen : GeneratorState
  dce : Dce
  ec : Ec
  bce : BcePhase
  ng : Ng
  acc : Acc
  job : JobSpace
  host : HostPort
  /-- R41: the output space, offsets strictly rising; an unlisted offset holds no value. -/
  out : List Host.Cell
  /-- R29: the port trace, oldest first. -/
  trace : List Event
  env : Env
deriving DecidableEq, Repr

/-- Why the machine stops. -/
inductive Fault where
  /-- R44, 93 U5: NG_FIFO_POP (alone, in the key load or in the drain) finds no word in the FIFO; the
  source says nothing of it. Safe: the machine stops where hardware returns something. -/
  | emptyFifoPop
  /-- R41, R42: OutWrite at an offset that does not exist. Safe; raised by the output loop only from
  states no command reaches. -/
  | outOffsetOutside
deriving DecidableEq, Repr

/-- Why an operation has no meaning. -/
inductive Refusal where
  /-- Raised by an arm of exec whose instruction has no meaning yet. Safe. -/
  | notModelled (mnemonic : String)
  /-- R148, 93 U1: raised by INIT, GET_RANDOM, RESEED, UPDATE, GET_ENTROPY and AES_ECB_ENCRYPT issued
  while an operation is running; undefined by the source. Safe. -/
  | engineBusy
  /-- R66, R74, 93 U10: raised by AES_ECB_ENCRYPT with a key size other than 16, 24 and 32. Safe. -/
  | reservedKeySize (n : BitVec 32)
  /-- R124: raised by ACC_START while acc_enabled is 0. Safe. -/
  | acceleratorDisabled
  /-- R124: raised by ACC_START when one of the three submission writes or the descriptor chain is
  missing. Safe. -/
  | jobNotSubmitted
  /-- R55, R124, 93 U9: raised by ACC_START without a BARRIER since the last write to JOB. Safe. -/
  | barrierMissing
  /-- R62, R66, R68: raised by the step for an engine-level form that decodes to nothing (a word at the
  host port that decodes to nothing is answered with STATUS -2 instead). Safe. -/
  | undecodable (e : DecodeError)
deriving DecidableEq, Repr

/-- R32, R200: the machine right after reset. INITIALIZED, CONDITIONING_KEY_SET, the phases, the module
enables, the missing job, the empty OUT and the empty trace are the spec's; every other value is named
by log entry 6 (DESIGN CHOICE, unsafe: the spec gives none). -/
def State.reset : State where
  gen := { key := 0, v := 0, reseedCtr := 0, initialized := false }
  dce :=
    { phase := .idle, ctx := [], size := 0, dstv := false, cur := 0, rem := 0, blk := 0, temp := #v[0, 0, 0],
      vw := 0, seed := 0, hasExtra := false }
  ec :=
    { phase := .idle, keySet := false, esize := 0, need := 0, obsFsm := .reset, obsLevel := 0,
      ebuf := [], estatus := 0 }
  bce := .idle
  ng :=
    { enabled := false, fsm := .reset, fifo := [], clkdiv := 0, offTimer := 0, initWait := 0,
      blocksPerCycle := 0, ck := #v[0, 0, 0, 0] }
  acc :=
    { enabled := false, fetchAddr := .unspecified, pushAddr := .unspecified, indirect := false,
      job := none,
      status :=
        { busyFetch := false, busyPush := false, pushWaiting := false, fetchError := false,
          pushError := false }
      softresetDone := false }
  job := { chain := none, outBlock := 0, ordered := false }
  host := { cmd := 0, status := 0, issue := [] }
  out := []
  trace := []
  env := { ngFsmIn := [], ngWordsIn := [], accStatusIn := [], draws := 0 }

end Sys2Proof.Machine
end

