-- ==== Sys2Proof/Machine/Operands.lean ====
section
/-! DEFINITION. Byte order, byte strings and the arithmetic on operands (spec/00_scope.md R8,
spec/20_memory.md R47 to R49, spec/42_drbg_engine.md R131, R132, R134). -/

namespace Sys2Proof.Machine

/-- R8: the bytes of an n-byte string, byte 0 first. -/
def bytesOf (n : Nat) (b : BitVec w) : List Byte :=
  (List.range n).map fun i => b.extractLsb' (8 * (n - 1 - i)) 8

/-- R8: the byte string of a list of bytes, byte 0 first, in `w` bits. -/
def ofBytes (w : Nat) (bs : List Byte) : BitVec w :=
  bs.foldl (fun acc b => (acc <<< 8) ||| b.setWidth w) 0

/-- R8, R48: `le_bytes`, the bytes of a word, least significant byte first. -/
def leBytes (w : Word) : List Byte := wordBytes w

/-- R8: `ceil_div`. -/
def ceilDiv (a b : Nat) : Nat := (a + (b - 1)) / b

/-- R131: the counter increment, big-endian over the 16 bytes, modulo 2^128. -/
def inc128 (v : Block) : Block := v + 1

/-- R49, R132: the k-th 16-byte block of TEMP becomes `b`. -/
def putBlock (temp : Vector Block 3) (k : Fin 3) (b : Block) : Vector Block 3 :=
  temp.set k.val b k.isLt

/-- R17, R49: the 48 bytes of TEMP. -/
def tempBytes (temp : Vector Block 3) : Seed48 := temp[0] ++ temp[1] ++ temp[2]

/-- R134: the 48 bytes of cipher output as UPDATE commits them. -/
def updateValue (temp seed : Seed48) (hasExtra : Bool) : Seed48 :=
  if hasExtra then temp ^^^ seed else temp

/-- R49: bytes 0 to 31 of a 48-byte string. -/
def keyPart (t : Seed48) : KeyBits := t.extractLsb' 128 256

/-- R49: bytes 32 to 47 of a 48-byte string. -/
def vPart (t : Seed48) : Block := t.extractLsb' 0 128

/-- R112: the first `n` bytes of KEY, `key[0]` first. -/
def keyBytes (n : Nat) (key : KeyBits) : List Byte := (bytesOf 32 key).take n

/-- R113: the block cipher. -/
@[irreducible] def aes (key : List Byte) (inBlock : Block) : Block :=
  ofBytes 128 (Aes.encryptBytes key (bytesOf 16 inBlock))

/-- R113: `AES256(key, in_block)`. -/
def aes256 (key : KeyBits) (inBlock : Block) : Block := aes (bytesOf 32 key) inBlock

/-- R90: the bytes that the drained words give, in order, cut at ESIZE. -/
def drainBytes (esize : Nat) (ws : List Word) : List Byte := (ws.flatMap leBytes).take esize

/-- R112: the job AES_ECB_ENCRYPT builds for a key of `keySize` bytes. -/
def jobOf (keySize : Nat) (key : KeyBits) (inBlock : Block) : Job :=
  { mode := .ecb, keySource := .software, keySize := keySize, key := keyBytes keySize key,
    inBlock := inBlock }

/-- R117: what a correct accelerator pushes for a job. -/
def jobResult (j : Job) : Block := aes j.key j.inBlock

end Sys2Proof.Machine
end

