-- ==== Sys2Proof/Machine/Flags.lean ====
section
/-! DEFINITION. Status codes, status flags and tests (spec/30_encoding.md R65, R69, R70;
spec/41_block_cipher_port.md R115; spec/40_entropy_conditioner.md R83, R88; spec/42_drbg_engine.md
R138, R141). -/

namespace Sys2Proof.Machine

/-- R65: the 32-bit two's-complement encoding of a status. -/
def statusWord : Status → BitVec 32
  | .ok => 0x00000000
  | .fail => 0xFFFFFFFF
  | .invalid => 0xFFFFFFFE

/-- R69: the code NG_FSM_READ returns. -/
def fsmCode : NgFsm → BitVec 2
  | .reset => 0
  | .startup => 1
  | .ready => 2
  | .error => 3

/-- R69: the state of a code. -/
def fsmOfCode (c : BitVec 2) : NgFsm :=
  if c = 0 then .reset else if c = 1 then .startup else if c = 2 then .ready else .error

/-- R70: the value ACC_STATUS_READ returns, bits 31:5 zero. -/
def accStatusWord (st : AccStatus) : BitVec 32 :=
  (0 : BitVec 27) ++ BitVec.ofBool st.pushError ++ BitVec.ofBool st.fetchError ++
    BitVec.ofBool st.pushWaiting ++ BitVec.ofBool st.busyPush ++ BitVec.ofBool st.busyFetch

/-- R70: the five flags in their positions. -/
def accStatusOfBits (b : BitVec 5) : AccStatus :=
  { busyFetch := b.getLsbD 0, busyPush := b.getLsbD 1, pushWaiting := b.getLsbD 2,
    fetchError := b.getLsbD 3, pushError := b.getLsbD 4 }

/-- R27: all five flags cleared. -/
def accStatusClear : AccStatus :=
  { busyFetch := false, busyPush := false, pushWaiting := false, fetchError := false,
    pushError := false }

/-- R115: the three outcomes of one status read. -/
inductive PollClass where
  | error
  | busy
  | done
deriving DecidableEq, Repr

/-- R115: error is tested before busy. -/
def classify (st : AccStatus) : PollClass :=
  if st.fetchError || st.pushError then .error
  else if st.busyFetch || st.busyPush || st.pushWaiting then .busy
  else .done

/-- R83: the size check of GET_ENTROPY. -/
def oversized (esize : BitVec 32) : Bool := decide (Config.entropyMaxBytes < esize.toNat)

/-- R82: the number of words that `esize` bytes need. -/
def needOf (esize : BitVec 32) : Nat := ceilDiv esize.toNat 4

/-- R19, R82: what NEED holds of that number: the number itself where 30 bits hold it, else the value
`free`, for the spec states none (log entry 15). -/
def needWord (free : BitVec 30) (esize : BitVec 32) : BitVec 30 :=
  if needOf esize < 2 ^ 30 then BitVec.ofNat 30 (needOf esize) else free

/-- R86, R88, R90: the number of words EC waits for and drains: NEED, and for the three sizes whose
number of words its 30 bits do not hold, ceil_div(ESIZE, 4) itself (log entry 15). -/
def drainCount (need : BitVec 30) (esize : BitVec 32) : Nat :=
  if needOf esize < 2 ^ 30 then need.toNat else needOf esize

/-- R138: a GET_RANDOM request that violates a precondition. -/
def invalidRequest (dstv : Bool) (size : BitVec 32) : Bool :=
  (decide (0 < size.toNat) && !dstv) || decide (Config.maxRequestBytes < size.toNat)

/-- R141: the reseed test, on unbounded integers. -/
def reseedDue (ctr : BitVec 64) : Bool := decide (Config.reseedInterval ≤ ctr.toNat + 1)

end Sys2Proof.Machine
end

