-- ==== Sys2Proof/Machine/Memory.lean ====
section
/-! DEFINITION. The output space OUT (spec/20_memory.md R41, R42): offsets 0 to 65535, held as a list of
(offset, byte) pairs with strictly rising offsets. An unlisted offset holds no value (R32, log entry 7),
so every byte that has been written is listed. -/

namespace Sys2Proof.Machine

/-- R41: the number of offsets of OUT. -/
def outSize : Nat := 65536

/-- The canonical form: offsets strictly rising, all of them below 65536. -/
def Memory.wf : List Host.Cell → Bool
  | [] => true
  | [(a, _)] => decide (a < outSize)
  | (a, _) :: (c, d) :: rest => decide (a < c) && Memory.wf ((c, d) :: rest)

/-- The byte at an offset; `none` where no byte has been written. -/
def Memory.read : List Host.Cell → Nat → Option Byte
  | [], _ => none
  | (c, d) :: rest, a => if a = c then some d else Memory.read rest a

/-- One byte written, the canonical form kept. -/
def Memory.write : List Host.Cell → Nat → Byte → List Host.Cell
  | [], a, b => [(a, b)]
  | (c, d) :: rest, a, b =>
    if a < c then (a, b) :: (c, d) :: rest
    else if a = c then (a, b) :: rest
    else (c, d) :: Memory.write rest a b

/-- R42: bytes written at consecutive offsets, in increasing order. -/
def Memory.writeBytes (m : List Host.Cell) (off : Nat) : List Byte → List Host.Cell
  | [] => m
  | b :: bs => Memory.writeBytes (Memory.write m off b) (off + 1) bs

end Sys2Proof.Machine
end

