-- ==== Sys2Proof/Machine/Ops.lean ====
section
/-! DEFINITION. The operations every family shares: outcomes in sequence, the port trace (spec/10_state.md
R29), draws (R22, spec/41_block_cipher_port.md R117), OutWrite (spec/20_memory.md R42), and ending an
operation: the response and the failure path (spec/60_exceptions.md R170, R180, spec/42_drbg_engine.md
R147). -/

namespace Sys2Proof.Machine

/-- An outcome carried on: a fault or a refusal ends the sequence. -/
def andThen (o : Host.Outcome α Fault Refusal) (f : α → Host.Outcome β Fault Refusal) :
    Host.Outcome β Fault Refusal :=
  match o with
  | .next a => f a
  | .fault r => .fault r
  | .refused r => .refused r

/-! ## The port trace -/

/-- R29: one more event at the end of the port trace. -/
def emit (e : Event) (s : State) : State := { s with trace := s.trace ++ [e] }

/-- R62: the code of RESEED. -/
def opReseed : Byte := 0x10
/-- R62: the code of UPDATE. -/
def opUpdate : Byte := 0x11
/-- R62: the code of GET_ENTROPY. -/
def opGetEntropy : Byte := 0x20
/-- R62: the code of AES_ECB_ENCRYPT. -/
def opAes : Byte := 0x30

/-! ## Draws: a queued answer where the environment has settled on one, else a free value -/

/-- R22, R97: the answer to NG_FSM_READ. -/
def drawFsm (s : State) : NgFsm × State :=
  match s.env.ngFsmIn with
  | a :: rest => (a, { s with env := { s.env with ngFsmIn := rest } })
  | [] =>
    (fsmOfCode (Config.freeBits 2 s.env.draws),
      { s with env := { s.env with draws := s.env.draws + 1 } })

/-- R22, R43: the words NG has put into its FIFO since it was last looked at. -/
def drawWords (s : State) : List Word × State :=
  match s.env.ngWordsIn with
  | a :: rest => (a, { s with env := { s.env with ngWordsIn := rest } })
  | [] =>
    (Config.freeWords s.env.draws, { s with env := { s.env with draws := s.env.draws + 1 } })

/-- R117: the five flags ACC shows to a status read. -/
def drawAccStatus (s : State) : AccStatus × State :=
  match s.env.accStatusIn with
  | a :: rest => (a, { s with env := { s.env with accStatusIn := rest } })
  | [] =>
    (accStatusOfBits (Config.freeBits 5 s.env.draws),
      { s with env := { s.env with draws := s.env.draws + 1 } })

/-- A free 16-byte value: what a register or a buffer of a block holds when the spec gives it none. -/
def drawBlock (s : State) : Block × State :=
  (Config.freeBits 128 s.env.draws, { s with env := { s.env with draws := s.env.draws + 1 } })

/-! ## OutWrite -/

/-- R42: the bytes go to consecutive offsets of OUT; an offset that does not exist faults. -/
def outWrite (off : Nat) (bytes : List Byte) (s : State) : Host.Outcome State Fault Refusal :=
  if off + bytes.length ≤ outSize then
    .next { s with out := Memory.writeBytes s.out off bytes }
  else .fault .outOffsetOutside

/-! ## Working registers after their operation (R17, R19, R33): no value, so free values -/

/-- R17: BLK has been taken by the operation that asked for the block. -/
def releaseBlk (s : State) : State :=
  { s with
    dce := { s.dce with blk := Config.freeBits 128 s.env.draws }
    env := { s.env with draws := s.env.draws + 1 } }

/-- A free TEMP. -/
def freeTemp (d : Nat) : Vector Block 3 :=
  #v[Config.freeBits 128 d, Config.freeBits 128 (d + 1), Config.freeBits 128 (d + 2)]

/-- R17, R33: the working registers of UPDATE, each a free value. -/
def freeUpdate (d : Nat) (x : Dce) : Dce :=
  { x with
    vw := Config.freeBits 128 d
    hasExtra := (Config.freeBits 1 (d + 1)).getLsbD 0
    temp := freeTemp (d + 2) }

/-- R17, R33: UPDATE has returned, whoever called it: TEMP, VW and HAS_EXTRA hold no value. -/
def releaseUpdate (s : State) : State :=
  { s with
    dce := freeUpdate s.env.draws s.dce
    env := { s.env with draws := s.env.draws + 5 } }

/-- R17, R33: RESEED has returned, whoever called it: SEED holds no value. -/
def releaseSeed (s : State) : State :=
  { s with
    dce := { s.dce with seed := Config.freeBits 384 s.env.draws }
    env := { s.env with draws := s.env.draws + 1 } }

/-- R17, R33: the working registers of DCE, each a free value. -/
def freeDce (d : Nat) (x : Dce) : Dce :=
  { x with
    size := Config.freeBits 32 d
    dstv := (Config.freeBits 1 (d + 1)).getLsbD 0
    cur := Config.freeBits 17 (d + 2)
    rem := Config.freeBits 17 (d + 3)
    blk := Config.freeBits 128 (d + 4)
    vw := Config.freeBits 128 (d + 5)
    seed := Config.freeBits 384 (d + 6)
    hasExtra := (Config.freeBits 1 (d + 7)).getLsbD 0
    temp := freeTemp (d + 8) }

/-- R19: the working registers of EC that only GET_ENTROPY itself uses, each a free value. -/
def freeEcInner (d : Nat) (x : Ec) : Ec :=
  { x with
    esize := Config.freeBits 32 d
    need := Config.freeBits 30 (d + 1)
    obsFsm := fsmOfCode (Config.freeBits 2 (d + 2))
    obsLevel := (Config.freeBits 32 (d + 3)).toNat % (Config.fifoDepthWords + 1) }

/-- R19: the registers in which GET_ENTROPY hands its result to its caller, each a free value. -/
def freeEcResult (d : Nat) (x : Ec) : Ec :=
  { x with ebuf := Config.freeBytes d, estatus := Config.freeBits 32 (d + 1) }

/-- R19: GET_ENTROPY has returned: ESIZE, NEED, OBS_FSM and OBS_LEVEL hold no value. -/
def releaseEc (s : State) : State :=
  { s with
    ec := freeEcInner s.env.draws s.ec
    env := { s.env with draws := s.env.draws + 4 } }

/-- R19, R33: the caller of GET_ENTROPY has taken its result: EBUF and ESTATUS hold no value. -/
def releaseEcResult (s : State) : State :=
  { s with
    ec := freeEcResult s.env.draws s.ec
    env := { s.env with draws := s.env.draws + 2 } }

/-- R17, R19, R33: DCE has no operation any more: no working register holds a value. -/
def releaseDce (s : State) : State :=
  { s with
    dce := freeDce s.env.draws s.dce
    ec := freeEcResult (s.env.draws + 11) s.ec
    env := { s.env with draws := s.env.draws + 13 } }

/-! ## Ending an operation of DCE -/

/-- DCE is in D_IDLE with an empty context again; no working register holds a value. -/
def toIdle (s : State) : State :=
  releaseDce { s with dce := { s.dce with phase := .idle, ctx := [] } }

/-- R65, R147: a host command ends with a status. -/
def respond (st : Status) (s : State) : State :=
  toIdle { s with host := { s.host with status := statusWord st } }

/-- Whether the running operation belongs to a host command (and not to a RESEED or UPDATE issued by
itself at engine level, log entry 10). -/
def ofHostCommand (ctx : List Ctx) : Bool := ctx.contains .cInit || ctx.contains .cGen

/-- R67: the return events of the internal operations a failure ends, innermost first. -/
def failEvents (s : State) : List Event :=
  (match s.dce.phase with
    | .upd _ => [Event.ret opUpdate .fail]
    | _ => []) ++
  (match s.dce.ctx with
    | .cReseed :: _ => [Event.ret opReseed .fail]
    | _ => [])

/-- R170, R175, R180, R147 (row unwind): `raise <Outcome>(status)`: the enclosing operations return, a
host command writes its status, DCE goes to D_IDLE. There is no handler and nothing is saved. -/
def raise (st : Status) (s : State) : State :=
  let s1 := { s with trace := s.trace ++ failEvents s }
  if ofHostCommand s.dce.ctx then respond st s1 else toIdle s1

/-! ## What is running -/

/-- R7, R148: no engine is running: the host may issue the next command. -/
def idle (s : State) : Bool := s.dce.phase == .idle && s.ec.phase == .idle && s.bce == .idle

end Sys2Proof.Machine
end

