-- ==== Sys2Proof/Machine/PortAcc.lean ====
section
/-! DEFINITION. The eight port operations towards the accelerator (spec/41_block_cipher_port.md R119 to
R126, spec/10_state.md R25 to R27) and the barrier (spec/20_memory.md R54), first as operations the
Block Cipher Engine uses, then the meanings. That each but ACC_START has its effect whatever acc_enabled
and acc_job hold is the model's choice (DESIGN CHOICE, log entry 35). -/

namespace Sys2Proof.Machine

/-- R119. -/
def accEnable (s : State) : State :=
  emit .accEnable { s with acc := { s.acc with enabled := true } }

/-- R120. -/
def accDisable (s : State) : State :=
  emit .accDisable { s with acc := { s.acc with enabled := false } }

/-- R121: the token names the input chain. -/
def accSetFetch (s : State) : State :=
  emit (.accSetFetch .jobChain) { s with acc := { s.acc with fetchAddr := .jobChain } }

/-- R122: the token names the output descriptor. -/
def accSetPush (s : State) : State :=
  emit (.accSetPush .jobOutput) { s with acc := { s.acc with pushAddr := .jobOutput } }

/-- R123. -/
def accSetIndirect (s : State) : State :=
  emit .accSetIndirect { s with acc := { s.acc with indirect := true } }

/-- R54: the barrier changes no state of RNGBLK; the model notes that JOB is ordered now (log entry 14). -/
def barrier (s : State) : State := emit .barrier { s with job := { s.job with ordered := true } }

/-- R124: the job is created from the chain at acc_fetch_addr and the descriptor at acc_push_addr. R124 says
that from now on ACC's DMA writes out_block, and not when: the model leaves out_block as it stands until the
first ACC_STATUS_READ of the job (DESIGN CHOICE, log entry 36). -/
def accStart (s : State) : State :=
  emit .accStart { s with acc := { s.acc with job := s.job.chain } }

/-- R117: what stands in out_block when a status read of a job classifies as `c`: the cipher output on
done, else a free value. -/
def pushedBlock (j : Job) (c : PollClass) (free : Block) : Block :=
  match c with
  | .done => jobResult j
  | .busy => free
  | .error => free

/-- R26, R27, R125: a status read with no job: the flags are drawn, but for those an ACC_SOFTRESET has
cleared (log entry 32). -/
def accStatusReadIdle (s : State) : AccStatus × State :=
  if s.acc.softresetDone then (s.acc.status, emit (.accStatusRead s.acc.status) s)
  else
    let a := drawAccStatus s
    (a.1, emit (.accStatusRead a.1) { a.2 with acc := { a.2.acc with status := a.1 } })

/-- R125, R117: with a job in flight the flags are drawn, and ACC's DMA has reached the point the flags
tell. R117 fixes out_block at the moment of a done read only; that every read of a job, and nothing between
two of them, is the moment at which ACC's DMA changes out_block, is the model's choice (DESIGN CHOICE, log
entry 36). -/
def accStatusRead (s : State) : AccStatus × State :=
  match s.acc.job with
  | none => accStatusReadIdle s
  | some j =>
    let a := drawAccStatus s
    let f := drawBlock a.2
    (a.1, emit (.accStatusRead a.1)
      { f.2 with
        acc := { f.2.acc with status := a.1 }
        job := { f.2.job with outBlock := pushedBlock j (classify a.1) f.1 } })

/-- R126, R27: the job is gone, the five flags are clear. That acc_fetch_addr, acc_push_addr and
acc_indirect, and in JOB the chain, out_block and the barrier mark, are no trace of the job and stay, so
that ACC_START may run again on the same chain, is the model's choice (DESIGN CHOICE, log entry 31). -/
def accSoftreset (s : State) : State :=
  emit .accSoftreset
    { s with
      acc := { s.acc with job := none, status := accStatusClear, softresetDone := true } }

/-! ## Meanings -/

/-- ACC_ENABLE (R119). -/
def execAccEnable (s : State) : Host.Outcome State Fault Refusal := .next (accEnable s)

/-- ACC_DISABLE (R120), with a job in flight too, which stays (DESIGN CHOICE, log entry 35). -/
def execAccDisable (s : State) : Host.Outcome State Fault Refusal := .next (accDisable s)

/-- ACC_SET_FETCH (R121). -/
def execAccSetFetch (addr : ChainAddr) (s : State) : Host.Outcome State Fault Refusal :=
  match addr with
  | .jobChain => .next (accSetFetch s)

/-- ACC_SET_PUSH (R122). -/
def execAccSetPush (addr : OutAddr) (s : State) : Host.Outcome State Fault Refusal :=
  match addr with
  | .jobOutput => .next (accSetPush s)

/-- ACC_SET_INDIRECT (R123). -/
def execAccSetIndirect (s : State) : Host.Outcome State Fault Refusal := .next (accSetIndirect s)

/-- R124: the three submission writes are done and a chain stands in JOB. -/
def jobSubmitted (s : State) : Bool :=
  s.acc.fetchAddr == .jobChain && s.acc.pushAddr == .jobOutput && s.acc.indirect && s.job.chain.isSome

/-- ACC_START (R124, R55): has an effect where its three requirements hold, and no meaning elsewhere. With
a job in flight already (R25 knows one at a time and does not say) the chain in JOB replaces it and the
flags and out_block stay as they stand (DESIGN CHOICE, log entry 34). -/
def execAccStart (s : State) : Host.Outcome State Fault Refusal :=
  if !s.acc.enabled then .refused .acceleratorDisabled
  else if !jobSubmitted s then .refused .jobNotSubmitted
  else if !s.job.ordered then .refused .barrierMissing
  else .next (accStart s)

/-- ACC_STATUS_READ (R125, R117). -/
def execAccStatusRead (s : State) : Host.Outcome State Fault Refusal := .next (accStatusRead s).2

/-- ACC_SOFTRESET (R126, R27). -/
def execAccSoftreset (s : State) : Host.Outcome State Fault Refusal := .next (accSoftreset s)

/-- BARRIER (20_memory.md R54). -/
def execBarrier (s : State) : Host.Outcome State Fault Refusal := .next (barrier s)

end Sys2Proof.Machine
end

