-- ==== Sys2Proof/Machine/Bce.lean ====
section
/-! DEFINITION. The Block Cipher Engine: the rows of AES_ECB_ENCRYPT (spec/41_block_cipher_port.md R111 to
R118), each a step of the engine: the submission, one status read, the release. -/

namespace Sys2Proof.Machine

/-- R111: the input block: VW inside UPDATE, V elsewhere (log entry 13). -/
def blockOperand (s : State) : Block :=
  match s.dce.phase with
  | .upd _ => s.dce.vw
  | _ => s.gen.v

/-- R112: the descriptor chain is written to JOB; no BARRIER has followed yet. -/
def buildJob (keySize : Nat) (s : State) : State :=
  { s with
    job := { s.job with chain := some (jobOf keySize s.gen.key (blockOperand s)), ordered := false } }

/-- R111, R114: the call event, the chain, then ACC_ENABLE, ACC_SET_FETCH, ACC_SET_PUSH,
ACC_SET_INDIRECT, BARRIER, ACC_START; the poll loop follows. -/
def aesStart (keySize : Nat) (s : State) : State :=
  let s1 := buildJob keySize (emit (.call opAes false (BitVec.ofNat 32 keySize)) s)
  let s2 := accStart (barrier (accSetIndirect (accSetPush (accSetFetch (accEnable s1)))))
  { s2 with bce := .poll }

/-- R46: the descriptor memory is discarded: no chain stands in JOB, out_block holds no value. -/
def discardJob (s : State) : State :=
  let f := drawBlock s
  { f.2 with job := { chain := none, outBlock := f.1, ordered := false } }

/-- R116, R111: ACC_SOFTRESET, ACC_DISABLE, the chain discarded, `blk` in BLK, the return event. -/
def aesReturn (st : Status) (blk : Block) (s : State) : State :=
  let s1 := discardJob (accDisable (accSoftreset s))
  emit (.ret opAes st) { s1 with bce := .idle, dce := { s1.dce with blk := blk } }

/-- R115: one iteration of the poll loop and what it classifies as. On done BLK is out_block, on error
BLK holds no value (free, R111). -/
def aesPoll (s : State) : PollClass × State :=
  let a := accStatusRead s
  match classify a.1 with
  | .busy => (.busy, a.2)
  | .done => (.done, aesReturn .ok a.2.job.outBlock a.2)
  | .error =>
    let f := drawBlock a.2
    (.error, aesReturn .fail f.1 f.2)

end Sys2Proof.Machine
end

