-- ==== Sys2Proof/Machine/PortNg.lean ====
section
/-! DEFINITION. The nine port operations towards the noise generator (spec/40_entropy_conditioner.md R93
to R101, spec/10_state.md R21 to R23), first as operations the engines use, then the meanings. That each has its
effect whatever ng_enabled holds is the model's choice (DESIGN CHOICE, log entry 35). -/

namespace Sys2Proof.Machine

/-- R93. -/
def ngEnable (s : State) : State :=
  emit .ngEnable { s with ng := { s.ng with enabled := true } }

/-- R23, R94: NG with its configuration and its key unspecified, each a free value. -/
def freeNgSetup (d : Nat) (x : Ng) : Ng :=
  { x with
    clkdiv := Config.freeBits 32 d
    offTimer := Config.freeBits 32 (d + 1)
    initWait := Config.freeBits 32 (d + 2)
    blocksPerCycle := Config.freeBits 32 (d + 3)
    ck := #v[Config.freeBits 32 (d + 4), Config.freeBits 32 (d + 5), Config.freeBits 32 (d + 6),
      Config.freeBits 32 (d + 7)] }

/-- R22, R43: the FIFO after NG has put drawn words into it, as far as its capacity goes; NG removes no
word by itself (the law of R22, log entry 3). -/
def fifoFilled (fifo ws : List Word) : List Word :=
  fifo ++ ws.take (Config.fifoDepthWords - fifo.length)

/-- R94, 93 U17: NG after a disable: whether its FSM, its FIFO, its configuration and its key survive is
open, so each is a free value, the FIFO any words its capacity holds (log entry 16). -/
def ngAfterDisable (d : Nat) (x : Ng) : Ng :=
  { freeNgSetup d x with
    enabled := false
    fsm := fsmOfCode (Config.freeBits 2 (d + 8))
    fifo := fifoFilled [] (Config.freeWords (d + 9)) }

/-- R94. -/
def ngDisable (s : State) : State :=
  emit .ngDisable
    { s with
      ng := ngAfterDisable s.env.draws s.ng
      env := { s.env with draws := s.env.draws + 10 } }

/-- R23: NG after a soft reset: FSM in RESET, FIFO empty, configuration and key unspecified. -/
def ngAfterReset (d : Nat) (x : Ng) : Ng := { freeNgSetup d x with fsm := .reset, fifo := [] }

/-- R95, R23. -/
def ngReset (s : State) : State :=
  emit .ngReset
    { s with
      ng := ngAfterReset s.env.draws s.ng
      env := { s.env with draws := s.env.draws + 8 } }

/-- R96. -/
def ngConfigure (c t i b : Word) (s : State) : State :=
  emit (.ngConfigure c t i b)
    { s with ng := { s.ng with clkdiv := c, offTimer := t, initWait := i, blocksPerCycle := b } }

/-- R97: NG has moved to a drawn state, which is returned. -/
def ngFsmRead (s : State) : NgFsm × State :=
  let a := drawFsm s
  (a.1, emit (.ngFsmRead a.1) { a.2 with ng := { a.2.ng with fsm := a.1 } })

/-- R98. -/
def ngKeySet (i : Fin 4) (w : Word) (s : State) : State :=
  emit (.ngKeySet i w) { s with ng := { s.ng with ck := s.ng.ck.set i.val w i.isLt } }

/-- R99. That NG itself changes no word of CK between two reads, which R51 leaves open, is the model's
choice (DESIGN CHOICE, log entry 33). -/
def ngKeyRead (i : Fin 4) (s : State) : Word × State :=
  let w := s.ng.ck[i]
  (w, emit (.ngKeyRead i w) s)

/-- R100: the number of words in the FIFO at the moment of the read. -/
def ngLevelRead (s : State) : Nat × State :=
  let a := drawWords s
  let fifo := fifoFilled a.2.ng.fifo a.1
  (fifo.length, emit (.ngLevelRead fifo.length) { a.2 with ng := { a.2.ng with fifo := fifo } })

/-- R101, R44: the head word leaves the FIFO; an empty FIFO faults (93 U5). -/
def ngFifoPop (s : State) : Host.Outcome (Word × State) Fault Refusal :=
  match s.ng.fifo with
  | w :: rest => .next (w, emit (.ngFifoPop w) { s with ng := { s.ng with fifo := rest } })
  | [] => .fault .emptyFifoPop

/-- R85: `NG_INIT()`. -/
def ngInit (s : State) : State :=
  ngConfigure Config.ngClkdiv Config.ngOffTimer Config.ngInitWait Config.ngBlocksPerCycle
    (ngReset { s with ec := { s.ec with keySet := false } })

/-! ## Meanings -/

/-- NG_ENABLE (R93). -/
def execNgEnable (s : State) : Host.Outcome State Fault Refusal := .next (ngEnable s)

/-- NG_DISABLE (R94). -/
def execNgDisable (s : State) : Host.Outcome State Fault Refusal := .next (ngDisable s)

/-- NG_RESET (R95). -/
def execNgReset (s : State) : Host.Outcome State Fault Refusal := .next (ngReset s)

/-- NG_CONFIGURE (R96). -/
def execNgConfigure (c t i b : Word) (s : State) : Host.Outcome State Fault Refusal :=
  .next (ngConfigure c t i b s)

/-- NG_FSM_READ (R97). -/
def execNgFsmRead (s : State) : Host.Outcome State Fault Refusal := .next (ngFsmRead s).2

/-- NG_KEY_SET (R98). -/
def execNgKeySet (i : Fin 4) (w : Word) (s : State) : Host.Outcome State Fault Refusal :=
  .next (ngKeySet i w s)

/-- NG_KEY_READ (R99). -/
def execNgKeyRead (i : Fin 4) (s : State) : Host.Outcome State Fault Refusal :=
  .next (ngKeyRead i s).2

/-- NG_LEVEL_READ (R100). -/
def execNgLevelRead (s : State) : Host.Outcome State Fault Refusal := .next (ngLevelRead s).2

/-- NG_FIFO_POP (R101, R44). -/
def execNgFifoPop (s : State) : Host.Outcome State Fault Refusal :=
  andThen (ngFifoPop s) fun a => .next a.2

end Sys2Proof.Machine
end

