-- ==== Sys2Proof/Machine/Ec.lean ====
section
/-! DEFINITION. The Entropy Conditioner: GET_ENTROPY as the rows of spec/40_entropy_conditioner.md R102
(rules R82 to R92). A row answers the next state and, where GET_ENTROPY returns, its status. -/

namespace Sys2Proof.Machine

/-- R67, R102 (row E_IDLE): GET_ENTROPY is issued for `esize` bytes. -/
def ecStart (esize : BitVec 32) (s : State) : State :=
  let s1 := emit (.call opGetEntropy false esize) s
  { s1 with ec := { s1.ec with phase := .check, esize := esize } }

/-- EC goes to another phase. -/
def ecGoto (p : EcPhase) (s : State) : State := { s with ec := { s.ec with phase := p } }

/-- R82, R102: GET_ENTROPY returns with a status. -/
def ecReturn (st : Status) (s : State) : State :=
  emit (.ret opGetEntropy st)
    (releaseEc { s with ec := { s.ec with phase := .idle, estatus := statusWord st } })

/-- R83, R102 (rows E_CHECK). -/
def ecCheck (s : State) : Option Status × State :=
  if oversized s.ec.esize then (some .fail, ecReturn .fail s)
  else
    (none, ecGoto .enable
      { s with
        ec := { s.ec with need := needWord (Config.freeBits 30 s.env.draws) s.ec.esize }
        env := { s.env with draws := s.env.draws + 1 } })

/-- R86, R88: what one poll iteration does once the level is known: wait below four words, load the key
if it is not set, wait below NEED, drain. -/
def pollPhase (keySet : Bool) (need level : Nat) : EcPhase :=
  if level < Config.fifoMinWords then .poll
  else if !keySet then .keyload
  else if level < need then .poll
  else .drain

/-- R86, R102 (rows E_POLL with READY): the level read and its decision. -/
def ecPollReady (s : State) : State :=
  let a := ngLevelRead s
  let s1 := { a.2 with ec := { a.2.ec with obsLevel := a.1 } }
  ecGoto (pollPhase s1.ec.keySet (drainCount s1.ec.need s1.ec.esize) a.1) s1

/-- R86 to R88, R102 (rows E_POLL): one poll iteration. -/
def ecPoll (s : State) : State :=
  let a := ngFsmRead s
  let s1 := { a.2 with ec := { a.2.ec with obsFsm := a.1 } }
  match a.1 with
  | .error => ecGoto .init s1
  | .reset => s1
  | .startup => s1
  | .ready => ecPollReady s1

/-- R89: the word at the head of the FIFO becomes key word `i`. -/
def loadKeyWord (i : Fin 4) (s : State) : Host.Outcome State Fault Refusal :=
  andThen (ngFifoPop s) fun a => .next (ngKeySet i a.1 a.2)

/-- R89, R102 (row E_KEYLOAD). -/
def ecKeyload (s : State) : Host.Outcome State Fault Refusal :=
  andThen (loadKeyWord 0 s) fun s =>
  andThen (loadKeyWord 1 s) fun s =>
  andThen (loadKeyWord 2 s) fun s =>
  andThen (loadKeyWord 3 s) fun s =>
  .next (ecGoto .poll { s with ec := { s.ec with keySet := true } })

/-- R90: `n` words popped, in order. -/
def popWords : Nat → State → Host.Outcome (List Word × State) Fault Refusal
  | 0, s => .next ([], s)
  | n + 1, s =>
    andThen (ngFifoPop s) fun a =>
    andThen (popWords n a.2) fun b => .next (a.1 :: b.1, b.2)

/-- R90, R48, R102 (row E_DRAIN): exactly ceil(size/4) words into EBUF. -/
def ecDrain (s : State) : Host.Outcome State Fault Refusal :=
  andThen (popWords (drainCount s.ec.need s.ec.esize) s) fun a =>
  .next (ecGoto .disable
    { a.2 with ec := { a.2.ec with ebuf := drainBytes a.2.ec.esize.toNat a.1 } })

/-- R102: one step of EC, in the phase it is in; in E_IDLE there is none. -/
def ecRow (s : State) : Host.Outcome (Option Status × State) Fault Refusal :=
  match s.ec.phase with
  | .idle => .next (none, s)
  | .check => .next (ecCheck s)
  | .enable => .next (none, ecGoto .init (ngEnable s))
  | .init => .next (none, ecGoto .poll (ngInit s))
  | .poll => .next (none, ecPoll s)
  | .keyload => andThen (ecKeyload s) fun s => .next (none, s)
  | .drain => andThen (ecDrain s) fun s => .next (none, s)
  | .disable => .next (none, ecGoto .resp (ngDisable s))
  | .resp => .next (some .ok, ecReturn .ok s)

end Sys2Proof.Machine
end

