-- ==== Sys2Proof/Machine/Dce.lean ====
section
/-! DEFINITION. The DRBG Control Engine: UPDATE, RESEED, INIT and GET_RANDOM as the rows of
spec/42_drbg_engine.md R147 (rules R130 to R146), and how it goes on when EC or the Block Cipher Engine
returns. -/

namespace Sys2Proof.Machine

/-- DCE goes to another phase. -/
def dceGoto (p : DcePhase) (s : State) : State := { s with dce := { s.dce with phase := p } }

/-! ## Starting an operation -/

/-- R147 (row D_IDLE, INIT). -/
def startInit (s : State) : State := dceGoto .zero { s with dce := { s.dce with ctx := [.cInit] } }

/-- R147 (row D_IDLE, GET_RANDOM). -/
def startGetRandom (dstv : Bool) (size : BitVec 32) (s : State) : State :=
  dceGoto .check { s with dce := { s.dce with ctx := [.cGen], size := size, dstv := dstv } }

/-- R135, R67: RESEED is called. -/
def startReseed (s : State) : State :=
  dceGoto .seed
    (emit (.call opReseed false 0) { s with dce := { s.dce with ctx := .cReseed :: s.dce.ctx } })

/-- R132, R67: UPDATE is called, with SEED as its operand or with none. -/
def startUpdate (hasExtra : Bool) (s : State) : State :=
  dceGoto (.upd 0)
    (emit (.call opUpdate hasExtra 0) { s with dce := { s.dce with hasExtra := hasExtra } })

/-- R142: the output loop begins: CUR <- 0, REM <- SIZE. -/
def startOutput (s : State) : State :=
  dceGoto (.out 0)
    { s with dce := { s.dce with cur := 0, rem := s.dce.size.setWidth 17 } }

/-! ## Rows of R147 -/

/-- R138 to R140 (rows D_CHECK). -/
def dceCheck (s : State) : State :=
  if invalidRequest s.dce.dstv s.dce.size then raise .invalid s
  else if s.dce.size = 0 then respond .ok s
  else if s.gen.initialized then dceGoto .reseedTest s
  else dceGoto .zero { s with dce := { s.dce with ctx := .cInit :: s.dce.ctx } }

/-- R136: all of GeneratorState is zero. -/
def zeroedGen : GeneratorState := { key := 0, v := 0, reseedCtr := 0, initialized := false }

/-- R136 (row D_ZERO). -/
def dceZero (s : State) : State := startReseed { s with gen := zeroedGen }

/-- R132 (row D_UPD(k)): the next counter value of the working copy goes to the cipher. -/
def dceUpd (k : Fin 3) (s : State) : State :=
  let from_ := if k = 0 then s.gen.v else s.dce.vw
  aesStart 32 { s with dce := { s.dce with vw := inc128 from_ } }

/-- R141 (rows D_RESEED_TEST). -/
def dceReseedTest (s : State) : State :=
  if reseedDue s.gen.reseedCtr then startReseed s else startOutput s

/-- R142, R147 (rows D_OUT(j)). With REM = 0 R147 goes to D_UPD(0) "(as D_FINAL)" in the same row; the model
goes to the phase D_FINAL of R16 and starts the trailing UPDATE in a row of its own (DESIGN CHOICE, log entry
37). -/
def dceOut (s : State) : State :=
  if s.dce.rem = 0 then dceGoto .final s
  else aesStart 32 { s with gen := { s.gen with v := inc128 s.gen.v } }

/-- R135, R136, R140, R147 (rows "RESEED returned ok"): RESEED_CTR <- 1, SEED holds no value any more,
and the caller goes on. -/
def reseedReturn (callers : List Ctx) (s : State) : State :=
  let s1 := emit (.ret opReseed .ok)
    (releaseSeed { s with
      gen := { s.gen with reseedCtr := 1 }
      dce := { s.dce with ctx := callers } })
  match callers with
  | .cInit :: rest =>
    let s2 := { s1 with
      gen := { s1.gen with initialized := true }
      dce := { s1.dce with ctx := rest } }
    match rest with
    | [] => dceGoto .resp s2
    | _ :: _ => dceGoto .reseedTest s2
  | .cGen :: _ => startOutput s1
  | _ => toIdle s1

/-- R132, R143, R147 (row D_COMMIT): KEY and V take the 48 bytes, both at once (R133), the working
registers of UPDATE hold no value any more, and its caller goes on. -/
def dceCommit (s : State) : State :=
  let t := updateValue (tempBytes s.dce.temp) s.dce.seed s.dce.hasExtra
  let s1 := emit (.ret opUpdate .ok)
    (releaseUpdate { s with gen := { s.gen with key := keyPart t, v := vPart t } })
  match s.dce.ctx with
  | .cReseed :: callers => reseedReturn callers s1
  | .cGen :: _ =>
    dceGoto .resp { s1 with gen := { s1.gen with reseedCtr := s1.gen.reseedCtr + 1 } }
  | _ => toIdle s1

/-- R147: one step of DCE while no other engine runs. R147 has no row from D_FINAL: that the model spends one
there, which starts the trailing UPDATE, is its choice (DESIGN CHOICE, log entry 37). -/
def dceRow (s : State) : State :=
  match s.dce.phase with
  | .idle => s
  | .check => dceCheck s
  | .zero => dceZero s
  | .seed => ecStart (BitVec.ofNat 32 Config.seedLen) s
  | .upd k => dceUpd k s
  | .commit => dceCommit s
  | .reseedTest => dceReseedTest s
  | .out _ => dceOut s
  | .final => startUpdate false s
  | .resp => respond .ok s

/-! ## When another engine returns to DCE -/

/-- R135, R19: RESEED takes the bytes of GET_ENTROPY into SEED; EBUF and ESTATUS hold no value then (log
entry 30). -/
def takeSeed (s : State) : State :=
  releaseEcResult { s with dce := { s.dce with seed := ofBytes 384 s.ec.ebuf } }

/-- R135, R147 (row D_SEED): GET_ENTROPY has returned to RESEED: SEED takes EBUF and UPDATE SEED follows,
or RESEED fails. A GET_ENTROPY issued by itself has no caller. -/
def dceEntropy (st : Status) (s : State) : State :=
  match s.dce.phase with
  | .seed =>
    match st with
    | .ok => startUpdate true (takeSeed s)
    | .fail => raise .fail s
    | .invalid => raise .fail s
  | _ => s

/-- The phase after block k of UPDATE (R132, R147). -/
def afterUpd (k : Fin 3) : DcePhase :=
  if k = 0 then .upd 1 else if k = 1 then .upd 2 else .commit

/-- R132: TEMP takes the cipher block of D_UPD(k); BLK holds no value then (R17). -/
def takeUpdBlock (k : Fin 3) (s : State) : State :=
  dceGoto (afterUpd k)
    (releaseBlk { s with dce := { s.dce with temp := putBlock s.dce.temp k s.dce.blk } })

/-- R142: n = min(REM, 16). -/
def chunk (rem : BitVec 17) : Nat := min rem.toNat 16

/-- R142: the first n bytes of BLK go to OUT at CUR, and the cursor advances; BLK holds no value then
(R17). -/
def takeOutBlock (j : Nat) (s : State) : Host.Outcome State Fault Refusal :=
  let n := chunk s.dce.rem
  andThen (outWrite s.dce.cur.toNat ((bytesOf 16 s.dce.blk).take n) s) fun s1 =>
  .next (dceGoto (.out (j + 1))
    (releaseBlk { s1 with
      dce := { s1.dce with
        cur := s1.dce.cur + BitVec.ofNat 17 n
        rem := s1.dce.rem - BitVec.ofNat 17 n } }))

/-- R132, R142: the cipher block has come. -/
def dceBlock (s : State) : Host.Outcome State Fault Refusal :=
  match s.dce.phase with
  | .upd k => .next (takeUpdBlock k s)
  | .out j => takeOutBlock j s
  | _ => .next s

/-- R133, R144, R175: the cipher call has failed. An AES_ECB_ENCRYPT issued by itself has no caller. -/
def dceBlockFailed (s : State) : State :=
  match s.dce.phase with
  | .upd _ => raise .fail s
  | .out _ => raise .fail s
  | _ => s

end Sys2Proof.Machine
end

