-- ==== Sys2Proof/Machine/Engine.lean ====
section
/-! DEFINITION. The engines running: one row at a time (`tick`), and on as far as the environment's
queued answers reach (`drive`). Which agent moves is read from the phases (spec/00_scope.md R7): the Block
Cipher Engine while it polls, else EC while it is not in E_IDLE, else DCE. -/

namespace Sys2Proof.Machine

/-- R115: one iteration of the poll loop of AES_ECB_ENCRYPT, and the return to DCE where it ends it. -/
def tickAes (s : State) : Host.Outcome State Fault Refusal :=
  let a := aesPoll s
  match a.1 with
  | .busy => .next a.2
  | .done => dceBlock a.2
  | .error => .next (dceBlockFailed a.2)

/-- R102: one row of EC, and the return to DCE where GET_ENTROPY returns. -/
def tickEc (s : State) : Host.Outcome State Fault Refusal :=
  andThen (ecRow s) fun a =>
  match a.1 with
  | none => .next a.2
  | some st => .next (dceEntropy st a.2)

/-- One row of the agent that is not blocked. -/
def tick (s : State) : Host.Outcome State Fault Refusal :=
  match s.bce with
  | .poll => tickAes s
  | .idle =>
    match s.ec.phase with
    | .idle => .next (dceRow s)
    | _ => tickEc s

/-- Whether the answer to the next status read of the job is queued. -/
def accAnswerQueued (s : State) : Bool := s.acc.job.isSome && !s.env.accStatusIn.isEmpty

/-- Whether the answers one poll iteration of EC reads (R86) are queued. -/
def ngAnswerQueued (env : Env) : Bool :=
  match env.ngFsmIn with
  | [] => false
  | .ready :: _ => !env.ngWordsIn.isEmpty
  | _ :: _ => true

/-- Whether the next row reads no answer that is not queued. -/
def canAdvance (s : State) : Bool :=
  !idle s &&
  match s.bce with
  | .poll => accAnswerQueued s
  | .idle =>
    match s.ec.phase with
    | .poll => ngAnswerQueued s.env
    | _ => true

/-- At most `n` rows, ending where the operation ends or waits for an answer that is not queued. -/
def drive : Nat → State → Host.Outcome State Fault Refusal
  | 0, s => .next s
  | n + 1, s => if canAdvance s then andThen (tick s) (drive n) else .next s

/-- How many answers are queued. -/
def queued (env : Env) : Nat :=
  env.ngFsmIn.length + env.ngWordsIn.length + env.accStatusIn.length

/-- More rows than the queued answers can feed: between two reads of an answer at most nine rows read
none, in every state. -/
def budget (s : State) : Nat := 16 * (queued s.env + 1)

/-- An operation that has been started runs on the queued answers. -/
def run (s : State) : Host.Outcome State Fault Refusal := drive (budget s) s

/-- One step of a machine whose operation is in progress: one row, whatever the environment answers, and
then on (R8 "poll": the engine re-reads an environment value). -/
def advance (s : State) : Host.Outcome State Fault Refusal := andThen (tick s) run

end Sys2Proof.Machine
end

