-- ==== Sys2Proof/Machine/Commands.lean ====
section
/-! DEFINITION. The meanings of the two host commands and the four internal operations
(spec/30_encoding.md R62): the operation is started and runs as far as the environment's queued answers
reach; where they end first, it stays in progress in the phase it has reached and the next steps carry it
on (log entry 1). An operation issued while one is running has no meaning (R148). -/

namespace Sys2Proof.Machine

/-- R148: `start` runs where no engine is running. -/
def whenIdle (s : State) (start : State → State) : Host.Outcome State Fault Refusal :=
  if idle s then run (start s) else .refused .engineBusy

/-- INIT (R136). -/
def execInit (s : State) : Host.Outcome State Fault Refusal := whenIdle s startInit

/-- GET_RANDOM (R137 to R144). -/
def execGetRandom (dstv : Bool) (size : BitVec 32) (s : State) : Host.Outcome State Fault Refusal :=
  whenIdle s (startGetRandom dstv size)

/-- RESEED (R135). -/
def execReseed (s : State) : Host.Outcome State Fault Refusal := whenIdle s startReseed

/-- UPDATE (R132 to R134). -/
def execUpdate (hasExtra : Bool) (s : State) : Host.Outcome State Fault Refusal :=
  whenIdle s (startUpdate hasExtra)

/-- GET_ENTROPY (R82 to R92). -/
def execGetEntropy (esize : BitVec 32) (s : State) : Host.Outcome State Fault Refusal :=
  whenIdle s (ecStart esize)

/-- AES_ECB_ENCRYPT (R111 to R118); a reserved key size is refused (R66). -/
def execAesEcbEncrypt (keySize : BitVec 32) (s : State) : Host.Outcome State Fault Refusal :=
  if keySizeLegal keySize then whenIdle s (aesStart keySize.toNat)
  else .refused (.reservedKeySize keySize)

end Sys2Proof.Machine
end

