-- ==== Sys2Proof/Machine/Dispatch.lean ====
section
/-! DEFINITION. One arm per instruction. -/

namespace Sys2Proof.Machine

def exec (i : Instr) (s : State) : Host.Outcome State Fault Refusal :=
  match i with
  | .init => Sys2Proof.Machine.execInit s
  | .getRandom dstv size => Sys2Proof.Machine.execGetRandom dstv size s
  | .reseed => Sys2Proof.Machine.execReseed s
  | .update hasExtra => Sys2Proof.Machine.execUpdate hasExtra s
  | .getEntropy esize => Sys2Proof.Machine.execGetEntropy esize s
  | .aesEcbEncrypt keySize => Sys2Proof.Machine.execAesEcbEncrypt keySize s
  | .ngEnable => Sys2Proof.Machine.execNgEnable s
  | .ngDisable => Sys2Proof.Machine.execNgDisable s
  | .ngReset => Sys2Proof.Machine.execNgReset s
  | .ngConfigure c t w b => Sys2Proof.Machine.execNgConfigure c t w b s
  | .ngFsmRead => Sys2Proof.Machine.execNgFsmRead s
  | .ngKeySet index word => Sys2Proof.Machine.execNgKeySet index word s
  | .ngKeyRead index => Sys2Proof.Machine.execNgKeyRead index s
  | .ngLevelRead => Sys2Proof.Machine.execNgLevelRead s
  | .ngFifoPop => Sys2Proof.Machine.execNgFifoPop s
  | .accEnable => Sys2Proof.Machine.execAccEnable s
  | .accDisable => Sys2Proof.Machine.execAccDisable s
  | .accSetFetch addr => Sys2Proof.Machine.execAccSetFetch addr s
  | .accSetPush addr => Sys2Proof.Machine.execAccSetPush addr s
  | .accSetIndirect => Sys2Proof.Machine.execAccSetIndirect s
  | .accStart => Sys2Proof.Machine.execAccStart s
  | .accStatusRead => Sys2Proof.Machine.execAccStatusRead s
  | .accSoftreset => Sys2Proof.Machine.execAccSoftreset s
  | .barrier => Sys2Proof.Machine.execBarrier s

end Sys2Proof.Machine
end

