-- ==== Sys2Proof/Machine/Fetch.lean ====
section
/-! DEFINITION. Issuing the next operation: the host's write to CMD (spec/10_state.md R28,
spec/30_encoding.md R61 to R66), and the engine-level slot (log entry 10). -/

namespace Sys2Proof.Machine

/-- R66: an illegal command word changes STATUS alone. -/
def rejectWord (s : State) : State :=
  { s with host := { s.host with status := statusWord .invalid } }

/-- R28, R66: the host writes a word to CMD while DCE is in D_IDLE. -/
def hostWrite (w : CmdWord) (s : State) : Host.Outcome State Fault Refusal :=
  let s1 := { s with host := { s.host with cmd := w } }
  match decodeHost w with
  | .ok i => exec i s1
  | .error _ => .next (rejectWord s1)

/-- An operation issued by itself at engine level. -/
def engineIssue (c : Code) (s : State) : Host.Outcome State Fault Refusal :=
  match decode c with
  | .ok i => exec i s
  | .error e => .refused (.undecodable e)

/-- One issued operation. -/
def issueOne (x : Issue) (s : State) : Host.Outcome State Fault Refusal :=
  match x with
  | .host w => hostWrite w s
  | .engine c => engineIssue c s

/-- The next issued operation, taken from the queue; with none the machine waits in D_IDLE (R200). -/
def issueNext (s : State) : Host.Outcome State Fault Refusal :=
  match s.host.issue with
  | [] => .next s
  | x :: rest => issueOne x { s with host := { s.host with issue := rest } }

/-- Which slot an encoded instruction is issued from: the host port for a command word, unless it decodes
to an internal operation; the engine-level slot for that and for a port event. -/
def issueOf (c : Code) : Issue :=
  match c with
  | .cw w =>
    match decodeHost w with
    | .ok _ => .host w
    | .error _ =>
      match decodeCw w with
      | .ok _ => .engine (.cw w)
      | .error _ => .host w
  | .pe bytes => .engine (.pe bytes)

/-- The state with no engine running and `x` the next operation to be issued. -/
def placeIssue (x : Issue) (s : State) : State :=
  { s with
    dce := { s.dce with phase := .idle, ctx := [] }
    ec := { s.ec with phase := .idle }
    bce := .idle
    host := { s.host with issue := x :: s.host.issue } }

end Sys2Proof.Machine
end

