-- ==== Sys2Proof/Machine/Step.lean ====
section
/-! DEFINITION. One step: while an operation is in progress its engines go on, else the next operation is
issued (spec/00_scope.md R7, spec/42_drbg_engine.md R148). -/

namespace Sys2Proof.Machine

def step (s : State) : Host.Outcome State Fault Refusal :=
  if idle s then issueNext s else advance s

/-- `s` with the instruction whose bits are `w` as the next operation issued (log entry 11). -/
def State.withFetchWord (s : State) (nbits w : Nat) : State :=
  match tableCode nbits w with
  | none => s
  | some c => placeIssue (issueOf c) s

end Sys2Proof.Machine
end

