-- ==== Sys2Proof/Safety.lean ====
section
/-! DEFINITION. What counts as a sound state of RNGBLK: the invariants of spec/10_state.md R15 and R16,
spec/20_memory.md R41 to R44 and spec/60_exceptions.md R188, as predicates on a state. -/

namespace Sys2Proof.Machine

/-- R183: everything that waits to be issued is a word for the host port (no engine-level operation). -/
def HostOnly (s : State) : Prop := ∀ x ∈ s.host.issue, ∃ w, x = .host w

/-- R15 item 2: an initialized generator has a counter from 1 to 2^48 - 1. -/
def CounterRange (g : GeneratorState) : Prop :=
  g.initialized = true → 1 ≤ g.reseedCtr.toNat ∧ g.reseedCtr.toNat + 1 ≤ Config.reseedInterval

/-- R141, R146: a request that produces output has a counter it can still count up. -/
def CanCount (g : GeneratorState) : Prop :=
  g.initialized = true ∧ g.reseedCtr.toNat + 2 ≤ Config.reseedInterval

/-- R16: the callers a RESEED can have: none (engine level), INIT, the INIT inside GET_RANDOM, or
GET_RANDOM on an initialized generator. -/
def CallersSound (g : GeneratorState) (callers : List Ctx) : Prop :=
  callers = [] ∨ callers = [.cInit] ∨ callers = [.cInit, .cGen] ∨
    (callers = [.cGen] ∧ g.initialized = true)

/-- R16, R147: the return contexts that belong to a phase. -/
def CtxSound (s : State) : Prop :=
  match s.dce.phase with
  | .idle => s.dce.ctx = []
  | .check => s.dce.ctx = [.cGen]
  | .zero => s.dce.ctx = [.cInit] ∨ s.dce.ctx = [.cInit, .cGen]
  | .seed => ∃ callers, s.dce.ctx = .cReseed :: callers ∧ CallersSound s.gen callers
  | .upd _ | .commit =>
    (∃ callers, s.dce.ctx = .cReseed :: callers ∧ CallersSound s.gen callers) ∨
      (s.dce.ctx = [.cGen] ∧ CanCount s.gen) ∨ s.dce.ctx = []
  | .reseedTest => s.dce.ctx = [.cGen] ∧ s.gen.initialized = true
  | .out _ | .final => s.dce.ctx = [.cGen] ∧ CanCount s.gen
  | .resp => s.dce.ctx = [] ∨ s.dce.ctx = [.cGen]

/-- R15 item 2 with the phases it is kept through. -/
def CounterInv (s : State) : Prop := CounterRange s.gen ∧ CtxSound s

/-- R84, R102: the phases of GET_ENTROPY between NG_ENABLE and NG_DISABLE. -/
def ecHoldsNg (p : EcPhase) : Bool :=
  match p with
  | .idle => false
  | .check => false
  | .enable => false
  | .init => true
  | .poll => true
  | .keyload => true
  | .drain => true
  | .disable => true
  | .resp => false

/-- R188: a module is enabled exactly inside the operation that uses it, and the two operations never run
together. -/
def ModulesInv (s : State) : Prop :=
  s.acc.enabled = (s.bce == .poll) ∧ s.ng.enabled = ecHoldsNg s.ec.phase ∧
    (s.bce = .poll → s.ec.phase = .idle)

/-- R188: both modules are disabled. -/
def ModulesOff (s : State) : Prop := s.acc.enabled = false ∧ s.ng.enabled = false

/-- R21, R22, R89, R90: the FIFO is within its capacity, and where EC is about to pop, the words are
there. -/
def FifoInv (s : State) : Prop :=
  s.ng.fifo.length ≤ Config.fifoDepthWords ∧
    (s.ec.phase = .keyload → 4 ≤ s.ng.fifo.length) ∧
    (s.ec.phase = .drain → drainCount s.ec.need s.ec.esize ≤ s.ng.fifo.length)

/-- R17, R138, R142: past its checks a request is of at most 65536 bytes, and in the output loop
CUR + REM = SIZE. -/
def CursorInv (s : State) : Prop :=
  (.cGen ∈ s.dce.ctx → s.dce.phase ≠ .check → s.dce.size.toNat ≤ Config.maxRequestBytes) ∧
    (∀ j, s.dce.phase = .out j →
      .cGen ∈ s.dce.ctx ∧ s.dce.cur.toNat + s.dce.rem.toNat = s.dce.size.toNat)

/-- R16, R20: DCE waits in D_SEED while EC runs for it, and in D_UPD or D_OUT while the Block Cipher
Engine runs for it; an operation issued by itself at engine level runs with DCE in D_IDLE. -/
def CallSound (s : State) : Prop :=
  (s.ec.phase ≠ .idle → s.dce.phase = .seed ∨ s.dce.phase = .idle) ∧
    (s.bce = .poll → (∃ k, s.dce.phase = .upd k) ∨ (∃ j, s.dce.phase = .out j) ∨
      s.dce.phase = .idle)

/-- The canonical form of OUT. -/
def OutInv (s : State) : Prop := Memory.wf s.out = true

/-- How often an event stands in the port trace. -/
def traceCount (e : Event) (s : State) : Nat := s.trace.count e

/-- R116, S7: every ACC_ENABLE but that of a job being polled has its ACC_DISABLE. -/
def AccBalanced (s : State) : Prop :=
  traceCount .accEnable s = traceCount .accDisable s + (if s.bce = .poll then 1 else 0)

/-- R84: every NG_ENABLE but that of a running GET_ENTROPY has its NG_DISABLE. -/
def NgBalanced (s : State) : Prop :=
  traceCount .ngEnable s =
    traceCount .ngDisable s + (if ecHoldsNg s.ec.phase = true then 1 else 0)

/-- R27, R32: once an ACC_SOFTRESET has been issued, an accelerator without a job has clear flags. -/
def AccFlagsInv (s : State) : Prop :=
  s.acc.job = none → s.acc.softresetDone = true → s.acc.status = accStatusClear

/-- R15, R16, R41, R142, R188: what every step keeps, for a machine that the host drives through its port. -/
def SoundState (s : State) : Prop :=
  HostOnly s ∧ CounterInv s ∧ ModulesInv s ∧ FifoInv s ∧ CursorInv s ∧ CallSound s ∧ OutInv s

end Sys2Proof.Machine
end

