-- ==== Sys2Proof/Claims.lean ====
section
/-! DEFINITION. The words the obligations are stated in: answers of the environment, the cipher stream of a
request, counts over the port trace, and what of a state carries no secret. -/

namespace Sys2Proof.Claims

open Sys2Proof.Machine

/-- DCE is in D_IDLE with an empty context and no other engine runs (R16, R32). -/
def Quiet (s : State) : Prop := idle s = true ∧ s.dce.ctx = []

/-! ## Answers of the environment -/

/-- R115: the status reads of one job that ends done: busy any number of times, then done. -/
def JobDone (as : List AccStatus) : Prop :=
  ∃ bs st, as = bs ++ [st] ∧ (∀ b ∈ bs, classify b = .busy) ∧ classify st = .done

/-- R115: the status reads of one job that ends in an error. -/
def JobError (as : List AccStatus) : Prop :=
  ∃ bs st, as = bs ++ [st] ∧ (∀ b ∈ bs, classify b = .busy) ∧ classify st = .error

/-- The status reads of `n` jobs in a row that all end done. -/
def JobsDone (n : Nat) (as : List AccStatus) : Prop :=
  ∃ ls : List (List AccStatus), ls.length = n ∧ (∀ l ∈ ls, JobDone l) ∧ as = ls.flatten

/-- R86 to R90: answers on which GET_ENTROPY for `esize` bytes ends: READY with at least four words, of
which `ks` are the first four, then READY with the words `ws` in the FIFO, at least four and at least
NEED of them; the FIFO never holds more than its capacity. -/
def EntropyAnswers (env : Env) (esize : BitVec 32) (ks ws : List Word) : Prop :=
  ∃ first more fs wss,
    env.ngFsmIn = .ready :: .ready :: fs ∧ env.ngWordsIn = (ks ++ first) :: more :: wss ∧
    ks.length = 4 ∧ ws = first ++ more ∧ 4 + first.length ≤ Config.fifoDepthWords ∧
    ws.length ≤ Config.fifoDepthWords ∧ 4 ≤ ws.length ∧ needOf esize ≤ ws.length

/-- R90, R48: the 48 bytes that a RESEED draws from those answers. -/
def seedOf (ws : List Word) : Seed48 := ofBytes 384 (drainBytes 48 (ws.take 12))

/-! ## The generator's values -/

/-- R142, R145: the cipher block of the counter value V + n. -/
def streamBlock (key : KeyBits) (v : Block) (n : Nat) : Block := aes256 key (v + BitVec.ofNat 128 n)

/-- R142: byte i of the output of a request that starts from KEY and V. -/
def streamByte (key : KeyBits) (v : Block) (i : Nat) : Byte :=
  (bytesOf 16 (streamBlock key v (i / 16 + 1))).getD (i % 16) 0

/-- R142: the number of blocks of a request. -/
def blocks (size : BitVec 32) : Nat := ceilDiv size.toNat 16

/-- R132: the 48 bytes of cipher output of an UPDATE that starts from KEY and V. -/
def tempOf (key : KeyBits) (v : Block) : Seed48 :=
  streamBlock key v 1 ++ streamBlock key v 2 ++ streamBlock key v 3

/-- R132, R134: GeneratorState after an UPDATE with the operand `extra`. -/
def updated (g : GeneratorState) (extra : Seed48) : GeneratorState :=
  { g with key := keyPart (tempOf g.key g.v ^^^ extra), v := vPart (tempOf g.key g.v ^^^ extra) }

/-- R135: GeneratorState after a RESEED with the seed bytes `seed`. -/
def reseeded (g : GeneratorState) (seed : Seed48) : GeneratorState :=
  { updated g seed with reseedCtr := 1 }

/-- R142, R143: GeneratorState after a successful request of `n` blocks that made no reseed. -/
def generated (g : GeneratorState) (n : Nat) : GeneratorState :=
  { updated { g with v := g.v + BitVec.ofNat 128 n } 0 with reseedCtr := g.reseedCtr + 1 }

/-- R140, R141: a request with output seeds first: the generator is not initialized, or its counter has
reached the threshold of decision D18 (log entry 18). -/
def SeedsFirst (g : GeneratorState) : Prop :=
  g.initialized = false ∨ 2 ^ 48 ≤ g.reseedCtr.toNat + 1

/-- R136, R140, R141: GeneratorState after that seeding, the implicit INIT or the threshold RESEED. -/
def seededFirst (g : GeneratorState) (seed : Seed48) : GeneratorState :=
  if g.initialized then reseeded g seed else { reseeded zeroedGen seed with initialized := true }

/-- R8: `be128` of a byte string, byte 0 the most significant. -/
def beValue (bs : List Byte) : Nat := bs.foldl (fun n b => n * 256 + b.toNat) 0

/-! ## The port trace -/

/-- R67, R149: how often an internal operation has been called. -/
def callCount (op : Byte) (s : State) : Nat :=
  s.trace.countP fun e =>
    match e with
    | .call o _ _ => o == op
    | _ => false

/-- R114, R116: the port trace of one AES_ECB_ENCRYPT whose status reads are `as`. -/
def aesTrace (keySize : BitVec 32) (as : List AccStatus) (st : Status) : List Event :=
  [.call opAes false keySize, .accEnable, .accSetFetch .jobChain, .accSetPush .jobOutput,
    .accSetIndirect, .barrier, .accStart] ++ as.map .accStatusRead ++
  [.accSoftreset, .accDisable, .ret opAes st]

/-! ## Kinds of operation -/

/-- R21: the nine port operations towards NG. -/
def isNgOp (i : Instr) : Bool :=
  match i with
  | .init => false
  | .getRandom _ _ => false
  | .reseed => false
  | .update _ => false
  | .getEntropy _ => false
  | .aesEcbEncrypt _ => false
  | .ngEnable => true
  | .ngDisable => true
  | .ngReset => true
  | .ngConfigure _ _ _ _ => true
  | .ngFsmRead => true
  | .ngKeySet _ _ => true
  | .ngKeyRead _ => true
  | .ngLevelRead => true
  | .ngFifoPop => true
  | .accEnable => false
  | .accDisable => false
  | .accSetFetch _ => false
  | .accSetPush _ => false
  | .accSetIndirect => false
  | .accStart => false
  | .accStatusRead => false
  | .accSoftreset => false
  | .barrier => false

/-- R25, R54: the eight port operations towards ACC, and BARRIER. -/
def isAccOp (i : Instr) : Bool :=
  match i with
  | .init => false
  | .getRandom _ _ => false
  | .reseed => false
  | .update _ => false
  | .getEntropy _ => false
  | .aesEcbEncrypt _ => false
  | .ngEnable => false
  | .ngDisable => false
  | .ngReset => false
  | .ngConfigure _ _ _ _ => false
  | .ngFsmRead => false
  | .ngKeySet _ _ => false
  | .ngKeyRead _ => false
  | .ngLevelRead => false
  | .ngFifoPop => false
  | .accEnable => true
  | .accDisable => true
  | .accSetFetch _ => true
  | .accSetPush _ => true
  | .accSetIndirect => true
  | .accStart => true
  | .accStatusRead => true
  | .accSoftreset => true
  | .barrier => true

/-- R62: the two host commands and the four internal operations. -/
def isCommand (i : Instr) : Bool := !isNgOp i && !isAccOp i

/-! ## What carries no secret (R150) -/

/-- A job without its key and its input block. -/
def publicJob (j : Job) : Job := { j with key := [], inBlock := 0 }

/-- A state without KEY, V, the blocks and byte strings computed from them, and the bytes of OUT: the
phases, the counters, the status, the whole port trace and the environment's side remain. -/
def publicPart (s : State) : State :=
  { s with
    gen := { s.gen with key := 0, v := 0 }
    dce := { s.dce with blk := 0, temp := #v[0, 0, 0], vw := 0, seed := 0 }
    acc := { s.acc with job := s.acc.job.map publicJob }
    job := { s.job with chain := s.job.chain.map publicJob, outBlock := 0 }
    out := s.out.map fun c => (c.1, 0) }

end Sys2Proof.Claims
end

