-- ==== Sys2Proof/Certificates/Slice0/Obligations.lean ====
section
/-! DEFINITION. The statements for the provers. Each docstring names the rules of spec/ a statement
formalises; a clause that is the model's own choice is said to be so. Wherever a statement says what exec of
a command or an internal operation answers, exec has run it as far as the queued answers reach (R16, log
entry 1). -/

open Sys2Proof Sys2Proof.Machine Sys2Proof.Claims

/-! ## Encodings -/

/-- R60 to R62, R68: decoding an encoded well-formed instruction gives it back; a port event leaves the
bytes after it. (The argument bytes of port events are the model's choice, log entry 12.) The layout of
the words is the spec's own decision D2. -/
def Obligations.DecodeEncodeRoundTrip : Prop :=
  ∀ i : Instr, i.wellFormed = true →
    decode (encode i) = .ok i ∧
    ∀ bs, encode i = .pe bs → ∀ rest, decodePe (bs ++ rest) = .ok (i, rest)

/-- R60 to R62: a command word has one meaning and no bit of it is dropped. The layout is the spec's own
decision D2. -/
def Obligations.CommandWordHasOneMeaning : Prop :=
  ∀ (w : CmdWord) (i : Instr), decodeCw w = .ok i → encode i = .cw w

/-- R62 and spec/opcode_table.json: the six command word rows, by the table's masks. The layout is the
spec's own decision D2. -/
def Obligations.OpcodeTableMasksDecode : Prop :=
  ∀ w : CmdWord,
    (decodeCw w = .ok .init ↔ w = 0x0100000000000000) ∧
    (decodeCw w = .ok (.getRandom (w.getLsbD 32) (w.extractLsb' 0 32)) ↔
      w &&& 0xFFFFFFFE00000000 = 0x0200000000000000) ∧
    (decodeCw w = .ok .reseed ↔ w = 0x1000000000000000) ∧
    (decodeCw w = .ok (.update (w.getLsbD 32)) ↔
      w &&& 0xFFFFFFFEFFFFFFFF = 0x1100000000000000) ∧
    (decodeCw w = .ok (.getEntropy (w.extractLsb' 0 32)) ↔
      w &&& 0xFFFFFFFF00000000 = 0x2000000000000000) ∧
    (decodeCw w = .ok (.aesEcbEncrypt (w.extractLsb' 0 32)) ↔
      w &&& 0xFFFFFFFF00000000 = 0x3000000000000000)

/-- R73: the worked encodings. R73 derives them from R61 and R62, whose layout is the spec's own decision
D2. -/
def Obligations.WorkedEncodings : Prop :=
  decodeCw 0x0200000100000020 = .ok (.getRandom true 32) ∧
  decodeCw 0x0200000100010000 = .ok (.getRandom true 65536) ∧
  decodeCw 0x0200000100010001 = .ok (.getRandom true 65537) ∧
  decodeCw 0x0200000000000000 = .ok (.getRandom false 0) ∧
  decodeCw 0x2000000000000030 = .ok (.getEntropy 48) ∧
  decodeCw 0x3000000000000020 = .ok (.aesEcbEncrypt 32) ∧
  encode (.getRandom true 32) = .cw 0x0200000100000020 ∧
  encode (.getRandom true 65536) = .cw 0x0200000100010000 ∧
  encode (.getRandom true 65537) = .cw 0x0200000100010001 ∧
  encode (.getRandom false 0) = .cw 0x0200000000000000 ∧
  encode (.getEntropy 48) = .cw 0x2000000000000030 ∧
  encode (.aesEcbEncrypt 32) = .cw 0x3000000000000020

/-- R66: which words at the host port are illegal; an illegal word changes STATUS alone, besides the write
to CMD itself; a reserved key size is refused. R66 rests on the spec's own decision D6 (log entry 21); the
refusal is what 93 U10 asks for. -/
def Obligations.IllegalCommandWords : Prop :=
  (∀ w : CmdWord,
    (∃ e, decodeHost w = .error e) ↔
      (cwOp w ≠ 0x01 ∧ cwOp w ≠ 0x02) ∨ cwRsv w ≠ 0 ∨
        (cwOp w = 0x01 ∧ (cwF w = true ∨ cwN w ≠ 0))) ∧
  (∀ (s : State) (w : CmdWord) (rest : List Issue) (e : DecodeError),
    idle s = true → s.host.issue = .host w :: rest → decodeHost w = .error e →
      step s = .next { s with host := { cmd := w, status := 0xFFFFFFFE, issue := rest } }) ∧
  (∀ (s : State) (n : BitVec 32), n ≠ 16 → n ≠ 24 → n ≠ 32 →
    exec (.aesEcbEncrypt n) s = .refused (.reservedKeySize n))

/-! ## The step -/

/-- R28, R61: a legal word at the host port runs its instruction: the step is exec of it, on the state
with the word in CMD and the queue one shorter. The host port is the spec's own decision D2; the queue is
the model's (log entry 10). -/
def Obligations.StepRunsHostCommand : Prop :=
  ∀ (s : State) (w : CmdWord) (rest : List Issue) (i : Instr),
    idle s = true → s.host.issue = .host w :: rest → decodeHost w = .ok i →
      step s = exec i { s with host := { s.host with cmd := w, issue := rest } }

/-- The engine-level slot (the model's own, log entry 10) runs the instruction its form decodes to. -/
def Obligations.StepRunsEngineOperation : Prop :=
  ∀ (s : State) (c : Code) (rest : List Issue) (i : Instr),
    idle s = true → s.host.issue = .engine c :: rest → decode c = .ok i →
      step s = exec i { s with host := { s.host with issue := rest } }

/-- R148, R7: while an operation runs no command is accepted: a step carries the operation on, and each of
the six operations is refused. How much of it one step carries on, a row of the running engine and then
every row that the queued answers reach, is the model's choice (log entry 1), which R16 and decision D3
allow. That exec is refused there is the model's form of "no meaning" (D27, 93 U1, log entry 23). -/
def Obligations.BusyMachineAcceptsNothing : Prop :=
  ∀ s : State, idle s = false →
    step s = andThen (tick s) run ∧
    ∀ i, isCommand i = true → i.wellFormed = true → exec i s = .refused .engineBusy

/-- R200: with nothing issued the machine waits as it is. That a step of it answers the same state is the
model's choice (log entry 29). -/
def Obligations.IdleMachineWaits : Prop :=
  ∀ s : State, idle s = true → s.host.issue = [] → step s = .next s

/-! ## Reset -/

/-- R32: what the spec says of the state after reset (not the values the model names for registers that
hold none, log entry 6). The values are the spec's own decision D25. -/
def Obligations.ResetLeaves : Prop :=
  State.reset.gen.initialized = false ∧ State.reset.ec.keySet = false ∧
  State.reset.dce.phase = .idle ∧ State.reset.dce.ctx = [] ∧ State.reset.ec.phase = .idle ∧
  State.reset.ng.enabled = false ∧ State.reset.acc.enabled = false ∧ State.reset.acc.job = none ∧
  (∀ off, Memory.read State.reset.out off = none) ∧ State.reset.trace = []

/-- R15, R32, R188: the invariants hold after reset. The invariants are the model's; the reset values are
decision D25 and log entry 6. -/
def Obligations.ResetIsSound : Prop :=
  SoundState State.reset ∧ AccFlagsInv State.reset ∧ AccBalanced State.reset ∧
    NgBalanced State.reset ∧ ModulesOff State.reset

/-! ## Port operations -/

/-- R93, R94, R96, R98: each sets its field, is recorded, and changes nothing else, but that NG_DISABLE
leaves NG's other fields free values (93 U17, log entry 16: nothing is said of them but that the FIFO is
within its capacity). One event for the four configuration writes is decision D11. That NG_CONFIGURE and
NG_KEY_SET take effect on a disabled NG too is the model's choice (log entry 35). -/
def Obligations.NgWritesTakeEffect : Prop :=
  ∀ s : State,
    exec .ngEnable s =
      .next { s with ng := { s.ng with enabled := true }, trace := s.trace ++ [.ngEnable] } ∧
    (∃ t, exec .ngDisable s = .next t ∧ t.ng.enabled = false ∧
      t.ng.fifo.length ≤ Config.fifoDepthWords ∧
      t.env.ngFsmIn = s.env.ngFsmIn ∧ t.env.ngWordsIn = s.env.ngWordsIn ∧
      t.env.accStatusIn = s.env.accStatusIn ∧
      t = { s with ng := t.ng, trace := s.trace ++ [.ngDisable], env := t.env }) ∧
    (∀ c t i b, exec (.ngConfigure c t i b) s =
      .next { s with
        ng := { s.ng with clkdiv := c, offTimer := t, initWait := i, blocksPerCycle := b }
        trace := s.trace ++ [.ngConfigure c t i b] }) ∧
    ∀ i w, ∃ u, exec (.ngKeySet i w) s = .next u ∧ u.ng.ck[i] = w ∧
      (∀ j : Fin 4, j ≠ i → u.ng.ck[j] = s.ng.ck[j]) ∧
      u = { s with ng := { s.ng with ck := u.ng.ck }, trace := s.trace ++ [.ngKeySet i w] }

/-- R95, R23: NG_RESET forces RESET and empties the FIFO, leaves ng_enabled, and changes nothing outside
NG but the trace and the draw counter. The configuration and the key words are free values: nothing is
said of them. That the FIFO is emptied is decision D17; that all this holds of a disabled NG too is the
model's choice (log entry 35). -/
def Obligations.NgResetTakesEffect : Prop :=
  ∀ s : State, ∃ t, exec .ngReset s = .next t ∧
    t.ng.fsm = .reset ∧ t.ng.fifo = [] ∧ t.ng.enabled = s.ng.enabled ∧
    t.env.ngFsmIn = s.env.ngFsmIn ∧ t.env.ngWordsIn = s.env.ngWordsIn ∧
    t.env.accStatusIn = s.env.accStatusIn ∧
    t = { s with ng := t.ng, trace := s.trace ++ [.ngReset], env := t.env }

/-- R97, R99: NG_FSM_READ returns a drawn state (the queued answer where there is one, log entry 2) and
NG_KEY_READ returns CK[i]; both record what they return and change nothing else of RNGBLK. That CK[i] is the
word that stands in State, which NG does not change by itself between two reads (R51 leaves it open), is the
model's choice (log entry 33), and so is that a disabled NG answers too (log entry 35). -/
def Obligations.NgReadsAnswer : Prop :=
  ∀ s : State,
    (∃ a t, exec .ngFsmRead s = .next t ∧ t.ng = { s.ng with fsm := a } ∧
      t = { s with ng := t.ng, trace := s.trace ++ [.ngFsmRead a], env := t.env } ∧
      ∀ x rest, s.env.ngFsmIn = x :: rest → a = x ∧ t.env = { s.env with ngFsmIn := rest }) ∧
    ∀ i, exec (.ngKeyRead i) s = .next { s with trace := s.trace ++ [.ngKeyRead i s.ng.ck[i]] }

/-- R100, R22: NG_LEVEL_READ returns the number of words in the FIFO, within its capacity; the words that
were there stay at its head, and words the environment has queued enter, in order, exactly as far as they
fit. The queue of words is the model's (log entry 2), the law is decision D17 (log entry 3). That a disabled NG
answers, and that words enter it, is the model's choice (log entry 35). -/
def Obligations.NgLevelReadAnswers : Prop :=
  ∀ s : State, s.ng.fifo.length ≤ Config.fifoDepthWords →
    ∃ t, exec .ngLevelRead s = .next t ∧
      s.ng.fifo <+: t.ng.fifo ∧ t.ng.fifo.length ≤ Config.fifoDepthWords ∧
      t = { s with
        ng := { s.ng with fifo := t.ng.fifo }
        trace := s.trace ++ [.ngLevelRead t.ng.fifo.length]
        env := t.env } ∧
      ∀ ws rest, s.env.ngWordsIn = ws :: rest →
        t.env = { s.env with ngWordsIn := rest } ∧
        t.ng.fifo = s.ng.fifo ++ ws.take (Config.fifoDepthWords - s.ng.fifo.length)

/-- R101, R44: NG_FIFO_POP removes the head word and returns it; on an empty FIFO, which no rule gives a
meaning, the model faults. The fault is what 93 U5 asks for (log entry 24). That a pop takes the head word of a
disabled NG too is the model's choice (log entry 35). -/
def Obligations.NgFifoPopTakesHead : Prop :=
  ∀ s : State,
    (∀ w rest, s.ng.fifo = w :: rest →
      exec .ngFifoPop s =
        .next { s with
          ng := { s.ng with fifo := rest }, trace := s.trace ++ [.ngFifoPop w] }) ∧
    (s.ng.fifo = [] → exec .ngFifoPop s = .fault .emptyFifoPop)

/-- R119 to R123, R54: each sets its field, is recorded, and changes nothing else; BARRIER changes no
state of RNGBLK (job.ordered is the model's record of it, log entry 14). That each does so whatever the
module and its job are, is the model's choice (log entry 35). -/
def Obligations.AccWritesTakeEffect : Prop :=
  ∀ s : State,
    exec .accEnable s =
      .next { s with acc := { s.acc with enabled := true }, trace := s.trace ++ [.accEnable] } ∧
    exec .accDisable s =
      .next { s with acc := { s.acc with enabled := false }, trace := s.trace ++ [.accDisable] } ∧
    exec (.accSetFetch .jobChain) s =
      .next { s with
        acc := { s.acc with fetchAddr := .jobChain }
        trace := s.trace ++ [.accSetFetch .jobChain] } ∧
    exec (.accSetPush .jobOutput) s =
      .next { s with
        acc := { s.acc with pushAddr := .jobOutput }
        trace := s.trace ++ [.accSetPush .jobOutput] } ∧
    exec .accSetIndirect s =
      .next { s with acc := { s.acc with indirect := true }, trace := s.trace ++ [.accSetIndirect] } ∧
    exec .barrier s =
      .next { s with job := { s.job with ordered := true }, trace := s.trace ++ [.barrier] }

/-- R124, R55: ACC_START creates the job where the module is enabled, the three submission writes are done
and a BARRIER has followed the chain; without one of them it has no meaning and is refused by name. The
refusals follow 93 U9; how the requirements are remembered is the model's choice (log entry 14), and so is
that a job in flight already is replaced, with the flags and out_block as they stand (log entry 34), and
that out_block stands until the first status read of the new job (log entry 36). -/
def Obligations.AccStartNeedsItsRequirements : Prop :=
  ∀ s : State,
    (∀ j, s.acc.enabled = true → s.acc.fetchAddr = .jobChain → s.acc.pushAddr = .jobOutput →
      s.acc.indirect = true → s.job.chain = some j → s.job.ordered = true →
      exec .accStart s =
        .next { s with acc := { s.acc with job := some j }, trace := s.trace ++ [.accStart] }) ∧
    (s.acc.enabled = false → exec .accStart s = .refused .acceleratorDisabled) ∧
    (s.acc.enabled = true →
      (s.acc.fetchAddr ≠ .jobChain ∨ s.acc.pushAddr ≠ .jobOutput ∨ s.acc.indirect = false ∨
        s.job.chain = none) →
      exec .accStart s = .refused .jobNotSubmitted) ∧
    (∀ j, s.acc.enabled = true → s.acc.fetchAddr = .jobChain → s.acc.pushAddr = .jobOutput →
      s.acc.indirect = true → s.job.chain = some j → s.job.ordered = false →
      exec .accStart s = .refused .barrierMissing)

/-- R125, R117, R26, R27: ACC_STATUS_READ returns drawn flags, recorded and kept. While a job is in flight,
flags that read done mean that out_block is the cipher output of the job at that moment (decision D23, log
entry 4). Without a job the flags are drawn too, until an ACC_SOFTRESET has cleared them; from then on they
read as they stand, and they stand clear: AccFlagsInv says so, and every step keeps it (the record of the
ACC_SOFTRESET is the model's, log entry 32). Where an answer is queued (log entry 2) it is the one
drawn. That a disabled accelerator answers too, and that the reads of a job go on to draw, under the done
law, after an ACC_DISABLE, is the model's choice (log entry 35), and so is that the read is the moment at
which out_block changes (log entry 36). -/
def Obligations.AccStatusReadAnswers : Prop :=
  (∀ s t : State, AccFlagsInv s → step s = .next t → AccFlagsInv t) ∧
  ∀ s : State,
    (s.acc.job = none → s.acc.softresetDone = true →
      exec .accStatusRead s = .next { s with trace := s.trace ++ [.accStatusRead s.acc.status] } ∧
      (AccFlagsInv s →
        exec .accStatusRead s = .next { s with trace := s.trace ++ [.accStatusRead accStatusClear] })) ∧
    (s.acc.job = none → s.acc.softresetDone = false →
      ∃ a t, exec .accStatusRead s = .next t ∧
        t = { s with
          acc := { s.acc with status := a }
          trace := s.trace ++ [.accStatusRead a]
          env := t.env } ∧
        ∀ x rest, s.env.accStatusIn = x :: rest →
          a = x ∧ t.env = { s.env with accStatusIn := rest }) ∧
    ∀ j, s.acc.job = some j →
      ∃ a t, exec .accStatusRead s = .next t ∧
        (classify a = .done → t.job.outBlock = jobResult j) ∧
        t = { s with
          acc := { s.acc with status := a }
          job := { s.job with outBlock := t.job.outBlock }
          trace := s.trace ++ [.accStatusRead a]
          env := t.env } ∧
        ∀ x rest, s.env.accStatusIn = x :: rest → a = x ∧ t.env.accStatusIn = rest

/-- R126, R27: ACC_SOFTRESET removes the job and clears the five flags; acc_enabled and everything else
stay. That the flags are clear is decision D23; that acc_fetch_addr, acc_push_addr, acc_indirect and all of
JOB are among what stays is the model's choice (log entry 31), and so are the record softresetDone (log
entry 32) and that a disabled accelerator is reset too (log entry 35). -/
def Obligations.AccSoftresetTakesEffect : Prop :=
  ∀ s : State, exec .accSoftreset s =
    .next { s with
      acc := { s.acc with
        job := none
        status :=
          { busyFetch := false, busyPush := false, pushWaiting := false, fetchError := false,
            pushError := false }
        softresetDone := true }
      trace := s.trace ++ [.accSoftreset] }

/-- R21, R25, R51: the frame of the eighteen port operations: GeneratorState, the engines, the host port
and every byte of OUT are unchanged; an operation on NG leaves ACC and JOB alone, one on ACC leaves NG
alone; the trace grows by one event. -/
def Obligations.PortOperationsFrame : Prop :=
  ∀ (i : Instr) (s t : State), isNgOp i = true ∨ isAccOp i = true → exec i s = .next t →
    t.gen = s.gen ∧ t.dce = s.dce ∧ t.ec = s.ec ∧ t.bce = s.bce ∧ t.host = s.host ∧ t.out = s.out ∧
    (isNgOp i = true → t.acc = s.acc ∧ t.job = s.job) ∧ (isAccOp i = true → t.ng = s.ng) ∧
    ∃ e, t.trace = s.trace ++ [e]

/-! ## The Entropy Conditioner -/

/-- R83, R176: an oversized request fails at once: no port operation, EBUF, the key flag and NG untouched,
ESTATUS -1. The bound is the open parameter of D10 and the code -1 is decision D16. That a GET_ENTROPY with
no caller has its CALL and RET event (R67), also when it fails, is log entry 27. -/
def Obligations.OversizedEntropyRequestFails : Prop :=
  ∀ (s : State) (n : BitVec 32), Quiet s → Config.entropyMaxBytes < n.toNat →
    ∃ t, exec (.getEntropy n) s = .next t ∧ idle t = true ∧ t.ec.estatus = 0xFFFFFFFF ∧
      t.ec.ebuf = s.ec.ebuf ∧ t.ec.keySet = s.ec.keySet ∧ t.ng = s.ng ∧ t.gen = s.gen ∧
      t.trace = s.trace ++ [.call opGetEntropy false n, .ret opGetEntropy .fail]

/-- R82, R84, R85, R89, R90, R100: GET_ENTROPY on answers that suffice: the first four words become the
conditioning key and none of them reaches EBUF, exactly ceil(size/4) further words are drained, NG is
enabled first and disabled last, each level read returns the number of words in the FIFO, ESTATUS 0. Of CK
and the FIFO after the NG_DISABLE nothing is said but that the FIFO is within its capacity (93 U17, log
entry 16); that the words beyond ceil(size/4) stay in it at the drain is DrainPlacesBytes. The event order
is the spec's own decisions D12 to D15 (log entry 19); the CALL and RET events (R67) of an operation with no
caller are log entry 27; the queue is the model's (log entry 2). -/
def Obligations.GetEntropyDelivers : Prop :=
  ∀ (s : State) (n : BitVec 32) (ks ws : List Word), Quiet s → n.toNat ≤ Config.entropyMaxBytes →
    EntropyAnswers s.env n ks ws →
    ∃ t, exec (.getEntropy n) s = .next t ∧ idle t = true ∧ t.ec.estatus = 0 ∧
      t.ec.keySet = true ∧ t.ng.enabled = false ∧
      t.ec.ebuf = ((ws.take (needOf n)).flatMap leBytes).take n.toNat ∧
      t.ng.fifo.length ≤ Config.fifoDepthWords ∧ t.gen = s.gen ∧
      t.trace = s.trace ++
        [.call opGetEntropy false n, .ngEnable, .ngReset,
          .ngConfigure Config.ngClkdiv Config.ngOffTimer Config.ngInitWait Config.ngBlocksPerCycle,
          .ngFsmRead .ready, .ngLevelRead (s.env.ngWordsIn.headD []).length] ++
        ((ks.zip [0, 1, 2, 3]).flatMap fun p => [.ngFifoPop p.1, .ngKeySet p.2 p.1]) ++
        [.ngFsmRead .ready, .ngLevelRead ws.length] ++ (ws.take (needOf n)).map .ngFifoPop ++
        [.ngDisable, .ret opGetEntropy .ok]

/-- R86, R88: the action of one poll iteration, tested in the rule's order; `l` is the level the iteration
reads, and it is read only when the state is READY. The order of the tests is decision D13; drainCount is
NEED, or ceil_div(ESIZE, 4) itself where its 30 bits do not hold that (log entry 15). No run polls a
disabled NG; that the row has its effect there too is log entry 35. -/
def Obligations.PollIterationActions : Prop :=
  ∀ (s : State) (f : NgFsm) (fs : List NgFsm), s.ec.phase = .poll → s.bce = .idle →
    s.env.ngFsmIn = f :: fs →
    ∃ t, tick s = .next t ∧ t.ec.obsFsm = f ∧ t.ec.keySet = s.ec.keySet ∧ t.ec.ebuf = s.ec.ebuf ∧
      (f = .error → t.ec.phase = .init ∧ t.trace = s.trace ++ [.ngFsmRead f]) ∧
      (f = .reset ∨ f = .startup → t.ec.phase = .poll ∧ t.trace = s.trace ++ [.ngFsmRead f]) ∧
      (f = .ready → ∃ l, t.trace = s.trace ++ [.ngFsmRead f, .ngLevelRead l] ∧
        t.ec.obsLevel = l ∧ t.ng.fifo.length = l ∧
        t.ec.phase =
          if l < 4 then .poll
          else if s.ec.keySet = false then .keyload
          else if l < drainCount s.ec.need s.ec.esize then .poll else .drain)

/-- R87, R85: on ERROR NG is initialized again and polled again: the key flag is cleared, the FIFO is
empty, NG stays enabled, EBUF is untouched, no status is reported. That the FIFO is empty is decision D17,
what NG_INIT does is D12. No run does so with NG disabled; that the rows have their effect there too is log
entry 35. -/
def Obligations.ErrorIsRecovered : Prop :=
  ∀ (s : State) (fs : List NgFsm), s.ec.phase = .poll → s.bce = .idle →
    s.env.ngFsmIn = .error :: fs →
    ∃ t, andThen (tick s) tick = .next t ∧ t.ec.phase = .poll ∧ t.ec.keySet = false ∧
      t.ng.fifo = [] ∧ t.ng.fsm = .reset ∧ t.ng.enabled = s.ng.enabled ∧ t.ec.ebuf = s.ec.ebuf ∧
      t.ec.estatus = s.ec.estatus ∧
      t.trace = s.trace ++ [.ngFsmRead .error, .ngReset,
        .ngConfigure Config.ngClkdiv Config.ngOffTimer Config.ngInitWait Config.ngBlocksPerCycle]

/-- R89: the key load pops four words, writes word i to CK[i] directly after its pop, sets the flag and
polls again; EBUF is untouched. The order of words and events is decision D14. No run does so with NG
disabled; that the row has its effect there too is log entry 35. -/
def Obligations.KeyLoadTakesFourWords : Prop :=
  ∀ (s : State) (w0 w1 w2 w3 : Word) (rest : List Word), s.ec.phase = .keyload → s.bce = .idle →
    s.ng.fifo = w0 :: w1 :: w2 :: w3 :: rest →
    ∃ t, tick s = .next t ∧ t.ng.ck.toList = [w0, w1, w2, w3] ∧ t.ng.fifo = rest ∧
      t.ec = { s.ec with keySet := true, phase := .poll } ∧
      t.trace = s.trace ++ [.ngFifoPop w0, .ngKeySet 0 w0, .ngFifoPop w1, .ngKeySet 1 w1,
        .ngFifoPop w2, .ngKeySet 2 w2, .ngFifoPop w3, .ngKeySet 3 w3]

/-- R48, R90: the k-th word drained supplies EBUF[4k + j] for j = 0..3, least significant byte first, limited to
offsets below ESIZE; exactly NEED words leave the FIFO and the rest stay (drainCount is NEED, or
ceil_div(ESIZE, 4) itself where its 30 bits do not hold that, log entry 15). A conditioning-key word is
moved as a whole. No run does so with NG disabled; that the rows have their effect there too is log entry
35. -/
def Obligations.DrainPlacesBytes : Prop :=
  (∀ s : State, s.ec.phase = .drain → s.bce = .idle →
    drainCount s.ec.need s.ec.esize ≤ s.ng.fifo.length →
    ∃ t, tick s = .next t ∧ t.ng.fifo = s.ng.fifo.drop (drainCount s.ec.need s.ec.esize) ∧
      t.ec.ebuf.length = min (4 * drainCount s.ec.need s.ec.esize) s.ec.esize.toNat ∧
      ∀ k j, k < drainCount s.ec.need s.ec.esize → j < 4 → 4 * k + j < s.ec.esize.toNat →
        ∃ w, s.ng.fifo[k]? = some w ∧ t.ec.ebuf[4 * k + j]? = some (w.extractLsb' (8 * j) 8)) ∧
  ∀ (s : State) (i : Fin 4) (w : Word) (rest : List Word), s.ng.fifo = w :: rest →
    ∃ t, loadKeyWord i s = .next t ∧ t.ng.ck[i] = w ∧ t.ng.fifo = rest

/-- R45, R180, R82: the frame of GET_ENTROPY issued by itself, whether it has ended or still waits:
GeneratorState, DCE, the Block Cipher Engine, ACC, JOB, the host port and every byte of OUT are
unchanged. -/
def Obligations.GetEntropyFrame : Prop :=
  ∀ (s t : State) (n : BitVec 32), exec (.getEntropy n) s = .next t →
    t.gen = s.gen ∧ t.dce = s.dce ∧ t.bce = s.bce ∧ t.acc = s.acc ∧ t.job = s.job ∧
    t.host = s.host ∧ t.out = s.out

/-! ## The Block Cipher Engine -/

/-- R111, R113 to R117: AES_ECB_ENCRYPT with each legal key size on status reads that end done: BLK is the
cipher output for the first key_size bytes of KEY and the block V (which operands an operation issued by
itself takes is the model's choice, log entry 13), the port operations are the string of R116 between the
CALL and the RET event of R67 (that an operation with no caller has them too is log entry 27), no job
remains and the module is disabled. The submission order is decision D22, the accelerator's correctness
D23 (log entry 4), the cipher itself log entry 5. -/
def Obligations.AesEncryptsOneBlock : Prop :=
  ∀ (s : State) (ks : BitVec 32) (as rest : List AccStatus), Quiet s →
    ks = 16 ∨ ks = 24 ∨ ks = 32 → JobDone as → s.env.accStatusIn = as ++ rest →
    ∃ t, exec (.aesEcbEncrypt ks) s = .next t ∧ idle t = true ∧
      t.dce.blk = aes ((bytesOf 32 s.gen.key).take ks.toNat) s.gen.v ∧
      t.trace = s.trace ++ aesTrace ks as .ok ∧ t.acc.enabled = false ∧ t.acc.job = none ∧
      t.gen = s.gen ∧ t.env.accStatusIn = rest

/-- R115, R116, R118: on an error flag the same release follows, the status in the RET event of R67 is -1,
nothing is retried. That a failing operation with no caller has its CALL and RET event is log entry 27;
that an error flag outranks a busy flag is decision D22. -/
def Obligations.AesFailsOnErrorFlag : Prop :=
  ∀ (s : State) (ks : BitVec 32) (as rest : List AccStatus), Quiet s →
    ks = 16 ∨ ks = 24 ∨ ks = 32 → JobError as → s.env.accStatusIn = as ++ rest →
    ∃ t, exec (.aesEcbEncrypt ks) s = .next t ∧ idle t = true ∧
      t.trace = s.trace ++ aesTrace ks as .fail ∧ t.acc.enabled = false ∧ t.acc.job = none ∧
      t.gen = s.gen ∧ t.env.accStatusIn = rest

/-- R110, R111: the frame of AES_ECB_ENCRYPT issued by itself: GeneratorState, EC, NG, the host port and
every byte of OUT are unchanged, and of DCE only BLK may change. -/
def Obligations.AesFrame : Prop :=
  ∀ (s t : State) (ks : BitVec 32), exec (.aesEcbEncrypt ks) s = .next t →
    t.gen = s.gen ∧ t.ec = s.ec ∧ t.ng = s.ng ∧ t.host = s.host ∧ t.out = s.out ∧
    t.dce = { s.dce with blk := t.dce.blk }

/-! ## UPDATE and RESEED -/

/-- R131, R47: the counter increment on the bytes of V, byte 0 most significant. -/
def Obligations.CounterIncrementIsBigEndian : Prop :=
  ∀ v : Block, beValue (bytesOf 16 (inc128 v)) = (beValue (bytesOf 16 v) + 1) % 2 ^ 128

/-- R132: UPDATE with and without its operand: the cipher output of V+1, V+2, V+3 under the old KEY,
exclusive or SEED where it is given, is the new KEY and V; RESEED_CTR and INITIALIZED stay. -/
def Obligations.UpdateReplacesKeyAndV : Prop :=
  ∀ (s : State) (x : Bool) (as rest : List AccStatus), Quiet s → JobsDone 3 as →
    s.env.accStatusIn = as ++ rest →
    ∃ t, exec (.update x) s = .next t ∧ idle t = true ∧
      t.gen = updated s.gen (if x then s.dce.seed else 0) ∧ t.env.accStatusIn = rest ∧
      callCount opAes t = callCount opAes s + 3

/-- R132, R133: UPDATE is atomic: when a cipher call of it fails, the calls after it are not made and
GeneratorState holds exactly what it held; the commit writes KEY and V in one row. The closing RET events
(R67) of a failing UPDATE with no caller are log entry 27. -/
def Obligations.UpdateFailureChangesNothing : Prop :=
  (∀ (s : State) (x : Bool) (k : Nat) (as er rest : List AccStatus), Quiet s → k < 3 →
    JobsDone k as → JobError er → s.env.accStatusIn = as ++ er ++ rest →
    ∃ t, exec (.update x) s = .next t ∧ idle t = true ∧ t.gen = s.gen ∧
      t.acc.enabled = false ∧ t.env.accStatusIn = rest ∧
      callCount opAes t = callCount opAes s + (k + 1) ∧
      ∃ tr, t.trace = tr ++ [.ret opAes .fail, .ret opUpdate .fail]) ∧
  ∀ s : State, s.bce = .idle → s.ec.phase = .idle → s.dce.phase = .commit →
    ∃ t, tick s = .next t ∧
      t.gen.key = keyPart (updateValue (tempBytes s.dce.temp) s.dce.seed s.dce.hasExtra) ∧
      t.gen.v = vPart (updateValue (tempBytes s.dce.temp) s.dce.seed s.dce.hasExtra)

/-- R134: the exclusive or, byte by byte: bytes 0 to 31 land on KEY, bytes 32 to 47 on V. -/
def Obligations.ExclusiveOrByBytes : Prop :=
  ∀ (temp extra : Seed48),
    (∀ i, i < 48 →
      (bytesOf 48 (updateValue temp extra true))[i]? =
        some ((bytesOf 48 temp).getD i 0 ^^^ (bytesOf 48 extra).getD i 0)) ∧
    bytesOf 32 (keyPart temp) = (bytesOf 48 temp).take 32 ∧
    bytesOf 16 (vPart temp) = (bytesOf 48 temp).drop 32

/-- R132, R180: the frame of UPDATE issued by itself, whether it has ended or still waits: RESEED_CTR,
INITIALIZED, NG, all of EC but EBUF and ESTATUS, the host port and every byte of OUT are unchanged. EBUF and
ESTATUS hold no value once DCE is back in D_IDLE (log entry 8), so nothing is said of them. -/
def Obligations.UpdateFrame : Prop :=
  ∀ (s t : State) (x : Bool), Quiet s → exec (.update x) s = .next t →
    t.gen.reseedCtr = s.gen.reseedCtr ∧ t.gen.initialized = s.gen.initialized ∧ t.ng = s.ng ∧
    t.ec = { s.ec with ebuf := t.ec.ebuf, estatus := t.ec.estatus } ∧
    t.host = s.host ∧ t.out = s.out

/-- R135: RESEED: 48 bytes of entropy, UPDATE with them, RESEED_CTR 1; INITIALIZED is not written; one
GET_ENTROPY call and three cipher calls. -/
def Obligations.ReseedMixesFreshEntropy : Prop :=
  ∀ (s : State) (ks ws : List Word) (as rest : List AccStatus), Quiet s →
    EntropyAnswers s.env 48 ks ws → JobsDone 3 as → s.env.accStatusIn = as ++ rest →
    ∃ t, exec .reseed s = .next t ∧ idle t = true ∧ t.gen = reseeded s.gen (seedOf ws) ∧
      t.env.accStatusIn = rest ∧ callCount opGetEntropy t = callCount opGetEntropy s + 1 ∧
      callCount opAes t = callCount opAes s + 3

/-- R135, R175, R180: a RESEED whose UPDATE fails leaves GeneratorState and STATUS as they were; the
entropy is consumed. The closing RET events (R67) of a failing RESEED with no caller are log entry 27;
that it writes no STATUS is log entry 10. -/
def Obligations.ReseedFailureKeepsGenerator : Prop :=
  ∀ (s : State) (ks ws : List Word) (k : Nat) (as er rest : List AccStatus), Quiet s →
    EntropyAnswers s.env 48 ks ws → k < 3 → JobsDone k as → JobError er →
    s.env.accStatusIn = as ++ er ++ rest →
    ∃ t, exec .reseed s = .next t ∧ idle t = true ∧ t.gen = s.gen ∧ t.host.status = s.host.status ∧
      callCount opGetEntropy t = callCount opGetEntropy s + 1 ∧
      ∃ tr, t.trace = tr ++ [.ret opAes .fail, .ret opUpdate .fail, .ret opReseed .fail]

/-- R135, R130: the frame of RESEED issued by itself: INITIALIZED, the host port and every byte of OUT are
unchanged. -/
def Obligations.ReseedFrame : Prop :=
  ∀ (s t : State), Quiet s → exec .reseed s = .next t →
    t.gen.initialized = s.gen.initialized ∧ t.host = s.host ∧ t.out = s.out

/-! ## INIT -/

/-- R136: INIT zeroes GeneratorState, reseeds, and sets INITIALIZED, whatever the generator held. That
INITIALIZED is zeroed too is decision D20. -/
def Obligations.InitSeedsFromZero : Prop :=
  ∀ (s : State) (ks ws : List Word) (as rest : List AccStatus), Quiet s →
    EntropyAnswers s.env 48 ks ws → JobsDone 3 as → s.env.accStatusIn = as ++ rest →
    ∃ t, exec .init s = .next t ∧ idle t = true ∧
      t.gen = { reseeded zeroedGen (seedOf ws) with initialized := true } ∧ t.host.status = 0 ∧
      t.env.accStatusIn = rest ∧ callCount opGetEntropy t = callCount opGetEntropy s + 1 ∧
      callCount opAes t = callCount opAes s + 3

/-- R136, R140, R175, R180: an INIT whose seeding fails leaves a zero, uninitialized generator, every byte
of OUT as it was, both modules off, and STATUS -1; a GET_RANDOM on an uninitialized generator, whose
implicit INIT fails so, ends the same way. That INITIALIZED is zeroed too is decision D20. -/
def Obligations.InitFailureLeavesZero : Prop :=
  ∀ (s : State) (ks ws : List Word) (k : Nat) (as er rest : List AccStatus), Quiet s →
    EntropyAnswers s.env 48 ks ws → k < 3 → JobsDone k as → JobError er →
    s.env.accStatusIn = as ++ er ++ rest →
    (∃ t, exec .init s = .next t ∧ idle t = true ∧ t.gen = zeroedGen ∧
      t.host.status = 0xFFFFFFFF ∧ t.out = s.out ∧ ModulesOff t) ∧
    ∀ size : BitVec 32, s.gen.initialized = false → 0 < size.toNat → size.toNat ≤ 65536 →
      ∃ t, exec (.getRandom true size) s = .next t ∧ idle t = true ∧ t.gen = zeroedGen ∧
        t.host.status = 0xFFFFFFFF ∧ t.out = s.out ∧ ModulesOff t

/-- R136, R28: the frame of INIT, whether it has ended or still waits: CMD, what waits at the host port and
every byte of OUT are unchanged; while it still waits STATUS keeps the last command's status. -/
def Obligations.InitFrame : Prop :=
  ∀ (s t : State), Quiet s → exec .init s = .next t →
    t.host.cmd = s.host.cmd ∧ t.host.issue = s.host.issue ∧ t.out = s.out ∧
    (idle t = false → t.host.status = s.host.status)

/-! ## GET_RANDOM -/

/-- R138: both violations give STATUS -2 and change no register of GeneratorState, no byte of OUT and
nothing of the port trace, NG, ACC, JOB or the key flag; the boundary 65536 is no violation. -/
def Obligations.InvalidRequestTouchesNothing : Prop :=
  (∀ (s : State) (dstv : Bool) (size : BitVec 32), Quiet s →
    (0 < size.toNat ∧ dstv = false) ∨ 65536 < size.toNat →
    ∃ t, exec (.getRandom dstv size) s = .next t ∧ idle t = true ∧ t.host.status = 0xFFFFFFFE ∧
      t.gen = s.gen ∧ t.out = s.out ∧ t.trace = s.trace ∧ t.ng = s.ng ∧ t.acc = s.acc ∧
      t.job = s.job ∧ t.ec.keySet = s.ec.keySet) ∧
  invalidRequest true 65536 = false ∧ invalidRequest true 65537 = true

/-- R139: a request of size 0, with either destination, succeeds with no effect. For the non-null
destination that is the spec's own decision D19 (log entry 21). -/
def Obligations.ZeroSizeRequestSucceeds : Prop :=
  ∀ (s : State) (dstv : Bool), Quiet s →
    ∃ t, exec (.getRandom dstv 0) s = .next t ∧ idle t = true ∧ t.host.status = 0 ∧
      t.gen = s.gen ∧ t.out = s.out ∧ t.trace = s.trace ∧ t.ng = s.ng ∧ t.acc = s.acc ∧
      t.job = s.job ∧ t.ec.keySet = s.ec.keySet

/-- R137, R142, R143, R149: a request on an initialized generator that need not reseed: byte i of OUT is
byte i mod 16 of the cipher block of V + i/16 + 1 under the old KEY, every other offset is as before,
then UPDATE and RESEED_CTR + 1; ceil(size / 16) + 3 cipher calls and no GET_ENTROPY call. -/
def Obligations.GetRandomDelivers : Prop :=
  ∀ (s : State) (size : BitVec 32) (as rest : List AccStatus), Quiet s →
    s.gen.initialized = true → s.gen.reseedCtr.toNat + 1 < 2 ^ 48 → 0 < size.toNat →
    size.toNat ≤ 65536 → JobsDone (blocks size + 3) as → s.env.accStatusIn = as ++ rest →
    ∃ t, exec (.getRandom true size) s = .next t ∧ idle t = true ∧ t.host.status = 0 ∧
      t.gen = generated s.gen (blocks size) ∧
      (∀ i, i < size.toNat →
        Memory.read t.out i = some (streamByte s.gen.key s.gen.v i)) ∧
      (∀ i, size.toNat ≤ i → Memory.read t.out i = Memory.read s.out i) ∧
      t.env.accStatusIn = rest ∧ t.ng = s.ng ∧
      callCount opAes t = callCount opAes s + (blocks size + 3) ∧
      callCount opGetEntropy t = callCount opGetEntropy s

/-- R144, R175: the cipher call of output block j fails: STATUS -1, offsets below 16j written and the rest
untouched, KEY and RESEED_CTR unchanged. Where the request has seeded first, by its implicit INIT (R140) or
its threshold RESEED (R141; the threshold is decision D18, log entry 18), the same holds of the
GeneratorState that seeding left. V is V + j + 1: the spec's own decision D21 (93 U3, log entry 17). -/
def Obligations.OutputBlockFailure : Prop :=
  (∀ (s : State) (size : BitVec 32) (j : Nat) (as er rest : List AccStatus), Quiet s →
    s.gen.initialized = true → s.gen.reseedCtr.toNat + 1 < 2 ^ 48 → size.toNat ≤ 65536 →
    j < blocks size → JobsDone j as → JobError er → s.env.accStatusIn = as ++ er ++ rest →
    ∃ t, exec (.getRandom true size) s = .next t ∧ idle t = true ∧ t.host.status = 0xFFFFFFFF ∧
      t.gen = { s.gen with v := s.gen.v + BitVec.ofNat 128 (j + 1) } ∧
      (∀ i, i < 16 * j → Memory.read t.out i = some (streamByte s.gen.key s.gen.v i)) ∧
      (∀ i, 16 * j ≤ i → Memory.read t.out i = Memory.read s.out i) ∧
      t.acc.enabled = false ∧ t.acc.job = none) ∧
  ∀ (s : State) (size : BitVec 32) (j : Nat) (ks ws : List Word) (as er rest : List AccStatus)
    (g : GeneratorState), Quiet s → SeedsFirst s.gen → g = seededFirst s.gen (seedOf ws) →
    size.toNat ≤ 65536 → j < blocks size → EntropyAnswers s.env 48 ks ws → JobsDone (3 + j) as →
    JobError er → s.env.accStatusIn = as ++ er ++ rest →
    ∃ t, exec (.getRandom true size) s = .next t ∧ idle t = true ∧ t.host.status = 0xFFFFFFFF ∧
      t.gen = { g with v := g.v + BitVec.ofNat 128 (j + 1) } ∧
      (∀ i, i < 16 * j → Memory.read t.out i = some (streamByte g.key g.v i)) ∧
      (∀ i, 16 * j ≤ i → Memory.read t.out i = Memory.read s.out i) ∧ ModulesOff t ∧ t.acc.job = none

/-- R144: the trailing UPDATE fails: all bytes are written, KEY and RESEED_CTR are unchanged and V is V +
nblk; STATUS -1. Where the request has seeded first, by its implicit INIT (R140) or its threshold RESEED
(R141; the threshold is decision D18, log entry 18), the same holds of the GeneratorState that seeding left.
The value of V is decision D21 (log entry 17). -/
def Obligations.TrailingUpdateFailure : Prop :=
  (∀ (s : State) (size : BitVec 32) (k : Nat) (as er rest : List AccStatus), Quiet s →
    s.gen.initialized = true → s.gen.reseedCtr.toNat + 1 < 2 ^ 48 → 0 < size.toNat →
    size.toNat ≤ 65536 → k < 3 → JobsDone (blocks size + k) as → JobError er →
    s.env.accStatusIn = as ++ er ++ rest →
    ∃ t, exec (.getRandom true size) s = .next t ∧ idle t = true ∧ t.host.status = 0xFFFFFFFF ∧
      t.gen = { s.gen with v := s.gen.v + BitVec.ofNat 128 (blocks size) } ∧
      (∀ i, i < size.toNat → Memory.read t.out i = some (streamByte s.gen.key s.gen.v i)) ∧
      (∀ i, size.toNat ≤ i → Memory.read t.out i = Memory.read s.out i)) ∧
  ∀ (s : State) (size : BitVec 32) (k : Nat) (ks ws : List Word) (as er rest : List AccStatus)
    (g : GeneratorState), Quiet s → SeedsFirst s.gen → g = seededFirst s.gen (seedOf ws) →
    0 < size.toNat → size.toNat ≤ 65536 → k < 3 → EntropyAnswers s.env 48 ks ws →
    JobsDone (3 + blocks size + k) as → JobError er → s.env.accStatusIn = as ++ er ++ rest →
    ∃ t, exec (.getRandom true size) s = .next t ∧ idle t = true ∧ t.host.status = 0xFFFFFFFF ∧
      t.gen = { g with v := g.v + BitVec.ofNat 128 (blocks size) } ∧
      (∀ i, i < size.toNat → Memory.read t.out i = some (streamByte g.key g.v i)) ∧
      (∀ i, size.toNat ≤ i → Memory.read t.out i = Memory.read s.out i) ∧ ModulesOff t

/-- R141, R146, R149: a request whose RESEED_CTR + 1 has reached 2^48, on unbounded integers, reseeds once
before its first block; RESEED_CTR reads 2 afterwards. If that RESEED fails, the request ends with STATUS
-1, GeneratorState as it was, nothing written to OUT and both modules off. The threshold is decision D18 (90
C1, log entry 18). -/
def Obligations.ThresholdRequestReseedsFirst : Prop :=
  ∀ (s : State) (size : BitVec 32) (ks ws : List Word), Quiet s →
    s.gen.initialized = true → 2 ^ 48 ≤ s.gen.reseedCtr.toNat + 1 → 0 < size.toNat →
    size.toNat ≤ 65536 → EntropyAnswers s.env 48 ks ws →
    (∀ as rest : List AccStatus, JobsDone (blocks size + 6) as → s.env.accStatusIn = as ++ rest →
      ∃ t, exec (.getRandom true size) s = .next t ∧ idle t = true ∧ t.host.status = 0 ∧
        t.gen = generated (reseeded s.gen (seedOf ws)) (blocks size) ∧ t.gen.reseedCtr = 2 ∧
        (∀ i, i < size.toNat → Memory.read t.out i =
          some (streamByte (reseeded s.gen (seedOf ws)).key (reseeded s.gen (seedOf ws)).v i)) ∧
        callCount opGetEntropy t = callCount opGetEntropy s + 1 ∧
        callCount opAes t = callCount opAes s + (blocks size + 6)) ∧
    ∀ (k : Nat) (as er rest : List AccStatus), k < 3 → JobsDone k as → JobError er →
      s.env.accStatusIn = as ++ er ++ rest →
      ∃ t, exec (.getRandom true size) s = .next t ∧ idle t = true ∧ t.host.status = 0xFFFFFFFF ∧
        t.gen = s.gen ∧ t.out = s.out ∧ ModulesOff t

/-- R140: with the same answers of the environment, GET_RANDOM on an uninitialized generator and INIT
followed by GET_RANDOM end in the same GeneratorState, the same OUT, the same port trace and the same
STATUS. -/
def Obligations.LazyInitEqualsExplicitInit : Prop :=
  ∀ (s s1 s2 : State) (size : BitVec 32), Quiet s → s.gen.initialized = false → 0 < size.toNat →
    size.toNat ≤ 65536 → exec .init s = .next s1 → idle s1 = true → s1.gen.initialized = true →
    exec (.getRandom true size) s1 = .next s2 → idle s2 = true →
    ∃ t, exec (.getRandom true size) s = .next t ∧ idle t = true ∧ t.gen = s2.gen ∧ t.out = s2.out ∧
      t.trace = s2.trace ∧ t.host.status = s2.host.status

/-- R41, R142, R28: the frame of GET_RANDOM in every form, whether it has ended or still waits: offsets of
OUT from SIZE on, CMD and what waits at the host port are unchanged; while it still waits STATUS keeps the
last command's status; on an initialized generator that need not reseed, NG and the key flag of EC are
unchanged too. -/
def Obligations.GetRandomFrame : Prop :=
  ∀ (s t : State) (dstv : Bool) (size : BitVec 32), Quiet s →
    exec (.getRandom dstv size) s = .next t →
    (∀ i, size.toNat ≤ i → Memory.read t.out i = Memory.read s.out i) ∧
    t.host.cmd = s.host.cmd ∧ t.host.issue = s.host.issue ∧
    (idle t = false → t.host.status = s.host.status) ∧
    (s.gen.initialized = true → s.gen.reseedCtr.toNat + 1 < 2 ^ 48 →
      t.ng = s.ng ∧ t.ec.keySet = s.ec.keySet ∧ t.gen.initialized = true)

/-! ## Whole-machine rules -/

/-- R41: OUT keeps its canonical form, in every state and through every operation. The form is the model's
(log entry 7). -/
def Obligations.OutFormKept : Prop :=
  ∀ s t : State, OutInv s → step s = .next t → OutInv t

/-- R15 item 2, R16, R146: an initialized generator keeps a counter from 1 to 2^48 - 1, and the return
context stays one of those R147 gives (at most three deep), through every operation. The range is derived
by the spec from the threshold of D18. -/
def Obligations.CounterRangeKept : Prop :=
  ∀ s t : State, CounterInv s → step s = .next t → CounterInv t ∧ t.dce.ctx.length ≤ 3

/-- R15, R16, R22, R142, R188: all invariants of a machine the host drives are kept by every step;
whenever it is idle, both modules are disabled. That the FIFO covers what is popped is the law R22 assumes
(D17, log entry 3). -/
def Obligations.SoundStateKept : Prop :=
  ∀ s t : State, SoundState s → step s = .next t →
    SoundState t ∧ (idle t = true → ModulesOff t)

/-- R42, R44, R66, R170, R181: a machine the host drives never stops: no pop finds the FIFO empty, no byte
goes outside OUT, and every word the host writes has an outcome. It rests on the law R22 assumes (D17, log
entry 3). -/
def Obligations.HostDrivenMachineNeverStops : Prop :=
  ∀ s : State, SoundState s → ∃ t, step s = .next t

/-- R84, R116, S7: in a machine the host drives, enable and disable events stay balanced. -/
def Obligations.EnableEventsBalanced : Prop :=
  ∀ s t : State, SoundState s → AccBalanced s → NgBalanced s → step s = .next t →
    AccBalanced t ∧ NgBalanced t

/-- The model's own granularity (log entry 1): a started operation goes on until it has ended or waits for
an answer of the environment that is not queued; it never stops for want of rows. -/
def Obligations.RunEndsOrWaits : Prop :=
  ∀ s t : State, run s = .next t → canAdvance t = false

/-- R29: the port trace only grows: no step removes or changes an event. -/
def Obligations.TraceOnlyGrows : Prop :=
  ∀ s t : State, step s = .next t → s.trace <+: t.trace

/-- R10 to R14: the rows that write GeneratorState: KEY changes only in D_ZERO and D_COMMIT, V there and in
D_OUT, RESEED_CTR and INITIALIZED only in D_ZERO and D_COMMIT, and no row of EC or of a status read
writes any of them. The row the model spends in D_FINAL (log entry 37) is among those that write none. -/
def Obligations.GeneratorStateWriters : Prop :=
  ∀ s t : State, tick s = .next t →
    (s.bce = .poll ∨ s.ec.phase ≠ .idle → t.gen = s.gen) ∧
    (s.dce.phase ≠ .zero → s.dce.phase ≠ .commit →
      t.gen.key = s.gen.key ∧ t.gen.reseedCtr = s.gen.reseedCtr ∧
      t.gen.initialized = s.gen.initialized ∧
      ((∀ j, s.dce.phase ≠ .out j) → t.gen.v = s.gen.v))

/-- R65, R28: STATUS only ever takes the three encodings, through every operation. The encodings are
decision D5; a STATUS that holds another word is the premise's to exclude. -/
def Obligations.StatusValues : Prop :=
  ∀ s t : State, step s = .next t →
    s.host.status = 0 ∨ s.host.status = 0xFFFFFFFF ∨ s.host.status = 0xFFFFFFFE →
    t.host.status = 0 ∨ t.host.status = 0xFFFFFFFF ∨ t.host.status = 0xFFFFFFFE

/-- R150, R183: KEY, V and the byte strings computed from them reach nothing but each other and the bytes
of OUT: two machines that agree on the rest take the same outcome and agree on the rest afterwards, the
whole port trace and STATUS among it. -/
def Obligations.SecretsStayInside : Prop :=
  ∀ s1 s2 t1 : State, publicPart s1 = publicPart s2 → step s1 = .next t1 →
    ∃ t2, step s2 = .next t2 ∧ publicPart t1 = publicPart t2
end

