-- ==== Sys2Proof/Laws/Memory.lean ====
section
/-! SUPPORT. The laws of OUT: every write keeps the canonical form; a read after a write. -/

namespace Sys2Proof.Machine

@[simp] theorem Memory.read_nil (a : Nat) : Memory.read [] a = none := rfl

/-- The canonical form of a list, read off its head. -/
theorem Memory.wf_cons (a : Nat) (b : Byte) (rest : List Host.Cell) :
    Memory.wf ((a, b) :: rest) = true ↔
      a < outSize ∧ (∀ c ∈ rest, a < c.1) ∧ Memory.wf rest = true := by
  induction rest generalizing a b with
  | nil => simp [Memory.wf]
  | cons c rest ih =>
    obtain ⟨c, d⟩ := c
    have ih' := ih c d
    constructor
    · intro h
      simp only [Memory.wf, Bool.and_eq_true, decide_eq_true_eq] at h
      obtain ⟨hac, hrest⟩ := h
      obtain ⟨hc, hall, _⟩ := ih'.1 hrest
      refine ⟨by omega, ?_, hrest⟩
      intro x hx
      rcases List.mem_cons.1 hx with rfl | hx
      · exact hac
      · have := hall x hx; omega
    · rintro ⟨_, hall, hrest⟩
      simp only [Memory.wf, Bool.and_eq_true, decide_eq_true_eq]
      exact ⟨hall (c, d) List.mem_cons_self, hrest⟩

/-- A cell of the list after a write is the written one or an old one. -/
theorem Memory.mem_write {m : List Host.Cell} {a : Nat} {b : Byte} {x : Host.Cell}
    (h : x ∈ Memory.write m a b) : x = (a, b) ∨ x ∈ m := by
  induction m with
  | nil => simpa [Memory.write] using h
  | cons c rest ih =>
    obtain ⟨c, d⟩ := c
    unfold Memory.write at h
    split at h
    · simpa using h
    · split at h
      · rcases List.mem_cons.1 h with h | h
        · exact .inl h
        · exact .inr (List.mem_cons_of_mem _ h)
      · rcases List.mem_cons.1 h with h | h
        · exact .inr (by simp [h])
        · rcases ih h with h | h
          · exact .inl h
          · exact .inr (List.mem_cons_of_mem _ h)

/-- A write below the end of OUT keeps the canonical form. -/
theorem Memory.wf_write {m : List Host.Cell} {a : Nat} {b : Byte} (ha : a < outSize)
    (hm : Memory.wf m = true) : Memory.wf (Memory.write m a b) = true := by
  induction m with
  | nil => simpa [Memory.write, Memory.wf] using ha
  | cons c rest ih =>
    obtain ⟨c, d⟩ := c
    obtain ⟨hc, hall, hrest⟩ := (Memory.wf_cons c d rest).1 hm
    unfold Memory.write
    split
    · next hac =>
      refine (Memory.wf_cons _ _ _).2 ⟨ha, ?_, hm⟩
      intro x hx
      rcases List.mem_cons.1 hx with rfl | hx
      · exact hac
      · have := hall x hx; omega
    · split
      · next hac =>
        subst hac
        exact (Memory.wf_cons _ _ _).2 ⟨ha, hall, hrest⟩
      · next h1 h2 =>
        refine (Memory.wf_cons _ _ _).2 ⟨hc, ?_, ih hrest⟩
        intro x hx
        rcases Memory.mem_write hx with rfl | hx
        · simp only; omega
        · exact hall x hx

/-- Reading back the byte just written. -/
theorem Memory.read_write_same (m : List Host.Cell) (a : Nat) (b : Byte) :
    Memory.read (Memory.write m a b) a = some b := by
  induction m with
  | nil => simp [Memory.write, Memory.read]
  | cons c rest ih =>
    obtain ⟨c, d⟩ := c
    unfold Memory.write
    split
    · simp [Memory.read]
    · split
      · simp [Memory.read]
      · next h1 h2 => simp [Memory.read, h2, ih]

/-- A write leaves every other offset alone. -/
theorem Memory.read_write_other (m : List Host.Cell) {a x : Nat} (b : Byte) (h : x ≠ a) :
    Memory.read (Memory.write m a b) x = Memory.read m x := by
  induction m with
  | nil => simp [Memory.write, Memory.read, h]
  | cons c rest ih =>
    obtain ⟨c, d⟩ := c
    unfold Memory.write
    split
    · rw [Memory.read]; simp [h]
    · split
      · next h1 h2 => subst h2; simp [Memory.read, h]
      · simp only [Memory.read, ih]

/-- Consecutive writes inside OUT keep the canonical form. -/
theorem Memory.wf_writeBytes {m : List Host.Cell} {off : Nat} {bs : List Byte}
    (hend : off + bs.length ≤ outSize) (hm : Memory.wf m = true) :
    Memory.wf (Memory.writeBytes m off bs) = true := by
  induction bs generalizing m off with
  | nil => simpa [Memory.writeBytes] using hm
  | cons b bs ih =>
    simp only [List.length_cons] at hend
    exact ih (by omega) (Memory.wf_write (by omega) hm)

/-- What an offset reads as after consecutive writes. -/
theorem Memory.read_writeBytes (m : List Host.Cell) (off : Nat) (bs : List Byte) (x : Nat) :
    Memory.read (Memory.writeBytes m off bs) x =
      if off ≤ x ∧ x < off + bs.length then bs[x - off]? else Memory.read m x := by
  induction bs generalizing m off with
  | nil => simp only [Memory.writeBytes, List.length_nil]; split <;> first | omega | rfl
  | cons b bs ih =>
    simp only [Memory.writeBytes, ih, List.length_cons]
    by_cases hx : x = off
    · subst hx
      simp [Memory.read_write_same]
    · rw [Memory.read_write_other _ _ hx]
      by_cases hin : off + 1 ≤ x ∧ x < off + 1 + bs.length
      · have h2 : off ≤ x ∧ x < off + (bs.length + 1) := ⟨by omega, by omega⟩
        have h3 : x - off = (x - (off + 1)) + 1 := by omega
        simp [hin, h2, h3]
      · have h2 : ¬ (off ≤ x ∧ x < off + (bs.length + 1)) := by omega
        rw [if_neg hin, if_neg h2]

/-- OutWrite answers a next state exactly where its offsets exist. -/
theorem outWrite_next {off : Nat} {bs : List Byte} {s t : State}
    (h : outWrite off bs s = .next t) :
    off + bs.length ≤ outSize ∧ t = { s with out := Memory.writeBytes s.out off bs } := by
  unfold outWrite at h
  split at h
  · exact ⟨‹_›, by cases h; rfl⟩
  · cases h

/-- Inside OUT, OutWrite never stops. -/
theorem outWrite_inside {off : Nat} {bs : List Byte} (s : State)
    (h : off + bs.length ≤ outSize) :
    outWrite off bs s = .next { s with out := Memory.writeBytes s.out off bs } := by
  simp [outWrite, h]

end Sys2Proof.Machine
end

