-- ==== Sys2Proof/Laws/State.lean ====
section
/-! SUPPORT. One lemma per field of State and named operation: what the operation leaves there. -/

namespace Sys2Proof.Machine

section
variable (e : Event) (s : State)
@[simp] theorem emit_gen : (emit e s).gen = s.gen := rfl
@[simp] theorem emit_dce : (emit e s).dce = s.dce := rfl
@[simp] theorem emit_ec : (emit e s).ec = s.ec := rfl
@[simp] theorem emit_bce : (emit e s).bce = s.bce := rfl
@[simp] theorem emit_ng : (emit e s).ng = s.ng := rfl
@[simp] theorem emit_acc : (emit e s).acc = s.acc := rfl
@[simp] theorem emit_job : (emit e s).job = s.job := rfl
@[simp] theorem emit_host : (emit e s).host = s.host := rfl
@[simp] theorem emit_out : (emit e s).out = s.out := rfl
@[simp] theorem emit_trace : (emit e s).trace = s.trace ++ [e] := rfl
@[simp] theorem emit_env : (emit e s).env = s.env := rfl
end

section
variable (s : State)
@[simp] theorem ngEnable_gen : (ngEnable s).gen = s.gen := rfl
@[simp] theorem ngEnable_dce : (ngEnable s).dce = s.dce := rfl
@[simp] theorem ngEnable_ec : (ngEnable s).ec = s.ec := rfl
@[simp] theorem ngEnable_bce : (ngEnable s).bce = s.bce := rfl
@[simp] theorem ngEnable_ng : (ngEnable s).ng = { s.ng with enabled := true } := rfl
@[simp] theorem ngEnable_acc : (ngEnable s).acc = s.acc := rfl
@[simp] theorem ngEnable_job : (ngEnable s).job = s.job := rfl
@[simp] theorem ngEnable_host : (ngEnable s).host = s.host := rfl
@[simp] theorem ngEnable_out : (ngEnable s).out = s.out := rfl
@[simp] theorem ngEnable_trace : (ngEnable s).trace = s.trace ++ [.ngEnable] := rfl
@[simp] theorem ngEnable_env : (ngEnable s).env = s.env := rfl
end

section
variable (s : State)
@[simp] theorem ngDisable_gen : (ngDisable s).gen = s.gen := rfl
@[simp] theorem ngDisable_dce : (ngDisable s).dce = s.dce := rfl
@[simp] theorem ngDisable_ec : (ngDisable s).ec = s.ec := rfl
@[simp] theorem ngDisable_bce : (ngDisable s).bce = s.bce := rfl
@[simp] theorem ngDisable_ng : (ngDisable s).ng = ngAfterDisable s.env.draws s.ng := rfl
@[simp] theorem ngDisable_acc : (ngDisable s).acc = s.acc := rfl
@[simp] theorem ngDisable_job : (ngDisable s).job = s.job := rfl
@[simp] theorem ngDisable_host : (ngDisable s).host = s.host := rfl
@[simp] theorem ngDisable_out : (ngDisable s).out = s.out := rfl
@[simp] theorem ngDisable_trace : (ngDisable s).trace = s.trace ++ [.ngDisable] := rfl
@[simp] theorem ngDisable_env : (ngDisable s).env = { s.env with draws := s.env.draws + 10 } := rfl
end

section
variable (s : State)
@[simp] theorem ngReset_gen : (ngReset s).gen = s.gen := rfl
@[simp] theorem ngReset_dce : (ngReset s).dce = s.dce := rfl
@[simp] theorem ngReset_ec : (ngReset s).ec = s.ec := rfl
@[simp] theorem ngReset_bce : (ngReset s).bce = s.bce := rfl
@[simp] theorem ngReset_ng : (ngReset s).ng = ngAfterReset s.env.draws s.ng := rfl
@[simp] theorem ngReset_acc : (ngReset s).acc = s.acc := rfl
@[simp] theorem ngReset_job : (ngReset s).job = s.job := rfl
@[simp] theorem ngReset_host : (ngReset s).host = s.host := rfl
@[simp] theorem ngReset_out : (ngReset s).out = s.out := rfl
@[simp] theorem ngReset_trace : (ngReset s).trace = s.trace ++ [.ngReset] := rfl
@[simp] theorem ngReset_env : (ngReset s).env = { s.env with draws := s.env.draws + 8 } := rfl
end

section
variable (c t i b : Word) (s : State)
@[simp] theorem ngConfigure_gen : (ngConfigure c t i b s).gen = s.gen := rfl
@[simp] theorem ngConfigure_dce : (ngConfigure c t i b s).dce = s.dce := rfl
@[simp] theorem ngConfigure_ec : (ngConfigure c t i b s).ec = s.ec := rfl
@[simp] theorem ngConfigure_bce : (ngConfigure c t i b s).bce = s.bce := rfl
@[simp] theorem ngConfigure_ng : (ngConfigure c t i b s).ng = { s.ng with clkdiv := c, offTimer := t, initWait := i, blocksPerCycle := b } := rfl
@[simp] theorem ngConfigure_acc : (ngConfigure c t i b s).acc = s.acc := rfl
@[simp] theorem ngConfigure_job : (ngConfigure c t i b s).job = s.job := rfl
@[simp] theorem ngConfigure_host : (ngConfigure c t i b s).host = s.host := rfl
@[simp] theorem ngConfigure_out : (ngConfigure c t i b s).out = s.out := rfl
@[simp] theorem ngConfigure_trace : (ngConfigure c t i b s).trace = s.trace ++ [.ngConfigure c t i b] := rfl
@[simp] theorem ngConfigure_env : (ngConfigure c t i b s).env = s.env := rfl
end

section
variable (i : Fin 4) (w : Word) (s : State)
@[simp] theorem ngKeySet_gen : (ngKeySet i w s).gen = s.gen := rfl
@[simp] theorem ngKeySet_dce : (ngKeySet i w s).dce = s.dce := rfl
@[simp] theorem ngKeySet_ec : (ngKeySet i w s).ec = s.ec := rfl
@[simp] theorem ngKeySet_bce : (ngKeySet i w s).bce = s.bce := rfl
@[simp] theorem ngKeySet_ng : (ngKeySet i w s).ng = { s.ng with ck := s.ng.ck.set i.val w i.isLt } := rfl
@[simp] theorem ngKeySet_acc : (ngKeySet i w s).acc = s.acc := rfl
@[simp] theorem ngKeySet_job : (ngKeySet i w s).job = s.job := rfl
@[simp] theorem ngKeySet_host : (ngKeySet i w s).host = s.host := rfl
@[simp] theorem ngKeySet_out : (ngKeySet i w s).out = s.out := rfl
@[simp] theorem ngKeySet_trace : (ngKeySet i w s).trace = s.trace ++ [.ngKeySet i w] := rfl
@[simp] theorem ngKeySet_env : (ngKeySet i w s).env = s.env := rfl
end

section
variable (i : Fin 4) (s : State)
@[simp] theorem ngKeyRead_gen : ((ngKeyRead i s).2).gen = s.gen := rfl
@[simp] theorem ngKeyRead_dce : ((ngKeyRead i s).2).dce = s.dce := rfl
@[simp] theorem ngKeyRead_ec : ((ngKeyRead i s).2).ec = s.ec := rfl
@[simp] theorem ngKeyRead_bce : ((ngKeyRead i s).2).bce = s.bce := rfl
@[simp] theorem ngKeyRead_ng : ((ngKeyRead i s).2).ng = s.ng := rfl
@[simp] theorem ngKeyRead_acc : ((ngKeyRead i s).2).acc = s.acc := rfl
@[simp] theorem ngKeyRead_job : ((ngKeyRead i s).2).job = s.job := rfl
@[simp] theorem ngKeyRead_host : ((ngKeyRead i s).2).host = s.host := rfl
@[simp] theorem ngKeyRead_out : ((ngKeyRead i s).2).out = s.out := rfl
@[simp] theorem ngKeyRead_trace : ((ngKeyRead i s).2).trace = s.trace ++ [.ngKeyRead i s.ng.ck[i]] := rfl
@[simp] theorem ngKeyRead_env : ((ngKeyRead i s).2).env = s.env := rfl
end

section
variable (s : State)
@[simp] theorem ngInit_gen : (ngInit s).gen = s.gen := by simp [ngInit]
@[simp] theorem ngInit_dce : (ngInit s).dce = s.dce := by simp [ngInit]
@[simp] theorem ngInit_ec : (ngInit s).ec = { s.ec with keySet := false } := by simp [ngInit]
@[simp] theorem ngInit_bce : (ngInit s).bce = s.bce := by simp [ngInit]
@[simp] theorem ngInit_acc : (ngInit s).acc = s.acc := by simp [ngInit]
@[simp] theorem ngInit_job : (ngInit s).job = s.job := by simp [ngInit]
@[simp] theorem ngInit_host : (ngInit s).host = s.host := by simp [ngInit]
@[simp] theorem ngInit_out : (ngInit s).out = s.out := by simp [ngInit]
@[simp] theorem ngInit_trace : (ngInit s).trace = s.trace ++ [.ngReset] ++ [.ngConfigure Config.ngClkdiv Config.ngOffTimer Config.ngInitWait Config.ngBlocksPerCycle] := by simp [ngInit]
@[simp] theorem ngInit_env : (ngInit s).env = { s.env with draws := s.env.draws + 8 } := by simp [ngInit]
end

section
variable (s : State)
@[simp] theorem accEnable_gen : (accEnable s).gen = s.gen := rfl
@[simp] theorem accEnable_dce : (accEnable s).dce = s.dce := rfl
@[simp] theorem accEnable_ec : (accEnable s).ec = s.ec := rfl
@[simp] theorem accEnable_bce : (accEnable s).bce = s.bce := rfl
@[simp] theorem accEnable_ng : (accEnable s).ng = s.ng := rfl
@[simp] theorem accEnable_acc : (accEnable s).acc = { s.acc with enabled := true } := rfl
@[simp] theorem accEnable_job : (accEnable s).job = s.job := rfl
@[simp] theorem accEnable_host : (accEnable s).host = s.host := rfl
@[simp] theorem accEnable_out : (accEnable s).out = s.out := rfl
@[simp] theorem accEnable_trace : (accEnable s).trace = s.trace ++ [.accEnable] := rfl
@[simp] theorem accEnable_env : (accEnable s).env = s.env := rfl
end

section
variable (s : State)
@[simp] theorem accDisable_gen : (accDisable s).gen = s.gen := rfl
@[simp] theorem accDisable_dce : (accDisable s).dce = s.dce := rfl
@[simp] theorem accDisable_ec : (accDisable s).ec = s.ec := rfl
@[simp] theorem accDisable_bce : (accDisable s).bce = s.bce := rfl
@[simp] theorem accDisable_ng : (accDisable s).ng = s.ng := rfl
@[simp] theorem accDisable_acc : (accDisable s).acc = { s.acc with enabled := false } := rfl
@[simp] theorem accDisable_job : (accDisable s).job = s.job := rfl
@[simp] theorem accDisable_host : (accDisable s).host = s.host := rfl
@[simp] theorem accDisable_out : (accDisable s).out = s.out := rfl
@[simp] theorem accDisable_trace : (accDisable s).trace = s.trace ++ [.accDisable] := rfl
@[simp] theorem accDisable_env : (accDisable s).env = s.env := rfl
end

section
variable (s : State)
@[simp] theorem accSetFetch_gen : (accSetFetch s).gen = s.gen := rfl
@[simp] theorem accSetFetch_dce : (accSetFetch s).dce = s.dce := rfl
@[simp] theorem accSetFetch_ec : (accSetFetch s).ec = s.ec := rfl
@[simp] theorem accSetFetch_bce : (accSetFetch s).bce = s.bce := rfl
@[simp] theorem accSetFetch_ng : (accSetFetch s).ng = s.ng := rfl
@[simp] theorem accSetFetch_acc : (accSetFetch s).acc = { s.acc with fetchAddr := .jobChain } := rfl
@[simp] theorem accSetFetch_job : (accSetFetch s).job = s.job := rfl
@[simp] theorem accSetFetch_host : (accSetFetch s).host = s.host := rfl
@[simp] theorem accSetFetch_out : (accSetFetch s).out = s.out := rfl
@[simp] theorem accSetFetch_trace : (accSetFetch s).trace = s.trace ++ [.accSetFetch .jobChain] := rfl
@[simp] theorem accSetFetch_env : (accSetFetch s).env = s.env := rfl
end

section
variable (s : State)
@[simp] theorem accSetPush_gen : (accSetPush s).gen = s.gen := rfl
@[simp] theorem accSetPush_dce : (accSetPush s).dce = s.dce := rfl
@[simp] theorem accSetPush_ec : (accSetPush s).ec = s.ec := rfl
@[simp] theorem accSetPush_bce : (accSetPush s).bce = s.bce := rfl
@[simp] theorem accSetPush_ng : (accSetPush s).ng = s.ng := rfl
@[simp] theorem accSetPush_acc : (accSetPush s).acc = { s.acc with pushAddr := .jobOutput } := rfl
@[simp] theorem accSetPush_job : (accSetPush s).job = s.job := rfl
@[simp] theorem accSetPush_host : (accSetPush s).host = s.host := rfl
@[simp] theorem accSetPush_out : (accSetPush s).out = s.out := rfl
@[simp] theorem accSetPush_trace : (accSetPush s).trace = s.trace ++ [.accSetPush .jobOutput] := rfl
@[simp] theorem accSetPush_env : (accSetPush s).env = s.env := rfl
end

section
variable (s : State)
@[simp] theorem accSetIndirect_gen : (accSetIndirect s).gen = s.gen := rfl
@[simp] theorem accSetIndirect_dce : (accSetIndirect s).dce = s.dce := rfl
@[simp] theorem accSetIndirect_ec : (accSetIndirect s).ec = s.ec := rfl
@[simp] theorem accSetIndirect_bce : (accSetIndirect s).bce = s.bce := rfl
@[simp] theorem accSetIndirect_ng : (accSetIndirect s).ng = s.ng := rfl
@[simp] theorem accSetIndirect_acc : (accSetIndirect s).acc = { s.acc with indirect := true } := rfl
@[simp] theorem accSetIndirect_job : (accSetIndirect s).job = s.job := rfl
@[simp] theorem accSetIndirect_host : (accSetIndirect s).host = s.host := rfl
@[simp] theorem accSetIndirect_out : (accSetIndirect s).out = s.out := rfl
@[simp] theorem accSetIndirect_trace : (accSetIndirect s).trace = s.trace ++ [.accSetIndirect] := rfl
@[simp] theorem accSetIndirect_env : (accSetIndirect s).env = s.env := rfl
end

section
variable (s : State)
@[simp] theorem barrier_gen : (barrier s).gen = s.gen := rfl
@[simp] theorem barrier_dce : (barrier s).dce = s.dce := rfl
@[simp] theorem barrier_ec : (barrier s).ec = s.ec := rfl
@[simp] theorem barrier_bce : (barrier s).bce = s.bce := rfl
@[simp] theorem barrier_ng : (barrier s).ng = s.ng := rfl
@[simp] theorem barrier_acc : (barrier s).acc = s.acc := rfl
@[simp] theorem barrier_job : (barrier s).job = { s.job with ordered := true } := rfl
@[simp] theorem barrier_host : (barrier s).host = s.host := rfl
@[simp] theorem barrier_out : (barrier s).out = s.out := rfl
@[simp] theorem barrier_trace : (barrier s).trace = s.trace ++ [.barrier] := rfl
@[simp] theorem barrier_env : (barrier s).env = s.env := rfl
end

section
variable (s : State)
@[simp] theorem accStart_gen : (accStart s).gen = s.gen := rfl
@[simp] theorem accStart_dce : (accStart s).dce = s.dce := rfl
@[simp] theorem accStart_ec : (accStart s).ec = s.ec := rfl
@[simp] theorem accStart_bce : (accStart s).bce = s.bce := rfl
@[simp] theorem accStart_ng : (accStart s).ng = s.ng := rfl
@[simp] theorem accStart_acc : (accStart s).acc = { s.acc with job := s.job.chain } := rfl
@[simp] theorem accStart_job : (accStart s).job = s.job := rfl
@[simp] theorem accStart_host : (accStart s).host = s.host := rfl
@[simp] theorem accStart_out : (accStart s).out = s.out := rfl
@[simp] theorem accStart_trace : (accStart s).trace = s.trace ++ [.accStart] := rfl
@[simp] theorem accStart_env : (accStart s).env = s.env := rfl
end

section
variable (s : State)
@[simp] theorem accSoftreset_gen : (accSoftreset s).gen = s.gen := rfl
@[simp] theorem accSoftreset_dce : (accSoftreset s).dce = s.dce := rfl
@[simp] theorem accSoftreset_ec : (accSoftreset s).ec = s.ec := rfl
@[simp] theorem accSoftreset_bce : (accSoftreset s).bce = s.bce := rfl
@[simp] theorem accSoftreset_ng : (accSoftreset s).ng = s.ng := rfl
@[simp] theorem accSoftreset_acc : (accSoftreset s).acc = { s.acc with job := none, status := accStatusClear, softresetDone := true } := rfl
@[simp] theorem accSoftreset_job : (accSoftreset s).job = s.job := rfl
@[simp] theorem accSoftreset_host : (accSoftreset s).host = s.host := rfl
@[simp] theorem accSoftreset_out : (accSoftreset s).out = s.out := rfl
@[simp] theorem accSoftreset_trace : (accSoftreset s).trace = s.trace ++ [.accSoftreset] := rfl
@[simp] theorem accSoftreset_env : (accSoftreset s).env = s.env := rfl
end

section
variable (s : State)
@[simp] theorem drawBlock_gen : ((drawBlock s).2).gen = s.gen := rfl
@[simp] theorem drawBlock_dce : ((drawBlock s).2).dce = s.dce := rfl
@[simp] theorem drawBlock_ec : ((drawBlock s).2).ec = s.ec := rfl
@[simp] theorem drawBlock_bce : ((drawBlock s).2).bce = s.bce := rfl
@[simp] theorem drawBlock_ng : ((drawBlock s).2).ng = s.ng := rfl
@[simp] theorem drawBlock_acc : ((drawBlock s).2).acc = s.acc := rfl
@[simp] theorem drawBlock_job : ((drawBlock s).2).job = s.job := rfl
@[simp] theorem drawBlock_host : ((drawBlock s).2).host = s.host := rfl
@[simp] theorem drawBlock_out : ((drawBlock s).2).out = s.out := rfl
@[simp] theorem drawBlock_trace : ((drawBlock s).2).trace = s.trace := rfl
@[simp] theorem drawBlock_env : ((drawBlock s).2).env = { s.env with draws := s.env.draws + 1 } := rfl
end

@[simp] theorem blockOperand_emit (e : Event) (s : State) : blockOperand (emit e s) = blockOperand s := rfl

section
variable (n : Nat) (s : State)
@[simp] theorem buildJob_gen : (buildJob n s).gen = s.gen := rfl
@[simp] theorem buildJob_dce : (buildJob n s).dce = s.dce := rfl
@[simp] theorem buildJob_ec : (buildJob n s).ec = s.ec := rfl
@[simp] theorem buildJob_bce : (buildJob n s).bce = s.bce := rfl
@[simp] theorem buildJob_ng : (buildJob n s).ng = s.ng := rfl
@[simp] theorem buildJob_acc : (buildJob n s).acc = s.acc := rfl
@[simp] theorem buildJob_job : (buildJob n s).job = { s.job with chain := some (jobOf n s.gen.key (blockOperand s)), ordered := false } := rfl
@[simp] theorem buildJob_host : (buildJob n s).host = s.host := rfl
@[simp] theorem buildJob_out : (buildJob n s).out = s.out := rfl
@[simp] theorem buildJob_trace : (buildJob n s).trace = s.trace := rfl
@[simp] theorem buildJob_env : (buildJob n s).env = s.env := rfl
end

section
variable (n : Nat) (s : State)
@[simp] theorem aesStart_gen : (aesStart n s).gen = s.gen := by simp [aesStart]
@[simp] theorem aesStart_dce : (aesStart n s).dce = s.dce := by simp [aesStart]
@[simp] theorem aesStart_ec : (aesStart n s).ec = s.ec := by simp [aesStart]
@[simp] theorem aesStart_bce : (aesStart n s).bce = .poll := by simp [aesStart]
@[simp] theorem aesStart_ng : (aesStart n s).ng = s.ng := by simp [aesStart]
@[simp] theorem aesStart_acc : (aesStart n s).acc = { s.acc with enabled := true, fetchAddr := .jobChain, pushAddr := .jobOutput, indirect := true, job := some (jobOf n s.gen.key (blockOperand s)) } := by simp [aesStart]
@[simp] theorem aesStart_job : (aesStart n s).job = { s.job with chain := some (jobOf n s.gen.key (blockOperand s)), ordered := true } := by simp [aesStart]
@[simp] theorem aesStart_host : (aesStart n s).host = s.host := by simp [aesStart]
@[simp] theorem aesStart_out : (aesStart n s).out = s.out := by simp [aesStart]
@[simp] theorem aesStart_trace : (aesStart n s).trace = s.trace ++ [.call opAes false (BitVec.ofNat 32 n)] ++ [.accEnable] ++ [.accSetFetch .jobChain] ++ [.accSetPush .jobOutput] ++ [.accSetIndirect] ++ [.barrier] ++ [.accStart] := by simp [aesStart]
@[simp] theorem aesStart_env : (aesStart n s).env = s.env := by simp [aesStart]
end

section
variable (s : State)
@[simp] theorem discardJob_gen : (discardJob s).gen = s.gen := rfl
@[simp] theorem discardJob_dce : (discardJob s).dce = s.dce := rfl
@[simp] theorem discardJob_ec : (discardJob s).ec = s.ec := rfl
@[simp] theorem discardJob_bce : (discardJob s).bce = s.bce := rfl
@[simp] theorem discardJob_ng : (discardJob s).ng = s.ng := rfl
@[simp] theorem discardJob_acc : (discardJob s).acc = s.acc := rfl
@[simp] theorem discardJob_host : (discardJob s).host = s.host := rfl
@[simp] theorem discardJob_out : (discardJob s).out = s.out := rfl
@[simp] theorem discardJob_trace : (discardJob s).trace = s.trace := rfl
@[simp] theorem discardJob_env : (discardJob s).env = { s.env with draws := s.env.draws + 1 } := rfl
end

section
variable (st : Status) (b : Block) (s : State)
@[simp] theorem aesReturn_gen : (aesReturn st b s).gen = s.gen := by simp [aesReturn]
@[simp] theorem aesReturn_dce : (aesReturn st b s).dce = { s.dce with blk := b } := by simp [aesReturn]
@[simp] theorem aesReturn_ec : (aesReturn st b s).ec = s.ec := by simp [aesReturn]
@[simp] theorem aesReturn_bce : (aesReturn st b s).bce = .idle := by simp [aesReturn]
@[simp] theorem aesReturn_ng : (aesReturn st b s).ng = s.ng := by simp [aesReturn]
@[simp] theorem aesReturn_acc : (aesReturn st b s).acc = { s.acc with enabled := false, job := none, status := accStatusClear, softresetDone := true } := by simp [aesReturn]
@[simp] theorem aesReturn_host : (aesReturn st b s).host = s.host := by simp [aesReturn]
@[simp] theorem aesReturn_out : (aesReturn st b s).out = s.out := by simp [aesReturn]
@[simp] theorem aesReturn_trace : (aesReturn st b s).trace = s.trace ++ [.accSoftreset] ++ [.accDisable] ++ [.ret opAes st] := by simp [aesReturn]
@[simp] theorem aesReturn_env : (aesReturn st b s).env = { s.env with draws := s.env.draws + 1 } := by simp [aesReturn]
end

section
variable (p : EcPhase) (s : State)
@[simp] theorem ecGoto_gen : (ecGoto p s).gen = s.gen := rfl
@[simp] theorem ecGoto_dce : (ecGoto p s).dce = s.dce := rfl
@[simp] theorem ecGoto_ec : (ecGoto p s).ec = { s.ec with phase := p } := rfl
@[simp] theorem ecGoto_bce : (ecGoto p s).bce = s.bce := rfl
@[simp] theorem ecGoto_ng : (ecGoto p s).ng = s.ng := rfl
@[simp] theorem ecGoto_acc : (ecGoto p s).acc = s.acc := rfl
@[simp] theorem ecGoto_job : (ecGoto p s).job = s.job := rfl
@[simp] theorem ecGoto_host : (ecGoto p s).host = s.host := rfl
@[simp] theorem ecGoto_out : (ecGoto p s).out = s.out := rfl
@[simp] theorem ecGoto_trace : (ecGoto p s).trace = s.trace := rfl
@[simp] theorem ecGoto_env : (ecGoto p s).env = s.env := rfl
end

section
variable (n : BitVec 32) (s : State)
@[simp] theorem ecStart_gen : (ecStart n s).gen = s.gen := rfl
@[simp] theorem ecStart_dce : (ecStart n s).dce = s.dce := rfl
@[simp] theorem ecStart_ec : (ecStart n s).ec = { s.ec with phase := .check, esize := n } := rfl
@[simp] theorem ecStart_bce : (ecStart n s).bce = s.bce := rfl
@[simp] theorem ecStart_ng : (ecStart n s).ng = s.ng := rfl
@[simp] theorem ecStart_acc : (ecStart n s).acc = s.acc := rfl
@[simp] theorem ecStart_job : (ecStart n s).job = s.job := rfl
@[simp] theorem ecStart_host : (ecStart n s).host = s.host := rfl
@[simp] theorem ecStart_out : (ecStart n s).out = s.out := rfl
@[simp] theorem ecStart_trace : (ecStart n s).trace = s.trace ++ [.call opGetEntropy false n] := rfl
@[simp] theorem ecStart_env : (ecStart n s).env = s.env := rfl
end

section
variable (s : State)
@[simp] theorem releaseEc_gen : (releaseEc s).gen = s.gen := rfl
@[simp] theorem releaseEc_dce : (releaseEc s).dce = s.dce := rfl
@[simp] theorem releaseEc_ec : (releaseEc s).ec = freeEcInner s.env.draws s.ec := rfl
@[simp] theorem releaseEc_bce : (releaseEc s).bce = s.bce := rfl
@[simp] theorem releaseEc_ng : (releaseEc s).ng = s.ng := rfl
@[simp] theorem releaseEc_acc : (releaseEc s).acc = s.acc := rfl
@[simp] theorem releaseEc_job : (releaseEc s).job = s.job := rfl
@[simp] theorem releaseEc_host : (releaseEc s).host = s.host := rfl
@[simp] theorem releaseEc_out : (releaseEc s).out = s.out := rfl
@[simp] theorem releaseEc_trace : (releaseEc s).trace = s.trace := rfl
@[simp] theorem releaseEc_env : (releaseEc s).env = { s.env with draws := s.env.draws + 4 } := rfl
end

section
variable (st : Status) (s : State)
@[simp] theorem ecReturn_gen : (ecReturn st s).gen = s.gen := by simp [ecReturn]
@[simp] theorem ecReturn_dce : (ecReturn st s).dce = s.dce := by simp [ecReturn]
@[simp] theorem ecReturn_ec : (ecReturn st s).ec = freeEcInner s.env.draws { s.ec with phase := .idle, estatus := statusWord st } := by simp [ecReturn]
@[simp] theorem ecReturn_bce : (ecReturn st s).bce = s.bce := by simp [ecReturn]
@[simp] theorem ecReturn_ng : (ecReturn st s).ng = s.ng := by simp [ecReturn]
@[simp] theorem ecReturn_acc : (ecReturn st s).acc = s.acc := by simp [ecReturn]
@[simp] theorem ecReturn_job : (ecReturn st s).job = s.job := by simp [ecReturn]
@[simp] theorem ecReturn_host : (ecReturn st s).host = s.host := by simp [ecReturn]
@[simp] theorem ecReturn_out : (ecReturn st s).out = s.out := by simp [ecReturn]
@[simp] theorem ecReturn_trace : (ecReturn st s).trace = s.trace ++ [.ret opGetEntropy st] := by simp [ecReturn]
@[simp] theorem ecReturn_env : (ecReturn st s).env = { s.env with draws := s.env.draws + 4 } := by simp [ecReturn]
end

section
variable (p : DcePhase) (s : State)
@[simp] theorem dceGoto_gen : (dceGoto p s).gen = s.gen := rfl
@[simp] theorem dceGoto_dce : (dceGoto p s).dce = { s.dce with phase := p } := rfl
@[simp] theorem dceGoto_ec : (dceGoto p s).ec = s.ec := rfl
@[simp] theorem dceGoto_bce : (dceGoto p s).bce = s.bce := rfl
@[simp] theorem dceGoto_ng : (dceGoto p s).ng = s.ng := rfl
@[simp] theorem dceGoto_acc : (dceGoto p s).acc = s.acc := rfl
@[simp] theorem dceGoto_job : (dceGoto p s).job = s.job := rfl
@[simp] theorem dceGoto_host : (dceGoto p s).host = s.host := rfl
@[simp] theorem dceGoto_out : (dceGoto p s).out = s.out := rfl
@[simp] theorem dceGoto_trace : (dceGoto p s).trace = s.trace := rfl
@[simp] theorem dceGoto_env : (dceGoto p s).env = s.env := rfl
end

section
variable (s : State)
@[simp] theorem releaseBlk_gen : (releaseBlk s).gen = s.gen := rfl
@[simp] theorem releaseBlk_dce : (releaseBlk s).dce = { s.dce with blk := Config.freeBits 128 s.env.draws } := rfl
@[simp] theorem releaseBlk_ec : (releaseBlk s).ec = s.ec := rfl
@[simp] theorem releaseBlk_bce : (releaseBlk s).bce = s.bce := rfl
@[simp] theorem releaseBlk_ng : (releaseBlk s).ng = s.ng := rfl
@[simp] theorem releaseBlk_acc : (releaseBlk s).acc = s.acc := rfl
@[simp] theorem releaseBlk_job : (releaseBlk s).job = s.job := rfl
@[simp] theorem releaseBlk_host : (releaseBlk s).host = s.host := rfl
@[simp] theorem releaseBlk_out : (releaseBlk s).out = s.out := rfl
@[simp] theorem releaseBlk_trace : (releaseBlk s).trace = s.trace := rfl
@[simp] theorem releaseBlk_env : (releaseBlk s).env = { s.env with draws := s.env.draws + 1 } := rfl
end

section
variable (s : State)
@[simp] theorem releaseUpdate_gen : (releaseUpdate s).gen = s.gen := rfl
@[simp] theorem releaseUpdate_dce : (releaseUpdate s).dce = freeUpdate s.env.draws s.dce := rfl
@[simp] theorem releaseUpdate_ec : (releaseUpdate s).ec = s.ec := rfl
@[simp] theorem releaseUpdate_bce : (releaseUpdate s).bce = s.bce := rfl
@[simp] theorem releaseUpdate_ng : (releaseUpdate s).ng = s.ng := rfl
@[simp] theorem releaseUpdate_acc : (releaseUpdate s).acc = s.acc := rfl
@[simp] theorem releaseUpdate_job : (releaseUpdate s).job = s.job := rfl
@[simp] theorem releaseUpdate_host : (releaseUpdate s).host = s.host := rfl
@[simp] theorem releaseUpdate_out : (releaseUpdate s).out = s.out := rfl
@[simp] theorem releaseUpdate_trace : (releaseUpdate s).trace = s.trace := rfl
@[simp] theorem releaseUpdate_env : (releaseUpdate s).env = { s.env with draws := s.env.draws + 5 } := rfl
end

section
variable (s : State)
@[simp] theorem releaseSeed_gen : (releaseSeed s).gen = s.gen := rfl
@[simp] theorem releaseSeed_dce : (releaseSeed s).dce = { s.dce with seed := Config.freeBits 384 s.env.draws } := rfl
@[simp] theorem releaseSeed_ec : (releaseSeed s).ec = s.ec := rfl
@[simp] theorem releaseSeed_bce : (releaseSeed s).bce = s.bce := rfl
@[simp] theorem releaseSeed_ng : (releaseSeed s).ng = s.ng := rfl
@[simp] theorem releaseSeed_acc : (releaseSeed s).acc = s.acc := rfl
@[simp] theorem releaseSeed_job : (releaseSeed s).job = s.job := rfl
@[simp] theorem releaseSeed_host : (releaseSeed s).host = s.host := rfl
@[simp] theorem releaseSeed_out : (releaseSeed s).out = s.out := rfl
@[simp] theorem releaseSeed_trace : (releaseSeed s).trace = s.trace := rfl
@[simp] theorem releaseSeed_env : (releaseSeed s).env = { s.env with draws := s.env.draws + 1 } := rfl
end

section
variable (s : State)
@[simp] theorem releaseEcResult_gen : (releaseEcResult s).gen = s.gen := rfl
@[simp] theorem releaseEcResult_dce : (releaseEcResult s).dce = s.dce := rfl
@[simp] theorem releaseEcResult_ec : (releaseEcResult s).ec = freeEcResult s.env.draws s.ec := rfl
@[simp] theorem releaseEcResult_bce : (releaseEcResult s).bce = s.bce := rfl
@[simp] theorem releaseEcResult_ng : (releaseEcResult s).ng = s.ng := rfl
@[simp] theorem releaseEcResult_acc : (releaseEcResult s).acc = s.acc := rfl
@[simp] theorem releaseEcResult_job : (releaseEcResult s).job = s.job := rfl
@[simp] theorem releaseEcResult_host : (releaseEcResult s).host = s.host := rfl
@[simp] theorem releaseEcResult_out : (releaseEcResult s).out = s.out := rfl
@[simp] theorem releaseEcResult_trace : (releaseEcResult s).trace = s.trace := rfl
@[simp] theorem releaseEcResult_env : (releaseEcResult s).env = { s.env with draws := s.env.draws + 2 } := rfl
end

section
variable (s : State)
@[simp] theorem takeSeed_gen : (takeSeed s).gen = s.gen := rfl
@[simp] theorem takeSeed_dce : (takeSeed s).dce = { s.dce with seed := ofBytes 384 s.ec.ebuf } := rfl
@[simp] theorem takeSeed_ec : (takeSeed s).ec = freeEcResult s.env.draws s.ec := rfl
@[simp] theorem takeSeed_bce : (takeSeed s).bce = s.bce := rfl
@[simp] theorem takeSeed_ng : (takeSeed s).ng = s.ng := rfl
@[simp] theorem takeSeed_acc : (takeSeed s).acc = s.acc := rfl
@[simp] theorem takeSeed_job : (takeSeed s).job = s.job := rfl
@[simp] theorem takeSeed_host : (takeSeed s).host = s.host := rfl
@[simp] theorem takeSeed_out : (takeSeed s).out = s.out := rfl
@[simp] theorem takeSeed_trace : (takeSeed s).trace = s.trace := rfl
@[simp] theorem takeSeed_env : (takeSeed s).env = { s.env with draws := s.env.draws + 2 } := rfl
end

section
variable (s : State)
@[simp] theorem releaseDce_gen : (releaseDce s).gen = s.gen := rfl
@[simp] theorem releaseDce_dce : (releaseDce s).dce = freeDce s.env.draws s.dce := rfl
@[simp] theorem releaseDce_ec : (releaseDce s).ec = freeEcResult (s.env.draws + 11) s.ec := rfl
@[simp] theorem releaseDce_bce : (releaseDce s).bce = s.bce := rfl
@[simp] theorem releaseDce_ng : (releaseDce s).ng = s.ng := rfl
@[simp] theorem releaseDce_acc : (releaseDce s).acc = s.acc := rfl
@[simp] theorem releaseDce_job : (releaseDce s).job = s.job := rfl
@[simp] theorem releaseDce_host : (releaseDce s).host = s.host := rfl
@[simp] theorem releaseDce_out : (releaseDce s).out = s.out := rfl
@[simp] theorem releaseDce_trace : (releaseDce s).trace = s.trace := rfl
@[simp] theorem releaseDce_env : (releaseDce s).env = { s.env with draws := s.env.draws + 13 } := rfl
end

section
variable (s : State)
@[simp] theorem toIdle_gen : (toIdle s).gen = s.gen := rfl
@[simp] theorem toIdle_dce : (toIdle s).dce = freeDce s.env.draws { s.dce with phase := .idle, ctx := [] } := rfl
@[simp] theorem toIdle_ec : (toIdle s).ec = freeEcResult (s.env.draws + 11) s.ec := rfl
@[simp] theorem toIdle_bce : (toIdle s).bce = s.bce := rfl
@[simp] theorem toIdle_ng : (toIdle s).ng = s.ng := rfl
@[simp] theorem toIdle_acc : (toIdle s).acc = s.acc := rfl
@[simp] theorem toIdle_job : (toIdle s).job = s.job := rfl
@[simp] theorem toIdle_host : (toIdle s).host = s.host := rfl
@[simp] theorem toIdle_out : (toIdle s).out = s.out := rfl
@[simp] theorem toIdle_trace : (toIdle s).trace = s.trace := rfl
@[simp] theorem toIdle_env : (toIdle s).env = { s.env with draws := s.env.draws + 13 } := rfl
end

section
variable (st : Status) (s : State)
@[simp] theorem respond_gen : (respond st s).gen = s.gen := by simp [respond]
@[simp] theorem respond_dce : (respond st s).dce = freeDce s.env.draws { s.dce with phase := .idle, ctx := [] } := by simp [respond]
@[simp] theorem respond_ec : (respond st s).ec = freeEcResult (s.env.draws + 11) s.ec := by simp [respond]
@[simp] theorem respond_bce : (respond st s).bce = s.bce := by simp [respond]
@[simp] theorem respond_ng : (respond st s).ng = s.ng := by simp [respond]
@[simp] theorem respond_acc : (respond st s).acc = s.acc := by simp [respond]
@[simp] theorem respond_job : (respond st s).job = s.job := by simp [respond]
@[simp] theorem respond_host : (respond st s).host = { s.host with status := statusWord st } := by simp [respond]
@[simp] theorem respond_out : (respond st s).out = s.out := by simp [respond]
@[simp] theorem respond_trace : (respond st s).trace = s.trace := by simp [respond]
@[simp] theorem respond_env : (respond st s).env = { s.env with draws := s.env.draws + 13 } := by simp [respond]
end

section
variable (s : State)
@[simp] theorem startInit_gen : (startInit s).gen = s.gen := rfl
@[simp] theorem startInit_dce : (startInit s).dce = { s.dce with phase := .zero, ctx := [.cInit] } := rfl
@[simp] theorem startInit_ec : (startInit s).ec = s.ec := rfl
@[simp] theorem startInit_bce : (startInit s).bce = s.bce := rfl
@[simp] theorem startInit_ng : (startInit s).ng = s.ng := rfl
@[simp] theorem startInit_acc : (startInit s).acc = s.acc := rfl
@[simp] theorem startInit_job : (startInit s).job = s.job := rfl
@[simp] theorem startInit_host : (startInit s).host = s.host := rfl
@[simp] theorem startInit_out : (startInit s).out = s.out := rfl
@[simp] theorem startInit_trace : (startInit s).trace = s.trace := rfl
@[simp] theorem startInit_env : (startInit s).env = s.env := rfl
end

section
variable (d : Bool) (n : BitVec 32) (s : State)
@[simp] theorem startGetRandom_gen : (startGetRandom d n s).gen = s.gen := rfl
@[simp] theorem startGetRandom_dce : (startGetRandom d n s).dce = { s.dce with phase := .check, ctx := [.cGen], size := n, dstv := d } := rfl
@[simp] theorem startGetRandom_ec : (startGetRandom d n s).ec = s.ec := rfl
@[simp] theorem startGetRandom_bce : (startGetRandom d n s).bce = s.bce := rfl
@[simp] theorem startGetRandom_ng : (startGetRandom d n s).ng = s.ng := rfl
@[simp] theorem startGetRandom_acc : (startGetRandom d n s).acc = s.acc := rfl
@[simp] theorem startGetRandom_job : (startGetRandom d n s).job = s.job := rfl
@[simp] theorem startGetRandom_host : (startGetRandom d n s).host = s.host := rfl
@[simp] theorem startGetRandom_out : (startGetRandom d n s).out = s.out := rfl
@[simp] theorem startGetRandom_trace : (startGetRandom d n s).trace = s.trace := rfl
@[simp] theorem startGetRandom_env : (startGetRandom d n s).env = s.env := rfl
end

section
variable (s : State)
@[simp] theorem startReseed_gen : (startReseed s).gen = s.gen := rfl
@[simp] theorem startReseed_dce : (startReseed s).dce = { s.dce with phase := .seed, ctx := .cReseed :: s.dce.ctx } := rfl
@[simp] theorem startReseed_ec : (startReseed s).ec = s.ec := rfl
@[simp] theorem startReseed_bce : (startReseed s).bce = s.bce := rfl
@[simp] theorem startReseed_ng : (startReseed s).ng = s.ng := rfl
@[simp] theorem startReseed_acc : (startReseed s).acc = s.acc := rfl
@[simp] theorem startReseed_job : (startReseed s).job = s.job := rfl
@[simp] theorem startReseed_host : (startReseed s).host = s.host := rfl
@[simp] theorem startReseed_out : (startReseed s).out = s.out := rfl
@[simp] theorem startReseed_trace : (startReseed s).trace = s.trace ++ [.call opReseed false 0] := rfl
@[simp] theorem startReseed_env : (startReseed s).env = s.env := rfl
end

section
variable (x : Bool) (s : State)
@[simp] theorem startUpdate_gen : (startUpdate x s).gen = s.gen := rfl
@[simp] theorem startUpdate_dce : (startUpdate x s).dce = { s.dce with phase := .upd 0, hasExtra := x } := rfl
@[simp] theorem startUpdate_ec : (startUpdate x s).ec = s.ec := rfl
@[simp] theorem startUpdate_bce : (startUpdate x s).bce = s.bce := rfl
@[simp] theorem startUpdate_ng : (startUpdate x s).ng = s.ng := rfl
@[simp] theorem startUpdate_acc : (startUpdate x s).acc = s.acc := rfl
@[simp] theorem startUpdate_job : (startUpdate x s).job = s.job := rfl
@[simp] theorem startUpdate_host : (startUpdate x s).host = s.host := rfl
@[simp] theorem startUpdate_out : (startUpdate x s).out = s.out := rfl
@[simp] theorem startUpdate_trace : (startUpdate x s).trace = s.trace ++ [.call opUpdate x 0] := rfl
@[simp] theorem startUpdate_env : (startUpdate x s).env = s.env := rfl
end

section
variable (s : State)
@[simp] theorem startOutput_gen : (startOutput s).gen = s.gen := rfl
@[simp] theorem startOutput_dce : (startOutput s).dce = { s.dce with phase := .out 0, cur := 0, rem := s.dce.size.setWidth 17 } := rfl
@[simp] theorem startOutput_ec : (startOutput s).ec = s.ec := rfl
@[simp] theorem startOutput_bce : (startOutput s).bce = s.bce := rfl
@[simp] theorem startOutput_ng : (startOutput s).ng = s.ng := rfl
@[simp] theorem startOutput_acc : (startOutput s).acc = s.acc := rfl
@[simp] theorem startOutput_job : (startOutput s).job = s.job := rfl
@[simp] theorem startOutput_host : (startOutput s).host = s.host := rfl
@[simp] theorem startOutput_out : (startOutput s).out = s.out := rfl
@[simp] theorem startOutput_trace : (startOutput s).trace = s.trace := rfl
@[simp] theorem startOutput_env : (startOutput s).env = s.env := rfl
end

section
variable (s : State)
@[simp] theorem dceZero_gen : (dceZero s).gen = zeroedGen := by simp [dceZero]
@[simp] theorem dceZero_dce : (dceZero s).dce = { s.dce with phase := .seed, ctx := .cReseed :: s.dce.ctx } := by simp [dceZero]
@[simp] theorem dceZero_ec : (dceZero s).ec = s.ec := by simp [dceZero]
@[simp] theorem dceZero_bce : (dceZero s).bce = s.bce := by simp [dceZero]
@[simp] theorem dceZero_ng : (dceZero s).ng = s.ng := by simp [dceZero]
@[simp] theorem dceZero_acc : (dceZero s).acc = s.acc := by simp [dceZero]
@[simp] theorem dceZero_job : (dceZero s).job = s.job := by simp [dceZero]
@[simp] theorem dceZero_host : (dceZero s).host = s.host := by simp [dceZero]
@[simp] theorem dceZero_out : (dceZero s).out = s.out := by simp [dceZero]
@[simp] theorem dceZero_trace : (dceZero s).trace = s.trace ++ [.call opReseed false 0] := by simp [dceZero]
@[simp] theorem dceZero_env : (dceZero s).env = s.env := by simp [dceZero]
end

section
variable (k : Fin 3) (s : State)
@[simp] theorem takeUpdBlock_gen : (takeUpdBlock k s).gen = s.gen := rfl
@[simp] theorem takeUpdBlock_dce : (takeUpdBlock k s).dce = { s.dce with phase := afterUpd k, temp := putBlock s.dce.temp k s.dce.blk, blk := Config.freeBits 128 s.env.draws } := rfl
@[simp] theorem takeUpdBlock_ec : (takeUpdBlock k s).ec = s.ec := rfl
@[simp] theorem takeUpdBlock_bce : (takeUpdBlock k s).bce = s.bce := rfl
@[simp] theorem takeUpdBlock_ng : (takeUpdBlock k s).ng = s.ng := rfl
@[simp] theorem takeUpdBlock_acc : (takeUpdBlock k s).acc = s.acc := rfl
@[simp] theorem takeUpdBlock_job : (takeUpdBlock k s).job = s.job := rfl
@[simp] theorem takeUpdBlock_host : (takeUpdBlock k s).host = s.host := rfl
@[simp] theorem takeUpdBlock_out : (takeUpdBlock k s).out = s.out := rfl
@[simp] theorem takeUpdBlock_trace : (takeUpdBlock k s).trace = s.trace := rfl
@[simp] theorem takeUpdBlock_env : (takeUpdBlock k s).env = { s.env with draws := s.env.draws + 1 } := rfl
end

section
variable (s : State)
@[simp] theorem rejectWord_gen : (rejectWord s).gen = s.gen := rfl
@[simp] theorem rejectWord_dce : (rejectWord s).dce = s.dce := rfl
@[simp] theorem rejectWord_ec : (rejectWord s).ec = s.ec := rfl
@[simp] theorem rejectWord_bce : (rejectWord s).bce = s.bce := rfl
@[simp] theorem rejectWord_ng : (rejectWord s).ng = s.ng := rfl
@[simp] theorem rejectWord_acc : (rejectWord s).acc = s.acc := rfl
@[simp] theorem rejectWord_job : (rejectWord s).job = s.job := rfl
@[simp] theorem rejectWord_host : (rejectWord s).host = { s.host with status := statusWord .invalid } := rfl
@[simp] theorem rejectWord_out : (rejectWord s).out = s.out := rfl
@[simp] theorem rejectWord_trace : (rejectWord s).trace = s.trace := rfl
@[simp] theorem rejectWord_env : (rejectWord s).env = s.env := rfl
end

section
variable (s : State)
@[simp] theorem drawFsm_gen : ((drawFsm s).2).gen = s.gen := by unfold drawFsm; split <;> rfl
@[simp] theorem drawFsm_dce : ((drawFsm s).2).dce = s.dce := by unfold drawFsm; split <;> rfl
@[simp] theorem drawFsm_ec : ((drawFsm s).2).ec = s.ec := by unfold drawFsm; split <;> rfl
@[simp] theorem drawFsm_bce : ((drawFsm s).2).bce = s.bce := by unfold drawFsm; split <;> rfl
@[simp] theorem drawFsm_ng : ((drawFsm s).2).ng = s.ng := by unfold drawFsm; split <;> rfl
@[simp] theorem drawFsm_acc : ((drawFsm s).2).acc = s.acc := by unfold drawFsm; split <;> rfl
@[simp] theorem drawFsm_job : ((drawFsm s).2).job = s.job := by unfold drawFsm; split <;> rfl
@[simp] theorem drawFsm_host : ((drawFsm s).2).host = s.host := by unfold drawFsm; split <;> rfl
@[simp] theorem drawFsm_out : ((drawFsm s).2).out = s.out := by unfold drawFsm; split <;> rfl
@[simp] theorem drawFsm_trace : ((drawFsm s).2).trace = s.trace := by unfold drawFsm; split <;> rfl
end

section
variable (s : State)
@[simp] theorem drawWords_gen : ((drawWords s).2).gen = s.gen := by unfold drawWords; split <;> rfl
@[simp] theorem drawWords_dce : ((drawWords s).2).dce = s.dce := by unfold drawWords; split <;> rfl
@[simp] theorem drawWords_ec : ((drawWords s).2).ec = s.ec := by unfold drawWords; split <;> rfl
@[simp] theorem drawWords_bce : ((drawWords s).2).bce = s.bce := by unfold drawWords; split <;> rfl
@[simp] theorem drawWords_ng : ((drawWords s).2).ng = s.ng := by unfold drawWords; split <;> rfl
@[simp] theorem drawWords_acc : ((drawWords s).2).acc = s.acc := by unfold drawWords; split <;> rfl
@[simp] theorem drawWords_job : ((drawWords s).2).job = s.job := by unfold drawWords; split <;> rfl
@[simp] theorem drawWords_host : ((drawWords s).2).host = s.host := by unfold drawWords; split <;> rfl
@[simp] theorem drawWords_out : ((drawWords s).2).out = s.out := by unfold drawWords; split <;> rfl
@[simp] theorem drawWords_trace : ((drawWords s).2).trace = s.trace := by unfold drawWords; split <;> rfl
end

section
variable (s : State)
@[simp] theorem drawAccStatus_gen : ((drawAccStatus s).2).gen = s.gen := by unfold drawAccStatus; split <;> rfl
@[simp] theorem drawAccStatus_dce : ((drawAccStatus s).2).dce = s.dce := by unfold drawAccStatus; split <;> rfl
@[simp] theorem drawAccStatus_ec : ((drawAccStatus s).2).ec = s.ec := by unfold drawAccStatus; split <;> rfl
@[simp] theorem drawAccStatus_bce : ((drawAccStatus s).2).bce = s.bce := by unfold drawAccStatus; split <;> rfl
@[simp] theorem drawAccStatus_ng : ((drawAccStatus s).2).ng = s.ng := by unfold drawAccStatus; split <;> rfl
@[simp] theorem drawAccStatus_acc : ((drawAccStatus s).2).acc = s.acc := by unfold drawAccStatus; split <;> rfl
@[simp] theorem drawAccStatus_job : ((drawAccStatus s).2).job = s.job := by unfold drawAccStatus; split <;> rfl
@[simp] theorem drawAccStatus_host : ((drawAccStatus s).2).host = s.host := by unfold drawAccStatus; split <;> rfl
@[simp] theorem drawAccStatus_out : ((drawAccStatus s).2).out = s.out := by unfold drawAccStatus; split <;> rfl
@[simp] theorem drawAccStatus_trace : ((drawAccStatus s).2).trace = s.trace := by unfold drawAccStatus; split <;> rfl
end

section
variable (s : State)
@[simp] theorem ngFsmRead_gen : ((ngFsmRead s).2).gen = s.gen := by simp [ngFsmRead]
@[simp] theorem ngFsmRead_dce : ((ngFsmRead s).2).dce = s.dce := by simp [ngFsmRead]
@[simp] theorem ngFsmRead_ec : ((ngFsmRead s).2).ec = s.ec := by simp [ngFsmRead]
@[simp] theorem ngFsmRead_bce : ((ngFsmRead s).2).bce = s.bce := by simp [ngFsmRead]
@[simp] theorem ngFsmRead_ng : ((ngFsmRead s).2).ng = { s.ng with fsm := (drawFsm s).1 } := by simp [ngFsmRead]
@[simp] theorem ngFsmRead_acc : ((ngFsmRead s).2).acc = s.acc := by simp [ngFsmRead]
@[simp] theorem ngFsmRead_job : ((ngFsmRead s).2).job = s.job := by simp [ngFsmRead]
@[simp] theorem ngFsmRead_host : ((ngFsmRead s).2).host = s.host := by simp [ngFsmRead]
@[simp] theorem ngFsmRead_out : ((ngFsmRead s).2).out = s.out := by simp [ngFsmRead]
@[simp] theorem ngFsmRead_trace : ((ngFsmRead s).2).trace = s.trace ++ [.ngFsmRead (drawFsm s).1] := by simp [ngFsmRead]
@[simp] theorem ngFsmRead_env : ((ngFsmRead s).2).env = (drawFsm s).2.env := by simp [ngFsmRead]
end

section
variable (s : State)
@[simp] theorem ngLevelRead_gen : ((ngLevelRead s).2).gen = s.gen := by simp [ngLevelRead]
@[simp] theorem ngLevelRead_dce : ((ngLevelRead s).2).dce = s.dce := by simp [ngLevelRead]
@[simp] theorem ngLevelRead_ec : ((ngLevelRead s).2).ec = s.ec := by simp [ngLevelRead]
@[simp] theorem ngLevelRead_bce : ((ngLevelRead s).2).bce = s.bce := by simp [ngLevelRead]
@[simp] theorem ngLevelRead_ng : ((ngLevelRead s).2).ng = { s.ng with fifo := fifoFilled s.ng.fifo (drawWords s).1 } := by simp [ngLevelRead]
@[simp] theorem ngLevelRead_acc : ((ngLevelRead s).2).acc = s.acc := by simp [ngLevelRead]
@[simp] theorem ngLevelRead_job : ((ngLevelRead s).2).job = s.job := by simp [ngLevelRead]
@[simp] theorem ngLevelRead_host : ((ngLevelRead s).2).host = s.host := by simp [ngLevelRead]
@[simp] theorem ngLevelRead_out : ((ngLevelRead s).2).out = s.out := by simp [ngLevelRead]
@[simp] theorem ngLevelRead_trace : ((ngLevelRead s).2).trace = s.trace ++ [.ngLevelRead (fifoFilled s.ng.fifo (drawWords s).1).length] := by simp [ngLevelRead]
@[simp] theorem ngLevelRead_env : ((ngLevelRead s).2).env = (drawWords s).2.env := by simp [ngLevelRead]
end

/-! What the working registers' release leaves of the sequencers. -/

@[simp] theorem freeDce_phase (d : Nat) (x : Dce) : (freeDce d x).phase = x.phase := rfl
@[simp] theorem freeUpdate_phase (d : Nat) (x : Dce) : (freeUpdate d x).phase = x.phase := rfl
@[simp] theorem freeUpdate_ctx (d : Nat) (x : Dce) : (freeUpdate d x).ctx = x.ctx := rfl
@[simp] theorem freeUpdate_size (d : Nat) (x : Dce) : (freeUpdate d x).size = x.size := rfl
@[simp] theorem freeUpdate_dstv (d : Nat) (x : Dce) : (freeUpdate d x).dstv = x.dstv := rfl
@[simp] theorem freeUpdate_cur (d : Nat) (x : Dce) : (freeUpdate d x).cur = x.cur := rfl
@[simp] theorem freeUpdate_rem (d : Nat) (x : Dce) : (freeUpdate d x).rem = x.rem := rfl
@[simp] theorem freeUpdate_seed (d : Nat) (x : Dce) : (freeUpdate d x).seed = x.seed := rfl
@[simp] theorem ngAfterDisable_enabled (d : Nat) (x : Ng) : (ngAfterDisable d x).enabled = false := rfl
@[simp] theorem ngAfterDisable_fifo (d : Nat) (x : Ng) :
    (ngAfterDisable d x).fifo = fifoFilled [] (Config.freeWords (d + 9)) := rfl
@[simp] theorem ngAfterReset_enabled (d : Nat) (x : Ng) : (ngAfterReset d x).enabled = x.enabled := rfl
@[simp] theorem ngAfterReset_fsm (d : Nat) (x : Ng) : (ngAfterReset d x).fsm = .reset := rfl
@[simp] theorem ngAfterReset_fifo (d : Nat) (x : Ng) : (ngAfterReset d x).fifo = [] := rfl
@[simp] theorem freeDce_ctx (d : Nat) (x : Dce) : (freeDce d x).ctx = x.ctx := rfl
@[simp] theorem freeEcInner_phase (d : Nat) (x : Ec) : (freeEcInner d x).phase = x.phase := rfl
@[simp] theorem freeEcInner_keySet (d : Nat) (x : Ec) : (freeEcInner d x).keySet = x.keySet := rfl
@[simp] theorem freeEcInner_ebuf (d : Nat) (x : Ec) : (freeEcInner d x).ebuf = x.ebuf := rfl
@[simp] theorem freeEcInner_estatus (d : Nat) (x : Ec) : (freeEcInner d x).estatus = x.estatus := rfl
@[simp] theorem freeEcResult_phase (d : Nat) (x : Ec) : (freeEcResult d x).phase = x.phase := rfl
@[simp] theorem freeEcResult_keySet (d : Nat) (x : Ec) : (freeEcResult d x).keySet = x.keySet := rfl

end Sys2Proof.Machine
end

