-- ==== Sys2Proof/Laws/Drive.lean ====
section
/-! SUPPORT. Outcomes in sequence, and what running the engines can do: rows compose, and whatever every
row keeps, a run, an advance and a started operation keep. -/

namespace Sys2Proof.Machine

/-! ## Outcomes in sequence -/

@[simp] theorem andThen_next (a : α) (f : α → Host.Outcome β Fault Refusal) :
    andThen (.next a) f = f a := rfl
@[simp] theorem andThen_fault (r : Fault) (f : α → Host.Outcome β Fault Refusal) :
    andThen (.fault r) f = .fault r := rfl
@[simp] theorem andThen_refused (r : Refusal) (f : α → Host.Outcome β Fault Refusal) :
    andThen (.refused r) f = .refused r := rfl

/-- A sequence answers a next state through the state between. -/
theorem andThen_eq_next {o : Host.Outcome α Fault Refusal} {f : α → Host.Outcome β Fault Refusal}
    {b : β} : andThen o f = .next b ↔ ∃ a, o = .next a ∧ f a = .next b := by
  cases o <;> simp [andThen]

/-- A sequence faults in its first part, or in its second from the state between. -/
theorem andThen_eq_fault {o : Host.Outcome α Fault Refusal} {f : α → Host.Outcome β Fault Refusal}
    {r : Fault} : andThen o f = .fault r ↔ o = .fault r ∨ ∃ a, o = .next a ∧ f a = .fault r := by
  cases o <;> simp [andThen]

/-- A sequence is refused in its first part, or in its second from the state between. -/
theorem andThen_eq_refused {o : Host.Outcome α Fault Refusal}
    {f : α → Host.Outcome β Fault Refusal} {r : Refusal} :
    andThen o f = .refused r ↔ o = .refused r ∨ ∃ a, o = .next a ∧ f a = .refused r := by
  cases o <;> simp [andThen]

/-- Sequencing is associative. -/
theorem andThen_assoc (o : Host.Outcome α Fault Refusal) (f : α → Host.Outcome β Fault Refusal)
    (g : β → Host.Outcome γ Fault Refusal) :
    andThen (andThen o f) g = andThen o fun a => andThen (f a) g := by
  cases o <;> rfl

/-! ## Runs -/

@[simp] theorem drive_zero (s : State) : drive 0 s = .next s := rfl

/-- A state that waits or has ended stays as it is. -/
theorem drive_of_waiting {s : State} (h : canAdvance s = false) (n : Nat) : drive n s = .next s := by
  cases n <;> simp [drive, h]

/-- One row of a run. -/
theorem drive_succ {s s' : State} (h : canAdvance s = true) (ht : tick s = .next s') (n : Nat) :
    drive (n + 1) s = drive n s' := by
  simp [drive, h, ht]

/-- A run of m + n rows is a run of m rows and then one of n. -/
theorem drive_add (m n : Nat) (s : State) : drive (m + n) s = andThen (drive m s) (drive n) := by
  induction m generalizing s with
  | zero => simp
  | succ m ih =>
    rw [Nat.add_right_comm]
    by_cases h : canAdvance s = true
    · simp only [drive, h, if_true, andThen_assoc]
      cases tick s with
      | next s' => simp [ih]
      | fault r => rfl
      | refused r => rfl
    · have h' : canAdvance s = false := by simpa using h
      rw [drive_of_waiting h', drive_of_waiting h', andThen_next, drive_of_waiting h']

/-- More rows than a run needs change nothing: a run that has ended or waits after m rows is the run of
any number of rows from m on. -/
theorem drive_enough {m n : Nat} {s t : State} (hm : drive m s = .next t)
    (hw : canAdvance t = false) (hmn : m ≤ n) : drive n s = .next t := by
  obtain ⟨k, rfl⟩ := Nat.le.dest hmn
  rw [drive_add, hm, andThen_next, drive_of_waiting hw]

/-- Whatever every row keeps, a run keeps. -/
theorem drive_keeps {P : State → Prop} (hP : ∀ s s', P s → tick s = .next s' → P s') {n : Nat}
    {s s' : State} (hs : P s) (h : drive n s = .next s') : P s' := by
  induction n generalizing s with
  | zero => cases h; exact hs
  | succ n ih =>
    unfold drive at h
    split at h
    · obtain ⟨a, ha, hd⟩ := andThen_eq_next.1 h
      exact ih (hP _ _ hs ha) hd
    · cases h; exact hs

/-- Where no row faults from a state that has P, and every row keeps P, no run faults. -/
theorem drive_no_fault {P : State → Prop} (hP : ∀ s s', P s → tick s = .next s' → P s')
    (hf : ∀ s r, P s → tick s ≠ .fault r) {n : Nat} {s : State} (hs : P s) (r : Fault) :
    drive n s ≠ .fault r := by
  induction n generalizing s with
  | zero => simp
  | succ n ih =>
    unfold drive
    split
    · intro h
      rcases andThen_eq_fault.1 h with h | ⟨a, ha, hd⟩
      · exact hf _ _ hs h
      · exact ih (hP _ _ hs ha) hd
    · simp

/-- Whatever every row keeps, a step of a busy machine keeps. -/
theorem advance_keeps {P : State → Prop} (hP : ∀ s s', P s → tick s = .next s' → P s')
    {s s' : State} (hs : P s) (h : advance s = .next s') : P s' := by
  obtain ⟨a, ha, hr⟩ := andThen_eq_next.1 h
  exact drive_keeps hP (hP _ _ hs ha) hr

/-- Whatever the start gives and every row keeps, a started operation keeps. -/
theorem whenIdle_keeps {P : State → Prop} (hP : ∀ s s', P s → tick s = .next s' → P s')
    {start : State → State} {s s' : State} (hs : idle s = true → P (start s))
    (h : whenIdle s start = .next s') : P s' := by
  unfold whenIdle at h
  split at h
  · exact drive_keeps hP (hs ‹_›) h
  · cases h

/-- An operation is started only where no engine runs. -/
theorem whenIdle_busy {s : State} (h : idle s = false) (start : State → State) :
    whenIdle s start = .refused .engineBusy := by
  simp [whenIdle, h]

/-- A pop of an empty FIFO faults; every other pop takes the head. -/
theorem ngFifoPop_next {s : State} {w : Word} {s' : State} (h : ngFifoPop s = .next (w, s')) :
    s.ng.fifo = w :: s'.ng.fifo := by
  unfold ngFifoPop at h
  split at h
  · next hf => cases h; simp [hf]
  · cases h

/-- A pop from a FIFO with a head. -/
theorem ngFifoPop_cons {s : State} {w : Word} {rest : List Word} (h : s.ng.fifo = w :: rest) :
    ngFifoPop s =
      .next (w, emit (.ngFifoPop w) { s with ng := { s.ng with fifo := rest } }) := by
  simp [ngFifoPop, h]

/-! ## The FIFO -/

/-- The words already in the FIFO stay at its head (the law of R22). -/
theorem fifoFilled_prefix (fifo ws : List Word) : fifo <+: fifoFilled fifo ws :=
  ⟨_, rfl⟩

/-- The FIFO never exceeds its capacity. -/
theorem fifoFilled_length_le {fifo ws : List Word} (h : fifo.length ≤ Config.fifoDepthWords) :
    (fifoFilled fifo ws).length ≤ Config.fifoDepthWords := by
  simp only [fifoFilled, List.length_append, List.length_take]
  omega

/-- R94: what a disable leaves in the FIFO is within its capacity. -/
theorem ngAfterDisable_fifo_length_le (d : Nat) (x : Ng) :
    (ngAfterDisable d x).fifo.length ≤ Config.fifoDepthWords :=
  fifoFilled_length_le (Nat.zero_le _)

/-- Words that fit are all taken. -/
theorem fifoFilled_of_fits {fifo ws : List Word}
    (h : fifo.length + ws.length ≤ Config.fifoDepthWords) : fifoFilled fifo ws = fifo ++ ws := by
  rw [fifoFilled, List.take_of_length_le (by omega)]

/-- R6: the FIFO holds at least twelve words. -/
theorem twelve_le_fifoDepthWords : 12 ≤ Config.fifoDepthWords := by
  unfold Config.fifoDepthWords; omega

/-- R6: the entropy bound is at least 48 bytes. -/
theorem le_entropyMaxBytes : 48 ≤ Config.entropyMaxBytes := by
  unfold Config.entropyMaxBytes; omega

/-- R6: the entropy bound is what the FIFO can hold at most. -/
theorem entropyMaxBytes_le : Config.entropyMaxBytes ≤ 4 * Config.fifoDepthWords := by
  have h12 := twelve_le_fifoDepthWords
  have := Nat.mod_lt Config.entropyMaxChoice (show 0 < 4 * Config.fifoDepthWords - 47 by omega)
  unfold Config.entropyMaxBytes
  omega

/-! ## NEED -/

/-- R19, R82: NEED holds the number of words where 30 bits do. -/
theorem needWord_toNat {esize : BitVec 32} (h : needOf esize < 2 ^ 30) (free : BitVec 30) :
    (needWord free esize).toNat = needOf esize := by
  rw [needWord, if_pos h, BitVec.toNat_ofNat, Nat.mod_eq_of_lt h]

/-- R90: what EC drains once NEED is written is the number of words, for every size. -/
theorem drainCount_needWord (esize : BitVec 32) (free : BitVec 30) :
    drainCount (needWord free esize) esize = needOf esize := by
  unfold drainCount
  split
  · next h => exact needWord_toNat h free
  · rfl

/-! ## Draws -/

theorem drawFsm_cons {s : State} {a : NgFsm} {rest : List NgFsm} (h : s.env.ngFsmIn = a :: rest) :
    drawFsm s = (a, { s with env := { s.env with ngFsmIn := rest } }) := by
  simp [drawFsm, h]

theorem drawWords_cons {s : State} {a : List Word} {rest : List (List Word)}
    (h : s.env.ngWordsIn = a :: rest) :
    drawWords s = (a, { s with env := { s.env with ngWordsIn := rest } }) := by
  simp [drawWords, h]

theorem drawAccStatus_cons {s : State} {a : AccStatus} {rest : List AccStatus}
    (h : s.env.accStatusIn = a :: rest) :
    drawAccStatus s = (a, { s with env := { s.env with accStatusIn := rest } }) := by
  simp [drawAccStatus, h]

/-- A status read while a job is in flight and the answer is queued. -/
theorem accStatusRead_cons {s : State} {j : Job} {a : AccStatus} {rest : List AccStatus}
    (hj : s.acc.job = some j) (h : s.env.accStatusIn = a :: rest) :
    accStatusRead s =
      (a, { s with
        acc := { s.acc with status := a }
        job := { s.job with
          outBlock := pushedBlock j (classify a) (Config.freeBits 128 s.env.draws) }
        trace := s.trace ++ [.accStatusRead a]
        env := { s.env with accStatusIn := rest, draws := s.env.draws + 1 } }) := by
  simp [accStatusRead, hj, drawAccStatus_cons h, emit, drawBlock]

end Sys2Proof.Machine
end

