-- ==== Sys2Proof/Laws/Encoding.lean ====
section
/-! SUPPORT. Fields of a command word (R61) and arguments of a port event, put together and taken apart. -/

namespace Sys2Proof

/-- R61: a command word is its four fields. -/
theorem cw_fields (w : CmdWord) :
    cwOp w ++ cwRsv w ++ BitVec.ofBool (cwF w) ++ cwN w = w := by
  simp only [cwOp, cwRsv, cwF, cwN]
  apply BitVec.eq_of_getLsbD_eq
  intro i hi
  simp only [BitVec.getLsbD_append, BitVec.getLsbD_extractLsb', BitVec.getLsbD_ofBool]
  by_cases h1 : i < 32
  · simp [h1]
  · by_cases h2 : i - 32 < 1
    · have : i = 32 := by omega
      subst this; simp
    · by_cases h3 : i - 32 - 1 < 23
      · simp [h1, h2, h3]; congr 1; omega
      · simp only [h1, h2, h3, decide_false,
          show i - 32 - 1 - 23 < 8 by omega, decide_true, Bool.true_and, if_false]
        congr 1; omega

/-- R61: the operation code of a packed word. -/
theorem cwOp_packCw (op : Byte) (f : Bool) (n : BitVec 32) : cwOp (packCw op f n) = op := by
  apply BitVec.eq_of_getLsbD_eq
  intro i hi
  simp only [cwOp, packCw, BitVec.getLsbD_append, BitVec.getLsbD_extractLsb',
    show ¬ 56 + i < 32 by omega, show ¬ 56 + i - 32 < 1 by omega,
    show ¬ 56 + i - 32 - 1 < 23 by omega, hi, decide_true, if_false,
    Bool.true_and, show 56 + i - 32 - 1 - 23 = i by omega]

/-- R61: RSV of a packed word is zero. -/
theorem cwRsv_packCw (op : Byte) (f : Bool) (n : BitVec 32) : cwRsv (packCw op f n) = 0 := by
  apply BitVec.eq_of_getLsbD_eq
  intro i hi
  simp only [cwRsv, packCw, BitVec.getLsbD_append, BitVec.getLsbD_extractLsb',
    show ¬ 33 + i < 32 by omega, show ¬ 33 + i - 32 < 1 by omega,
    show 33 + i - 32 - 1 < 23 by omega, if_false, if_true]
  simp

/-- R61: the flag of a packed word. -/
theorem cwF_packCw (op : Byte) (f : Bool) (n : BitVec 32) : cwF (packCw op f n) = f := by
  simp only [cwF, packCw, BitVec.getLsbD_append, BitVec.getLsbD_ofBool]
  simp

/-- R61: the operand of a packed word. -/
theorem cwN_packCw (op : Byte) (f : Bool) (n : BitVec 32) : cwN (packCw op f n) = n := by
  apply BitVec.eq_of_getLsbD_eq
  intro i hi
  simp only [cwN, packCw, BitVec.getLsbD_append, BitVec.getLsbD_extractLsb', Nat.zero_add, hi,
    decide_true, Bool.true_and, if_true]

/-- A 32-bit argument read back from its four bytes. -/
theorem takeWord_wordBytes (w : Word) (rest : List Byte) :
    takeWord (wordBytes w ++ rest) = .ok (w, rest) := by
  simp only [wordBytes, List.cons_append, List.nil_append, takeWord]
  congr 2
  apply BitVec.eq_of_getLsbD_eq
  intro i hi
  simp only [BitVec.getLsbD_append, BitVec.getLsbD_extractLsb']
  by_cases h1 : i < 8
  · simp [h1]
  · by_cases h2 : i - 8 < 8
    · simp [h1, h2]; congr 1; omega
    · by_cases h3 : i - 8 - 8 < 8
      · simp [h1, h2, h3]; congr 1; omega
      · simp only [h1, h2, h3, show i - 8 - 8 - 8 < 8 by omega, decide_false, decide_true,
          if_false, Bool.true_and]
        congr 1; omega

/-- An index argument read back from its four bytes. -/
theorem takeIndex_wordBytes (i : Fin 4) (rest : List Byte) :
    takeIndex (wordBytes (BitVec.ofNat 32 i.val) ++ rest) = .ok (i, rest) := by
  have h : (BitVec.ofNat 32 i.val).toNat = i.val := by simp; omega
  unfold takeIndex
  rw [takeWord_wordBytes]
  simp only [h]
  rw [dif_pos i.isLt]

end Sys2Proof
end

