-- ==== Sys2Proof/Laws/Tick.lean ====
section
/-! SUPPORT. What one row can do, said once: the three agents' rows (`tick_cases`), the outcomes of a
status read (`aesPoll_cases`), the rows of EC (`ecRow_cases`), of a poll iteration (`ecPoll_cases`), the key
load and the drain on a FIFO that has the words. -/

namespace Sys2Proof.Machine

/-- One row that answers a next state is a status read, a row of DCE, or a row of EC. -/
theorem tick_cases {s s' : State} (h : tick s = .next s') :
    (s.bce = .poll ∧
      (((aesPoll s).1 = .busy ∧ s' = (aesPoll s).2) ∨
        ((aesPoll s).1 = .done ∧ dceBlock (aesPoll s).2 = .next s') ∨
        ((aesPoll s).1 = .error ∧ s' = dceBlockFailed (aesPoll s).2))) ∨
    (s.bce = .idle ∧ s.ec.phase = .idle ∧ s' = dceRow s) ∨
    (s.bce = .idle ∧ s.ec.phase ≠ .idle ∧
      ∃ r t, ecRow s = .next (r, t) ∧
        s' = match r with
          | none => t
          | some st => dceEntropy st t) := by
  unfold tick at h
  cases hb : s.bce with
  | poll =>
    rw [hb] at h
    refine .inl ⟨rfl, ?_⟩
    simp only [tickAes] at h
    cases hc : (aesPoll s).1 with
    | busy => rw [hc] at h; exact .inl ⟨rfl, by cases h; rfl⟩
    | done => rw [hc] at h; exact .inr (.inl ⟨rfl, h⟩)
    | error => rw [hc] at h; exact .inr (.inr ⟨rfl, by cases h; rfl⟩)
  | idle =>
    rw [hb] at h
    by_cases he : s.ec.phase = .idle
    · rw [he] at h
      exact .inr (.inl ⟨rfl, he, by cases h; rfl⟩)
    · refine .inr (.inr ⟨rfl, he, ?_⟩)
      have h' : tickEc s = .next s' := by
        revert h
        cases hp : s.ec.phase <;> first | exact absurd hp he | exact id
      obtain ⟨⟨r, t⟩, hr, ht⟩ := andThen_eq_next.1 h'
      refine ⟨r, t, hr, ?_⟩
      cases r with
      | none => simpa using ht.symm
      | some st => simpa using ht.symm

/-- R115, R116: what one poll iteration of AES_ECB_ENCRYPT answers. -/
theorem aesPoll_cases (s : State) :
    (classify (accStatusRead s).1 = .busy ∧ aesPoll s = (.busy, (accStatusRead s).2)) ∨
    (classify (accStatusRead s).1 = .done ∧
      aesPoll s =
        (.done, aesReturn .ok (accStatusRead s).2.job.outBlock (accStatusRead s).2)) ∨
    (classify (accStatusRead s).1 = .error ∧
      ∃ b, aesPoll s = (.error, aesReturn .fail b (drawBlock (accStatusRead s).2).2)) := by
  unfold aesPoll
  cases hc : classify (accStatusRead s).1 with
  | busy => exact .inl ⟨rfl, by simp [hc]⟩
  | done => exact .inr (.inl ⟨rfl, by simp [hc]⟩)
  | error => exact .inr (.inr ⟨rfl, (drawBlock (accStatusRead s).2).1, by simp [hc]⟩)

/-- What a status read leaves alone. -/
theorem accStatusRead_frame (s : State) :
    (accStatusRead s).2.gen = s.gen ∧ (accStatusRead s).2.dce = s.dce ∧
    (accStatusRead s).2.ec = s.ec ∧ (accStatusRead s).2.bce = s.bce ∧
    (accStatusRead s).2.ng = s.ng ∧ (accStatusRead s).2.host = s.host ∧
    (accStatusRead s).2.out = s.out ∧
    (accStatusRead s).2.acc = { s.acc with status := (accStatusRead s).1 } ∧
    (accStatusRead s).2.trace = s.trace ++ [.accStatusRead (accStatusRead s).1] := by
  cases hj : s.acc.job with
  | none =>
    cases hr : s.acc.softresetDone with
    | true => simp [accStatusRead, accStatusReadIdle, hj, hr]; rw [← hj, ← hr]
    | false => simp [accStatusRead, accStatusReadIdle, hj, hr]
  | some j => simp [accStatusRead, hj]

/-- R86 to R88: the four outcomes of one poll iteration of EC. -/
theorem ecPoll_cases (s : State) :
    ((drawFsm s).1 = .error ∧
      ecPoll s = ecGoto .init
        { (ngFsmRead s).2 with ec := { s.ec with obsFsm := .error } }) ∨
    (((drawFsm s).1 = .reset ∨ (drawFsm s).1 = .startup) ∧
      ecPoll s = { (ngFsmRead s).2 with ec := { s.ec with obsFsm := (drawFsm s).1 } }) ∨
    ((drawFsm s).1 = .ready ∧
      ecPoll s = ecPollReady { (ngFsmRead s).2 with ec := { s.ec with obsFsm := .ready } }) := by
  have h1 : (ngFsmRead s).1 = (drawFsm s).1 := rfl
  unfold ecPoll
  cases ha : (drawFsm s).1 with
  | error => exact .inl ⟨rfl, by simp [h1, ha]⟩
  | reset => exact .inr (.inl ⟨.inl rfl, by simp [h1, ha]⟩)
  | startup => exact .inr (.inl ⟨.inr rfl, by simp [h1, ha]⟩)
  | ready => exact .inr (.inr ⟨rfl, by simp [h1, ha]⟩)

/-- R89: a key word loaded from a FIFO with a head. -/
theorem loadKeyWord_cons {s : State} {w : Word} {rest : List Word} (i : Fin 4)
    (h : s.ng.fifo = w :: rest) :
    loadKeyWord i s =
      .next { s with
        ng := { s.ng with fifo := rest, ck := s.ng.ck.set i.val w i.isLt }
        trace := s.trace ++ [.ngFifoPop w] ++ [.ngKeySet i w] } := by
  simp [loadKeyWord, ngFifoPop_cons h, ngKeySet, emit]

/-- R89: the key load from a FIFO that holds four words. -/
theorem ecKeyload_four {s : State} {w0 w1 w2 w3 : Word} {rest : List Word}
    (h : s.ng.fifo = w0 :: w1 :: w2 :: w3 :: rest) :
    ecKeyload s =
      .next { s with
        ec := { s.ec with keySet := true, phase := .poll }
        ng := { s.ng with fifo := rest, ck := #v[w0, w1, w2, w3] }
        trace := s.trace ++
          [.ngFifoPop w0, .ngKeySet 0 w0, .ngFifoPop w1, .ngKeySet 1 w1, .ngFifoPop w2,
            .ngKeySet 2 w2, .ngFifoPop w3, .ngKeySet 3 w3] } := by
  unfold ecKeyload
  rw [loadKeyWord_cons 0 h, andThen_next, loadKeyWord_cons 1 rfl, andThen_next,
    loadKeyWord_cons 2 rfl, andThen_next, loadKeyWord_cons 3 rfl, andThen_next]
  have hck : (((s.ng.ck.set 0 w0).set 1 w1).set 2 w2).set 3 w3 = #v[w0, w1, w2, w3] := by
    apply Vector.ext
    intro i hi
    have : i = 0 ∨ i = 1 ∨ i = 2 ∨ i = 3 := by omega
    rcases this with rfl | rfl | rfl | rfl <;> simp
  simp only [ecGoto]
  congr 1
  simp only [State.mk.injEq, Ng.mk.injEq, true_and, and_true]
  exact ⟨hck, by simp⟩

/-- The pop events of a list of words. -/
def popEvents (ws : List Word) : List Event := ws.map .ngFifoPop

/-- R90: `ws.length` pops from a FIFO that starts with `ws`. -/
theorem popWords_append {ws rest : List Word} {s : State} (h : s.ng.fifo = ws ++ rest) :
    popWords ws.length s =
      .next (ws, { s with
        ng := { s.ng with fifo := rest }
        trace := s.trace ++ popEvents ws }) := by
  induction ws generalizing s with
  | nil =>
    have : s.ng.fifo = rest := by simpa using h
    subst this
    simp [popWords, popEvents]
  | cons w ws ih =>
    have h' : s.ng.fifo = w :: (ws ++ rest) := by simpa using h
    simp only [List.length_cons, popWords, ngFifoPop_cons h', andThen_next]
    rw [ih (s := emit (.ngFifoPop w) { s with ng := { s.ng with fifo := ws ++ rest } }) rfl]
    simp [emit, popEvents]

/-- R90: the drain of a FIFO that holds NEED words. -/
theorem ecDrain_enough {s : State} (h : drainCount s.ec.need s.ec.esize ≤ s.ng.fifo.length) :
    ecDrain s =
      .next { s with
        ec := { s.ec with
          phase := .disable
          ebuf := drainBytes s.ec.esize.toNat (s.ng.fifo.take (drainCount s.ec.need s.ec.esize)) }
        ng := { s.ng with fifo := s.ng.fifo.drop (drainCount s.ec.need s.ec.esize) }
        trace := s.trace ++ popEvents (s.ng.fifo.take (drainCount s.ec.need s.ec.esize)) } := by
  have hpop := popWords_append (s := s)
    (List.take_append_drop (drainCount s.ec.need s.ec.esize) s.ng.fifo).symm
  rw [List.length_take, Nat.min_eq_left h] at hpop
  simp [ecDrain, hpop, ecGoto]

/-- R102: what a row of EC answers, by the phase it is in. -/
theorem ecRow_cases {s t : State} {r : Option Status} (h : ecRow s = .next (r, t)) :
    (s.ec.phase = .idle ∧ r = none ∧ t = s) ∨
    (s.ec.phase = .check ∧ (r, t) = ecCheck s) ∨
    (s.ec.phase = .enable ∧ r = none ∧ t = ecGoto .init (ngEnable s)) ∨
    (s.ec.phase = .init ∧ r = none ∧ t = ecGoto .poll (ngInit s)) ∨
    (s.ec.phase = .poll ∧ r = none ∧ t = ecPoll s) ∨
    (s.ec.phase = .keyload ∧ r = none ∧ ecKeyload s = .next t) ∨
    (s.ec.phase = .drain ∧ r = none ∧ ecDrain s = .next t) ∨
    (s.ec.phase = .disable ∧ r = none ∧ t = ecGoto .resp (ngDisable s)) ∨
    (s.ec.phase = .resp ∧ r = some .ok ∧ t = ecReturn .ok s) := by
  unfold ecRow at h
  cases hp : s.ec.phase <;> rw [hp] at h <;> simp only at h
  case keyload =>
    obtain ⟨a, ha, hr⟩ := andThen_eq_next.1 h
    cases hr; simp [ha]
  case drain =>
    obtain ⟨a, ha, hr⟩ := andThen_eq_next.1 h
    cases hr; simp [ha]
  case check => cases h' : ecCheck s; rw [h'] at h; cases h; simp
  all_goals cases h; simp

/-- R89: the key load can only answer by taking four words. -/
theorem ecKeyload_next {s t : State} (h : ecKeyload s = .next t) :
    ∃ w0 w1 w2 w3 rest, s.ng.fifo = w0 :: w1 :: w2 :: w3 :: rest := by
  unfold ecKeyload loadKeyWord at h
  obtain ⟨a, ha, h⟩ := andThen_eq_next.1 h
  obtain ⟨p, hp, hq⟩ := andThen_eq_next.1 ha
  cases hq
  obtain ⟨a, ha, h⟩ := andThen_eq_next.1 h
  obtain ⟨p1, hp1, hq⟩ := andThen_eq_next.1 ha
  cases hq
  obtain ⟨a, ha, h⟩ := andThen_eq_next.1 h
  obtain ⟨p2, hp2, hq⟩ := andThen_eq_next.1 ha
  cases hq
  obtain ⟨a, ha, h⟩ := andThen_eq_next.1 h
  obtain ⟨p3, hp3, hq⟩ := andThen_eq_next.1 ha
  have e0 := ngFifoPop_next hp
  have e1 := ngFifoPop_next hp1
  have e2 := ngFifoPop_next hp2
  have e3 := ngFifoPop_next hp3
  simp only [ngKeySet_ng] at e1 e2 e3
  exact ⟨_, _, _, _, _, by rw [e0, e1, e2, e3]⟩

/-- R90: `n` pops can only answer with the first n words. -/
theorem popWords_next {n : Nat} {s t : State} {ws : List Word} (h : popWords n s = .next (ws, t)) :
    n ≤ s.ng.fifo.length := by
  induction n generalizing s t ws with
  | zero => exact Nat.zero_le _
  | succ n ih =>
    unfold popWords at h
    obtain ⟨⟨w, s1⟩, ha, h⟩ := andThen_eq_next.1 h
    obtain ⟨⟨ws1, t1⟩, hb, h⟩ := andThen_eq_next.1 h
    have hn : n ≤ s1.ng.fifo.length := ih hb
    rw [ngFifoPop_next (s' := s1) ha]
    simp only [List.length_cons]
    omega

/-- R90: the drain can only answer where NEED words are in the FIFO. -/
theorem ecDrain_next {s t : State} (h : ecDrain s = .next t) :
    drainCount s.ec.need s.ec.esize ≤ s.ng.fifo.length := by
  unfold ecDrain at h
  obtain ⟨⟨ws, s1⟩, ha, _⟩ := andThen_eq_next.1 h
  exact popWords_next ha

end Sys2Proof.Machine
end

