-- ==== Sys2Proof/Laws/Runs.lean ====
section
/-! SUPPORT. Runs of one cipher job and of the rows around it: what a job on queued status reads leaves,
in UPDATE, in the output loop and by itself. -/

namespace Sys2Proof.Machine

open Sys2Proof.Claims

@[simp] theorem andThen_next_right (o : Host.Outcome α Fault Refusal) :
    andThen o (fun a => .next a) = o := by cases o <;> rfl

@[simp] theorem drive_one_zero (o : Host.Outcome State Fault Refusal) :
    andThen o (drive 0) = o := by cases o <;> rfl

/-- What no cipher job touches: EC, NG, the host port, the answers queued for NG. -/
def SameOutside (s t : State) : Prop :=
  t.ec = s.ec ∧ t.ng = s.ng ∧ t.host = s.host ∧ t.env.ngFsmIn = s.env.ngFsmIn ∧
    t.env.ngWordsIn = s.env.ngWordsIn

theorem SameOutside.refl (s : State) : SameOutside s s := ⟨rfl, rfl, rfl, rfl, rfl⟩

theorem SameOutside.trans {a b c : State} (h : SameOutside a b) (h' : SameOutside b c) :
    SameOutside a c :=
  ⟨h'.1.trans h.1, h'.2.1.trans h.2.1, h'.2.2.1.trans h.2.2.1, h'.2.2.2.1.trans h.2.2.2.1,
    h'.2.2.2.2.trans h.2.2.2.2⟩

/-- A polling Block Cipher Engine with a queued answer can advance. -/
theorem canAdvance_poll {s : State} {j : Job} {a : AccStatus} {rest : List AccStatus}
    (hb : s.bce = .poll) (hj : s.acc.job = some j) (hq : s.env.accStatusIn = a :: rest) :
    canAdvance s = true := by
  simp [canAdvance, idle, hb, accAnswerQueued, hj, hq]

/-- R115: busy reads pass; the job stays and nothing but the flags, out_block and the trace moves. -/
theorem drive_busy_reads {s : State} {j : Job} {bs rest : List AccStatus} (hb : s.bce = .poll)
    (hj : s.acc.job = some j) (hbusy : ∀ b ∈ bs, classify b = .busy)
    (hq : s.env.accStatusIn = bs ++ rest) :
    ∃ u, drive bs.length s = .next u ∧ u.gen = s.gen ∧ u.dce = s.dce ∧ u.bce = .poll ∧
      u.out = s.out ∧ u.acc = { s.acc with status := u.acc.status } ∧
      u.env.accStatusIn = rest ∧ u.trace = s.trace ++ bs.map .accStatusRead ∧
      SameOutside s u := by
  induction bs generalizing s with
  | nil => exact ⟨s, by simp, rfl, rfl, hb, rfl, rfl, by simpa using hq, by simp, .refl s⟩
  | cons b bs ih =>
    have hq' : s.env.accStatusIn = b :: (bs ++ rest) := by simpa using hq
    have hc : classify b = .busy := hbusy b (by simp)
    have htick : tick s = .next (accStatusRead s).2 := by
      simp [tick, hb, tickAes, aesPoll, accStatusRead_cons hj hq', hc]
    obtain ⟨u, hu, h1, h2, h3, h4, h5, h6, h7, h8⟩ :=
      ih (s := (accStatusRead s).2) (by rw [accStatusRead_cons hj hq']; exact hb)
        (by rw [accStatusRead_cons hj hq']; exact hj)
        (fun x hx => hbusy x (List.mem_cons_of_mem _ hx))
        (by rw [accStatusRead_cons hj hq'])
    refine ⟨u, ?_, ?_⟩
    · rw [List.length_cons, drive_succ (canAdvance_poll hb hj hq') htick, hu]
    · rw [accStatusRead_cons hj hq'] at h1 h2 h4 h5 h7 h8
      refine ⟨h1, h2, h3, h4, h5, h6, by simpa using h7, ?_⟩
      exact h8

/-- R115 to R117: a job whose reads end done: the row that ends it hands DCE the cipher output. -/
theorem drive_job_done {s : State} {j : Job} {as rest : List AccStatus} (hb : s.bce = .poll)
    (hj : s.acc.job = some j) (hd : JobDone as) (hq : s.env.accStatusIn = as ++ rest) :
    ∃ u, drive as.length s = dceBlock u ∧ u.gen = s.gen ∧
      u.dce = { s.dce with blk := jobResult j } ∧ u.bce = .idle ∧ u.out = s.out ∧
      u.acc.enabled = false ∧ u.acc.job = none ∧ u.env.accStatusIn = rest ∧
      u.trace = s.trace ++ as.map .accStatusRead ++
        [.accSoftreset, .accDisable, .ret opAes .ok] ∧ SameOutside s u := by
  obtain ⟨bs, st, rfl, hbusy, hdone⟩ := hd
  obtain ⟨v, hv, h1, h2, h3, h4, h5, h6, h7, h8⟩ :=
    drive_busy_reads (rest := st :: rest) hb hj hbusy (by simpa using hq)
  have hj' : v.acc.job = some j := by rw [h5]; exact hj
  have hread := accStatusRead_cons hj' h6
  refine ⟨(aesPoll v).2, ?_, ?_⟩
  · have htick : tick v = dceBlock (aesPoll v).2 := by
      simp [tick, h3, tickAes, aesPoll, hread, hdone]
    rw [List.length_append, List.length_singleton, drive_add, hv, andThen_next]
    simp [drive, canAdvance_poll h3 hj' h6, htick]
  · have hp : aesPoll v = (.done, aesReturn .ok (accStatusRead v).2.job.outBlock
        (accStatusRead v).2) := by simp [aesPoll, hread, hdone]
    rw [hp, hread]
    simp only [aesReturn_gen, aesReturn_dce, aesReturn_bce, aesReturn_out, aesReturn_acc,
      aesReturn_env, aesReturn_trace, SameOutside, aesReturn_ec, aesReturn_ng, aesReturn_host,
      hdone, pushedBlock, h1, h2, h4, h7]
    obtain ⟨e1, e2, e3, e4, e5⟩ := h8
    exact ⟨trivial, trivial, trivial, trivial, trivial, trivial, trivial, by simp, e1, e2, e3, e4, e5⟩

/-- R115, R116, R118: a job whose reads end in an error: the row that ends it tells DCE. -/
theorem drive_job_error {s : State} {j : Job} {as rest : List AccStatus} (hb : s.bce = .poll)
    (hj : s.acc.job = some j) (hd : JobError as) (hq : s.env.accStatusIn = as ++ rest) :
    ∃ u, drive as.length s = .next (dceBlockFailed u) ∧ u.gen = s.gen ∧
      u.dce = { s.dce with blk := u.dce.blk } ∧ u.bce = .idle ∧ u.out = s.out ∧
      u.acc.enabled = false ∧ u.acc.job = none ∧ u.env.accStatusIn = rest ∧
      u.trace = s.trace ++ as.map .accStatusRead ++
        [.accSoftreset, .accDisable, .ret opAes .fail] ∧ SameOutside s u := by
  obtain ⟨bs, st, rfl, hbusy, herr⟩ := hd
  obtain ⟨v, hv, h1, h2, h3, h4, h5, h6, h7, h8⟩ :=
    drive_busy_reads (rest := st :: rest) hb hj hbusy (by simpa using hq)
  have hj' : v.acc.job = some j := by rw [h5]; exact hj
  have hread := accStatusRead_cons hj' h6
  refine ⟨(aesPoll v).2, ?_, ?_⟩
  · have htick : tick v = .next (dceBlockFailed (aesPoll v).2) := by
      simp [tick, h3, tickAes, aesPoll, hread, herr]
    rw [List.length_append, List.length_singleton, drive_add, hv, andThen_next]
    simp [drive, canAdvance_poll h3 hj' h6, htick]
  · have hp : aesPoll v = (.error, aesReturn .fail (drawBlock (accStatusRead v).2).1
        (drawBlock (accStatusRead v).2).2) := by simp [aesPoll, hread, herr]
    rw [hp, hread]
    simp only [aesReturn_gen, aesReturn_dce, aesReturn_bce, aesReturn_out, aesReturn_acc,
      aesReturn_env, aesReturn_trace, SameOutside, aesReturn_ec, aesReturn_ng, aesReturn_host,
      drawBlock_gen, drawBlock_dce, drawBlock_ec, drawBlock_ng, drawBlock_host, drawBlock_out,
      drawBlock_trace, drawBlock_env, h1, h2, h4, h7]
    obtain ⟨e1, e2, e3, e4, e5⟩ := h8
    exact ⟨trivial, trivial, trivial, trivial, trivial, trivial, trivial, by simp, e1, e2, e3, e4, e5⟩

/-! ## The rows that call the cipher -/

theorem quiet_phase {s : State} (h : Quiet s) :
    s.dce.phase = .idle ∧ s.ec.phase = .idle ∧ s.bce = .idle ∧ s.dce.ctx = [] := by
  obtain ⟨h, h'⟩ := h
  simp only [idle, Bool.and_eq_true, beq_iff_eq] at h
  exact ⟨h.1.1, h.1.2, h.2, h'⟩

theorem idle_of {s : State} (h1 : s.dce.phase = .idle) (h2 : s.ec.phase = .idle)
    (h3 : s.bce = .idle) : idle s = true := by simp [idle, h1, h2, h3]

theorem canAdvance_of_idle {s : State} (h : idle s = true) : canAdvance s = false := by
  simp [canAdvance, h]

/-- A run that ends within its budget is what the operation answers. -/
theorem run_of_drive {s t : State} {n : Nat} (h : drive n s = .next t)
    (hw : canAdvance t = false) (hn : n ≤ budget s) : run s = .next t :=
  drive_enough h hw hn

theorem keyBytes_all (key : KeyBits) : keyBytes 32 key = bytesOf 32 key := by
  simp [keyBytes, bytesOf, List.take_of_length_le]

theorem jobResult_jobOf_32 (key : KeyBits) (b : Block) : jobResult (jobOf 32 key b) = aes256 key b := by
  simp [jobResult, jobOf, keyBytes_all, aes256]

/-- A DCE row taken while no other engine runs. -/
theorem tick_dce {s : State} (hb : s.bce = .idle) (he : s.ec.phase = .idle) :
    tick s = .next (dceRow s) := by simp [tick, hb, he]

theorem canAdvance_dce {s : State} (hb : s.bce = .idle) (he : s.ec.phase = .idle)
    (hp : s.dce.phase ≠ .idle) : canAdvance s = true := by
  simp [canAdvance, idle, hb, he, hp]

/-- R132: block k of UPDATE on reads that end done. -/
theorem drive_upd_block {s : State} {k : Fin 3} {as rest : List AccStatus} (hb : s.bce = .idle)
    (he : s.ec.phase = .idle) (hp : s.dce.phase = .upd k) (hd : JobDone as)
    (hq : s.env.accStatusIn = as ++ rest) :
    let v := inc128 (if k = 0 then s.gen.v else s.dce.vw)
    ∃ u, drive (as.length + 1) s = .next u ∧ u.gen = s.gen ∧
      u.dce = { s.dce with
        vw := v
        blk := u.dce.blk
        temp := putBlock s.dce.temp k (aes256 s.gen.key v)
        phase := afterUpd k } ∧
      u.bce = .idle ∧ u.out = s.out ∧ u.acc.enabled = false ∧ u.acc.job = none ∧
      u.env.accStatusIn = rest ∧ u.trace = s.trace ++ aesTrace 32 as .ok ∧ SameOutside s u := by
  intro v
  have hrow : dceRow s = aesStart 32 { s with dce := { s.dce with vw := v } } := by
    simp [dceRow, hp, dceUpd, v]
  have hbo : blockOperand { s with dce := { s.dce with vw := v } } = v := by
    simp [blockOperand, hp]
  obtain ⟨u, hu, h1, h2, h3, h4, h5, h6, h7, h8, h9⟩ :=
    drive_job_done (s := dceRow s) (as := as) (rest := rest) (j := jobOf 32 s.gen.key v)
      (by simp [hrow]) (by simp [hrow, hbo]) hd (by simpa [hrow] using hq)
  have hup : u.dce.phase = .upd k := by rw [h2, hrow]; simpa using hp
  have hne : s.dce.phase ≠ .idle := by rw [hp]; simp
  refine ⟨takeUpdBlock k u, ?_, ?_⟩
  · rw [drive_succ (canAdvance_dce hb he hne) (tick_dce hb he), hu]
    simp [dceBlock, hup]
  · simp only [takeUpdBlock_gen, takeUpdBlock_dce, takeUpdBlock_bce, takeUpdBlock_out,
      takeUpdBlock_acc, takeUpdBlock_env, takeUpdBlock_trace, SameOutside, takeUpdBlock_ec,
      takeUpdBlock_ng, takeUpdBlock_host]
    obtain ⟨e1, e2, e3, e4, e5⟩ := h9
    rw [hrow] at h1 h2 h4 h8 e1 e2 e3 e4 e5
    refine ⟨by simpa using h1, ?_, h3, by simpa using h4, h5, h6, h7, ?_, by simpa using e1,
      by simpa using e2, by simpa using e3, by simpa using e4, by simpa using e5⟩
    · rw [h2]; simp [jobResult_jobOf_32]
    · rw [h8]; simp [aesTrace]

/-- R132, R133: block k of UPDATE on reads that end in an error: the failure path of UPDATE follows. -/
theorem drive_upd_error {s : State} {k : Fin 3} {as rest : List AccStatus} (hb : s.bce = .idle)
    (he : s.ec.phase = .idle) (hp : s.dce.phase = .upd k) (hd : JobError as)
    (hq : s.env.accStatusIn = as ++ rest) :
    ∃ u, drive (as.length + 1) s = .next (raise .fail u) ∧ u.gen = s.gen ∧
      u.dce.phase = .upd k ∧ u.dce.ctx = s.dce.ctx ∧
      u.bce = .idle ∧ u.out = s.out ∧ u.acc.enabled = false ∧ u.acc.job = none ∧
      u.env.accStatusIn = rest ∧ u.trace = s.trace ++ aesTrace 32 as .fail ∧ SameOutside s u := by
  let v := inc128 (if k = 0 then s.gen.v else s.dce.vw)
  have hrow : dceRow s = aesStart 32 { s with dce := { s.dce with vw := v } } := by
    simp [dceRow, hp, dceUpd, v]
  have hbo : blockOperand { s with dce := { s.dce with vw := v } } = v := by
    simp [blockOperand, hp]
  obtain ⟨u, hu, h1, h2, h3, h4, h5, h6, h7, h8, h9⟩ :=
    drive_job_error (s := dceRow s) (as := as) (rest := rest) (j := jobOf 32 s.gen.key v)
      (by simp [hrow]) (by simp [hrow, hbo]) hd (by simpa [hrow] using hq)
  have hup : u.dce.phase = .upd k := by rw [h2, hrow]; simpa using hp
  have hne : s.dce.phase ≠ .idle := by rw [hp]; simp
  obtain ⟨e1, e2, e3, e4, e5⟩ := h9
  rw [hrow] at h1 h2 h4 h8 e1 e2 e3 e4 e5
  refine ⟨u, ?_, by simpa using h1, hup, ?_, h3, by simpa using h4, h5, h6, h7, ?_,
    by simpa using e1, by simpa using e2, by simpa using e3, by simpa using e4, by simpa using e5⟩
  · rw [drive_succ (canAdvance_dce hb he hne) (tick_dce hb he), hu]
    simp [dceBlockFailed, hup]
  · rw [h2]; simp
  · rw [h8]; simp [aesTrace]

/-- R142: one output block on reads that end done, before its bytes are written. -/
theorem drive_out_block {s : State} {j : Nat} {as rest : List AccStatus} (hb : s.bce = .idle)
    (he : s.ec.phase = .idle) (hp : s.dce.phase = .out j) (hr : s.dce.rem ≠ 0) (hd : JobDone as)
    (hq : s.env.accStatusIn = as ++ rest) :
    ∃ u, drive (as.length + 1) s = takeOutBlock j u ∧
      u.gen = { s.gen with v := inc128 s.gen.v } ∧
      u.dce = { s.dce with blk := aes256 s.gen.key (inc128 s.gen.v) } ∧
      u.bce = .idle ∧ u.out = s.out ∧ u.acc.enabled = false ∧ u.acc.job = none ∧
      u.env.accStatusIn = rest ∧ u.trace = s.trace ++ aesTrace 32 as .ok ∧ SameOutside s u := by
  have hrow : dceRow s = aesStart 32 { s with gen := { s.gen with v := inc128 s.gen.v } } := by
    simp only [dceRow, hp, dceOut]; exact if_neg hr
  have hbo : blockOperand { s with gen := { s.gen with v := inc128 s.gen.v } } = inc128 s.gen.v := by
    simp [blockOperand, hp]
  obtain ⟨u, hu, h1, h2, h3, h4, h5, h6, h7, h8, h9⟩ :=
    drive_job_done (s := dceRow s) (as := as) (rest := rest)
      (j := jobOf 32 s.gen.key (inc128 s.gen.v))
      (by simp [hrow]) (by simp [hrow, hbo]) hd (by simpa [hrow] using hq)
  have hup : u.dce.phase = .out j := by rw [h2, hrow]; simpa using hp
  have hne : s.dce.phase ≠ .idle := by rw [hp]; simp
  obtain ⟨e1, e2, e3, e4, e5⟩ := h9
  rw [hrow] at h1 h2 h4 h8 e1 e2 e3 e4 e5
  refine ⟨u, ?_, by simpa using h1, ?_, h3, by simpa using h4, h5, h6, h7, ?_,
    by simpa using e1, by simpa using e2, by simpa using e3, by simpa using e4, by simpa using e5⟩
  · rw [drive_succ (canAdvance_dce hb he hne) (tick_dce hb he), hu]
    simp [dceBlock, hup]
  · rw [h2]; simp [jobResult_jobOf_32]
  · rw [h8]; simp [aesTrace]

/-- R144: one output block on reads that end in an error. -/
theorem drive_out_error {s : State} {j : Nat} {as rest : List AccStatus} (hb : s.bce = .idle)
    (he : s.ec.phase = .idle) (hp : s.dce.phase = .out j) (hr : s.dce.rem ≠ 0) (hd : JobError as)
    (hq : s.env.accStatusIn = as ++ rest) :
    ∃ u, drive (as.length + 1) s = .next (raise .fail u) ∧
      u.gen = { s.gen with v := inc128 s.gen.v } ∧ u.dce.phase = .out j ∧
      u.dce.ctx = s.dce.ctx ∧ u.bce = .idle ∧ u.out = s.out ∧ u.acc.enabled = false ∧
      u.acc.job = none ∧ u.env.accStatusIn = rest ∧
      u.trace = s.trace ++ aesTrace 32 as .fail ∧ SameOutside s u := by
  have hrow : dceRow s = aesStart 32 { s with gen := { s.gen with v := inc128 s.gen.v } } := by
    simp only [dceRow, hp, dceOut]; exact if_neg hr
  have hbo : blockOperand { s with gen := { s.gen with v := inc128 s.gen.v } } = inc128 s.gen.v := by
    simp [blockOperand, hp]
  obtain ⟨u, hu, h1, h2, h3, h4, h5, h6, h7, h8, h9⟩ :=
    drive_job_error (s := dceRow s) (as := as) (rest := rest)
      (j := jobOf 32 s.gen.key (inc128 s.gen.v))
      (by simp [hrow]) (by simp [hrow, hbo]) hd (by simpa [hrow] using hq)
  have hup : u.dce.phase = .out j := by rw [h2, hrow]; simpa using hp
  have hne : s.dce.phase ≠ .idle := by rw [hp]; simp
  obtain ⟨e1, e2, e3, e4, e5⟩ := h9
  rw [hrow] at h1 h2 h4 h8 e1 e2 e3 e4 e5
  refine ⟨u, ?_, by simpa using h1, hup, ?_, h3, by simpa using h4, h5, h6, h7, ?_,
    by simpa using e1, by simpa using e2, by simpa using e3, by simpa using e4, by simpa using e5⟩
  · rw [drive_succ (canAdvance_dce hb he hne) (tick_dce hb he), hu]
    simp [dceBlockFailed, hup]
  · rw [h2]; simp
  · rw [h8]; simp [aesTrace]

end Sys2Proof.Machine
end

