-- ==== Sys2Proof/Laws/Entropy.lean ====
section
/-! SUPPORT. Runs of EC: one row of a run, and the run of GET_ENTROPY on answers that suffice. -/

namespace Sys2Proof.Machine

open Sys2Proof.Claims

/-- An Entropy Conditioner row taken while no job is polled. -/
theorem tick_ec {s t : State} (hb : s.bce = .idle) (hp : s.ec.phase ≠ .idle)
    (h : ecRow s = .next (none, t)) : tick s = .next t := by
  unfold tick tickEc
  rw [hb]
  cases he : s.ec.phase <;> first | exact absurd he hp | simp [h]

/-- The row of EC in which GET_ENTROPY returns. -/
theorem tick_ec_return {s t : State} {st : Status} (hb : s.bce = .idle) (hp : s.ec.phase ≠ .idle)
    (h : ecRow s = .next (some st, t)) : tick s = .next (dceEntropy st t) := by
  unfold tick tickEc
  rw [hb]
  cases he : s.ec.phase <;> first | exact absurd he hp | simp [h]

/-- EC can advance where a poll finds its answers queued. -/
theorem canAdvance_ec {s : State} (hb : s.bce = .idle) (hp : s.ec.phase ≠ .idle)
    (hq : s.ec.phase = .poll → ngAnswerQueued s.env = true) : canAdvance s = true := by
  simp only [canAdvance, idle, hb]
  cases he : s.ec.phase <;> simp_all

/-- One EC row of a run. -/
theorem drive_ec {s t : State} (hb : s.bce = .idle) (hp : s.ec.phase ≠ .idle)
    (hq : s.ec.phase = .poll → ngAnswerQueued s.env = true)
    (h : ecRow s = .next (none, t)) (n : Nat) : drive (n + 1) s = drive n t :=
  drive_succ (canAdvance_ec hb hp hq) (tick_ec hb hp h) n

/-- R86: a poll iteration on READY with words that fit. -/
theorem ecPoll_ready {s : State} {fs : List NgFsm} {ws : List Word} {wss : List (List Word)}
    (hf : s.env.ngFsmIn = .ready :: fs) (hw : s.env.ngWordsIn = ws :: wss)
    (hfit : s.ng.fifo.length + ws.length ≤ Config.fifoDepthWords) :
    ecPoll s =
      { s with
        ec := { s.ec with
          obsFsm := .ready, obsLevel := (s.ng.fifo ++ ws).length,
          phase := pollPhase s.ec.keySet (drainCount s.ec.need s.ec.esize) (s.ng.fifo ++ ws).length }
        ng := { s.ng with fsm := .ready, fifo := s.ng.fifo ++ ws }
        trace := s.trace ++ [.ngFsmRead .ready, .ngLevelRead (s.ng.fifo ++ ws).length]
        env := { s.env with ngFsmIn := fs, ngWordsIn := wss } } := by
  simp [ecPoll, ngFsmRead, drawFsm_cons hf, ecPollReady, ngLevelRead, drawWords, hw, emit, ecGoto,
    fifoFilled_of_fits hfit]

/-- R45, R82: what no row of EC touches. -/
def EcFrame (s u : State) : Prop :=
  u.gen = s.gen ∧ u.dce = s.dce ∧ u.bce = s.bce ∧ u.acc = s.acc ∧ u.job = s.job ∧ u.host = s.host ∧
    u.out = s.out

theorem EcFrame.trans {a b c : State} (h : EcFrame a b) (h' : EcFrame b c) : EcFrame a c :=
  ⟨h'.1.trans h.1, h'.2.1.trans h.2.1, h'.2.2.1.trans h.2.2.1, h'.2.2.2.1.trans h.2.2.2.1,
    h'.2.2.2.2.1.trans h.2.2.2.2.1, h'.2.2.2.2.2.1.trans h.2.2.2.2.2.1,
    h'.2.2.2.2.2.2.trans h.2.2.2.2.2.2⟩

/-- R82 to R85: GET_ENTROPY from its size check to its first poll. -/
theorem drive_ec_open {s : State} (hb : s.bce = .idle) (hp : s.ec.phase = .check)
    (ho : s.ec.esize.toNat ≤ Config.entropyMaxBytes) :
    ∃ u, drive 3 s = .next u ∧
      u.ec = { s.ec with
        need := needWord (Config.freeBits 30 s.env.draws) s.ec.esize
        keySet := false
        phase := .poll } ∧
      u.ng.enabled = true ∧ u.ng.fifo = [] ∧
      u.trace = s.trace ++ [.ngEnable, .ngReset,
        .ngConfigure Config.ngClkdiv Config.ngOffTimer Config.ngInitWait Config.ngBlocksPerCycle] ∧
      u.env = { s.env with draws := u.env.draws } ∧
      EcFrame s u := by
  have hov : ¬ oversized s.ec.esize = true := by simp [oversized]; omega
  obtain ⟨s1, hs1⟩ : ∃ x, x = ecGoto .enable
      { s with
        ec := { s.ec with need := needWord (Config.freeBits 30 s.env.draws) s.ec.esize }
        env := { s.env with draws := s.env.draws + 1 } } := ⟨_, rfl⟩
  have hchk : ecRow s = .next (none, s1) := by
    simp only [ecRow, hp, ecCheck]
    rw [if_neg hov, ← hp, hs1]
  refine ⟨ecGoto .poll (ngInit (ecGoto .init (ngEnable s1))), ?_, ?_⟩
  · rw [drive_ec (n := 2) hb (by simp [hp]) (by simp [hp]) hchk,
      drive_ec (n := 1) (s := s1) (t := ecGoto .init (ngEnable s1)) (by simpa [hs1] using hb)
        (by simp [hs1]) (by simp [hs1]) (by simp [ecRow, hs1]),
      drive_ec (n := 0) (t := ecGoto .poll (ngInit (ecGoto .init (ngEnable s1))))
        (s := ecGoto .init (ngEnable s1)) (by simpa [hs1] using hb)
        (by simp) (by simp) (by simp [ecRow])]
    rfl
  · simp [EcFrame, hs1, ngInit, ngReset, ngAfterReset, freeNgSetup, ngConfigure, ngEnable, ecGoto, emit]

/-- R86 to R90: from the first poll on answers that suffice, up to the return. -/
theorem drive_ec_deliver {s : State} {ks ws : List Word} (hb : s.bce = .idle)
    (hp : s.ec.phase = .poll) (hks : s.ec.keySet = false) (hf : s.ng.fifo = [])
    (hneed : drainCount s.ec.need s.ec.esize = needOf s.ec.esize)
    (ha : EntropyAnswers s.env s.ec.esize ks ws) :
    ∃ u, drive 5 s = .next u ∧
      u.ec.phase = .resp ∧ u.ec.keySet = true ∧
      u.ec.ebuf = drainBytes s.ec.esize.toNat (ws.take (needOf s.ec.esize)) ∧
      u.ng.enabled = false ∧ u.ng.fifo.length ≤ Config.fifoDepthWords ∧
      u.env.accStatusIn = s.env.accStatusIn ∧
      u.trace = s.trace ++ [.ngFsmRead .ready, .ngLevelRead (s.env.ngWordsIn.headD []).length] ++
        ((ks.zip [0, 1, 2, 3]).flatMap fun p => [.ngFifoPop p.1, .ngKeySet p.2 p.1]) ++
        [.ngFsmRead .ready, .ngLevelRead ws.length] ++ (ws.take (needOf s.ec.esize)).map .ngFifoPop ++
        [.ngDisable] ∧
      EcFrame s u := by
  obtain ⟨first, more, fs, wss, hq, hw, hk, rfl, hfit, hfit2, h4, hn⟩ := ha
  match ks, hk with
  | [w0, w1, w2, w3], _ =>
  have hp1 : pollPhase false (needOf s.ec.esize) (w0 :: w1 :: w2 :: w3 :: first).length = .keyload := by
    simp [pollPhase, Config.fifoMinWords]
  have hp2 : pollPhase true (needOf s.ec.esize) (first ++ more).length = .drain := by
    have hmin : ¬ (first ++ more).length < Config.fifoMinWords := Nat.not_lt.2 h4
    rw [pollPhase, if_neg hmin, if_neg (by simp), if_neg (Nat.not_lt.2 hn)]
  have e1 := ecPoll_ready (s := s) hq hw (by rw [hf]; simp; omega)
  rw [hf, hks, List.nil_append, List.cons_append, List.cons_append, List.cons_append,
    List.cons_append, List.nil_append, hneed, hp1] at e1
  generalize hs1 : ecPoll s = s1 at e1
  have r1 : ecRow s = .next (none, s1) := by simp [ecRow, hp, hs1]
  have k1 := ecKeyload_four (s := s1) (w0 := w0) (w1 := w1) (w2 := w2) (w3 := w3) (rest := first)
    (by rw [e1])
  generalize hs2 : State.mk _ _ _ _ _ _ _ _ _ _ _ = s2 at k1
  have r2 : ecRow s1 = .next (none, s2) := by
    have : s1.ec.phase = .keyload := by rw [e1]
    simp [ecRow, this, k1]
  have e2 := ecPoll_ready (s := s2) (fs := fs) (ws := more) (wss := wss) (by rw [← hs2, e1])
    (by rw [← hs2, e1]) (by simpa [← hs2] using hfit2)
  rw [show s2.ec.keySet = true by rw [← hs2], show drainCount s2.ec.need s2.ec.esize = needOf s.ec.esize by rw [← hs2, e1]; exact hneed,
    show s2.ng.fifo = first by rw [← hs2], hp2] at e2
  generalize hs3 : ecPoll s2 = s3 at e2
  have r3 : ecRow s2 = .next (none, s3) := by
    have : s2.ec.phase = .poll := by rw [← hs2]
    simp [ecRow, this, hs3]
  have en : drainCount s3.ec.need s3.ec.esize = needOf s.ec.esize := by rw [e2, ← hs2, e1]; exact hneed
  have k3 := ecDrain_enough (s := s3) (by rw [en, e2]; exact hn)
  generalize hs4 : State.mk _ _ _ _ _ _ _ _ _ _ _ = s4 at k3
  have r4 : ecRow s3 = .next (none, s4) := by
    have : s3.ec.phase = .drain := by rw [e2]
    simp [ecRow, this, k3]
  have r5 : ecRow s4 = .next (none, ecGoto .resp (ngDisable s4)) := by
    have : s4.ec.phase = .disable := by rw [← hs4]
    simp [ecRow, this]
  have hb1 : s1.bce = .idle := by rw [e1]; exact hb
  have hb2 : s2.bce = .idle := by rw [← hs2]; exact hb1
  have hb3 : s3.bce = .idle := by rw [e2]; exact hb2
  have hb4 : s4.bce = .idle := by rw [← hs4]; exact hb3
  refine ⟨ecGoto .resp (ngDisable s4), ?_, ?_⟩
  · rw [drive_ec (n := 4) hb (by simp [hp]) (by simp [ngAnswerQueued, hq, hw]) r1,
      drive_ec (n := 3) hb1 (by rw [e1]; simp) (by rw [e1]; simp) r2,
      drive_ec (n := 2) hb2 (by simp [← hs2]) (by simp [← hs2, e1, ngAnswerQueued]) r3,
      drive_ec (n := 1) hb3 (by simp [e2]) (by simp [e2]) r4,
      drive_ec (n := 0) hb4 (by simp [← hs4]) (by simp [← hs4]) r5]
    rfl
  · have ee : s3.ec.esize = s.ec.esize := by rw [e2, ← hs2, e1]
    have ef : s3.ng.fifo = first ++ more := by rw [e2]
    rw [← hs4, en, ee, ef]
    refine ⟨rfl, ?_, rfl, rfl, ngAfterDisable_fifo_length_le _ _, ?_, ?_, ?_⟩
    · simp [e2, ← hs2]
    · simp [e2, ← hs2, e1]
    · simp [e2, ← hs2, e1, hw, popEvents, -List.map_append, -List.map_take]
    · simp [EcFrame, e2, ← hs2, e1]

/-- R82 to R90: the run of GET_ENTROPY on answers that suffice, up to its return. -/
theorem drive_entropy {s : State} {ks ws : List Word} (hb : s.bce = .idle)
    (hp : s.ec.phase = .check) (ho : s.ec.esize.toNat ≤ Config.entropyMaxBytes)
    (ha : EntropyAnswers s.env s.ec.esize ks ws) :
    ∃ u, drive 8 s = .next u ∧ EcFrame s u ∧ u.ec.phase = .resp ∧ u.ec.keySet = true ∧
      u.ec.ebuf = drainBytes s.ec.esize.toNat (ws.take (needOf s.ec.esize)) ∧
      u.ng.enabled = false ∧ u.ng.fifo.length ≤ Config.fifoDepthWords ∧
      u.env.accStatusIn = s.env.accStatusIn ∧
      u.trace = s.trace ++
        [.ngEnable, .ngReset,
          .ngConfigure Config.ngClkdiv Config.ngOffTimer Config.ngInitWait Config.ngBlocksPerCycle,
          .ngFsmRead .ready, .ngLevelRead (s.env.ngWordsIn.headD []).length] ++
        ((ks.zip [0, 1, 2, 3]).flatMap fun p => [.ngFifoPop p.1, .ngKeySet p.2 p.1]) ++
        [.ngFsmRead .ready, .ngLevelRead ws.length] ++ (ws.take (needOf s.ec.esize)).map .ngFifoPop ++
        [.ngDisable] := by
  obtain ⟨v, hv, hec, hen, hfi, htr, henv, hfr⟩ := drive_ec_open hb hp ho
  have hbv : v.bce = .idle := hfr.2.2.1.trans hb
  obtain ⟨u, hu, a1, a2, a3, a5, a6, a7, a8, a9⟩ :=
    drive_ec_deliver (s := v) (ks := ks) (ws := ws) hbv (by rw [hec]) (by rw [hec]) hfi
      (by rw [hec]; exact drainCount_needWord _ _) (by rw [henv, hec]; exact ha)
  refine ⟨u, ?_, hfr.trans a9, a1, a2, ?_, a5, a6, ?_, ?_⟩
  · rw [show (8 : Nat) = 3 + 5 from rfl, drive_add, hv, andThen_next, hu]
  · rw [a3, hec]
  · rw [a7, henv]
  · rw [a8, htr, henv, hec]; simp

end Sys2Proof.Machine
end

