-- ==== Sys2Proof/Laws/Frames.lean ====
section
/-! SUPPORT. What the failure path, a row of EC and any row at all leave alone, and how a property is
carried through a step. -/

namespace Sys2Proof.Machine

/-- R170, R180: the failure path writes no part of GeneratorState and no collaborator. -/
theorem raise_frame (st : Status) (s : State) :
    (raise st s).gen = s.gen ∧ (raise st s).dce.phase = .idle ∧ (raise st s).dce.ctx = [] ∧
    (raise st s).bce = s.bce ∧ (raise st s).ec.phase = s.ec.phase ∧ (raise st s).ng = s.ng ∧
    (raise st s).acc = s.acc ∧ (raise st s).out = s.out ∧
    (raise st s).host.issue = s.host.issue ∧ (raise st s).host.cmd = s.host.cmd := by
  unfold raise
  simp only
  split <;> simp

/-- R45, R102: a row of EC touches EC and NG alone. -/
theorem ecRow_frame {s t : State} {r : Option Status} (h : ecRow s = .next (r, t)) :
    t.gen = s.gen ∧ t.dce = s.dce ∧ t.bce = s.bce ∧ t.acc = s.acc ∧ t.job = s.job ∧
    t.host = s.host ∧ t.out = s.out := by
  rcases ecRow_cases h with ⟨_, _, rfl⟩ | ⟨_, h⟩ | ⟨_, _, rfl⟩ | ⟨_, _, rfl⟩ | ⟨_, _, rfl⟩ |
    ⟨_, _, h⟩ | ⟨_, _, h⟩ | ⟨_, _, rfl⟩ | ⟨_, _, rfl⟩
  · exact ⟨rfl, rfl, rfl, rfl, rfl, rfl, rfl⟩
  · unfold ecCheck at h
    split at h <;> (cases h; simp)
  · simp
  · simp
  · rcases ecPoll_cases s with ⟨_, h'⟩ | ⟨_, h'⟩ | ⟨_, h'⟩ <;> rw [h'] <;> simp [ecPollReady]
  · obtain ⟨w0, w1, w2, w3, rest, hf⟩ := ecKeyload_next h
    rw [ecKeyload_four hf] at h
    cases h; exact ⟨rfl, rfl, rfl, rfl, rfl, rfl, rfl⟩
  · rw [ecDrain_enough (ecDrain_next h)] at h
    cases h; exact ⟨rfl, rfl, rfl, rfl, rfl, rfl, rfl⟩
  · simp
  · simp

/-- R28: CMD and what waits at the host port stay as they are. -/
def HostKept (s t : State) : Prop := t.host.issue = s.host.issue ∧ t.host.cmd = s.host.cmd

theorem HostKept.trans {a b c : State} (h : HostKept a b) (h' : HostKept b c) : HostKept a c :=
  ⟨h'.1.trans h.1, h'.2.trans h.2⟩

theorem raise_host (st : Status) (s : State) : HostKept s (raise st s) := by
  obtain ⟨_, _, _, _, _, _, _, _, h1, h2⟩ := raise_frame st s
  exact ⟨h1, h2⟩

theorem dceRow_host (s : State) : HostKept s (dceRow s) := by
  unfold dceRow
  split
  · exact ⟨rfl, rfl⟩
  · unfold dceCheck
    split
    · exact raise_host _ _
    · split
      · simp [HostKept]
      · split <;> simp [HostKept]
  · simp [HostKept]
  · simp [HostKept]
  · simp [HostKept, dceUpd]
  · unfold dceCommit
    simp only
    split
    · unfold reseedReturn
      simp only
      split
      · split <;> simp [HostKept]
      · simp [HostKept]
      · simp [HostKept]
    · simp [HostKept]
    · simp [HostKept]
  · unfold dceReseedTest
    split <;> simp [HostKept]
  · unfold dceOut
    split <;> simp [HostKept]
  · simp [HostKept]
  · simp [HostKept]

theorem dceBlock_host {s t : State} (h : dceBlock s = .next t) : HostKept s t := by
  unfold dceBlock at h
  split at h
  · cases h; simp [HostKept]
  · unfold takeOutBlock at h
    obtain ⟨a, ha, h⟩ := andThen_eq_next.1 h
    cases h
    obtain ⟨_, rfl⟩ := outWrite_next ha
    simp [HostKept]
  · cases h; exact ⟨rfl, rfl⟩

theorem dceBlockFailed_host (s : State) : HostKept s (dceBlockFailed s) := by
  unfold dceBlockFailed
  split
  · exact raise_host _ _
  · exact raise_host _ _
  · exact ⟨rfl, rfl⟩

theorem dceEntropy_host (st : Status) (s : State) : HostKept s (dceEntropy st s) := by
  unfold dceEntropy
  split
  · cases st
    · simp [HostKept]
    · exact raise_host _ _
    · exact raise_host _ _
  · exact ⟨rfl, rfl⟩

/-- R28: no row writes CMD or what waits at the host port. -/
theorem tick_host {s t : State} (h : tick s = .next t) : HostKept s t := by
  have hst : HostKept s (accStatusRead s).2 := by
    have := (accStatusRead_frame s).2.2.2.2.2.1
    simp [HostKept, this]
  rcases tick_cases h with ⟨_, h⟩ | ⟨_, _, rfl⟩ | ⟨_, _, r, u, hr, rfl⟩
  · rcases aesPoll_cases s with ⟨_, h'⟩ | ⟨_, h'⟩ | ⟨_, b, h'⟩ <;> rw [h'] at h <;> simp at h
    · rw [h]; exact hst
    · exact (hst.trans (by simp [HostKept])).trans (dceBlock_host h)
    · rw [h]
      exact (hst.trans (b := (accStatusRead s).2)
        (c := aesReturn .fail b (drawBlock (accStatusRead s).2).2) (by simp [HostKept])).trans
        (dceBlockFailed_host _)
  · exact dceRow_host s
  · have hu : HostKept s u := by
      obtain ⟨_, _, _, _, _, h6, _⟩ := ecRow_frame hr
      exact ⟨by rw [h6], by rw [h6]⟩
    cases r with
    | none => exact hu
    | some st => exact hu.trans (dceEntropy_host st u)

/-- A property kept by every row, by every instruction, by taking an issued operation from the queue, by
the write to CMD and by the rejection of a word, is kept by every step. -/
theorem step_keeps {P : State → Prop} (htick : ∀ s s', P s → tick s = .next s' → P s')
    (hexec : ∀ i s s', P s → exec i s = .next s' → P s')
    (hhost : ∀ s issue cmd, P s → P { s with host := { s.host with issue := issue, cmd := cmd } })
    (hrej : ∀ s, P s → P (rejectWord s)) {s s' : State} (hs : P s) (h : step s = .next s') :
    P s' := by
  unfold step at h
  split at h
  · unfold issueNext at h
    split at h
    · cases h; exact hs
    · next x rest hx =>
      cases x with
      | host w =>
        simp only [issueOne, hostWrite] at h
        split at h
        · exact hexec _ _ _ (hhost s rest w hs) h
        · cases h; exact hrej _ (hhost s rest w hs)
      | engine c =>
        simp only [issueOne, engineIssue] at h
        split at h
        · exact hexec _ _ _ (hhost s rest s.host.cmd hs) h
        · cases h
  · exact advance_keeps htick hs h

end Sys2Proof.Machine
end

