-- ==== Sys2Proof/Laws/Update.lean ====
section
/-! SUPPORT. Runs of UPDATE: k cipher calls that end done (R132), the commit, and the failure path of a
call that ends in an error (R133). -/

namespace Sys2Proof.Machine

open Sys2Proof.Claims

/-! ## Answers of several jobs -/

/-- No job has no answers. -/
theorem jobsDone_zero {as : List AccStatus} (h : JobsDone 0 as) : as = [] := by
  obtain ⟨ls, hl, _, rfl⟩ := h
  simp [List.length_eq_zero_iff.1 hl]

/-- The answers of m + n jobs are those of m jobs and then those of n. -/
theorem jobsDone_add {m n : Nat} {as : List AccStatus} (h : JobsDone (m + n) as) :
    ∃ bs cs, JobsDone m bs ∧ JobsDone n cs ∧ as = bs ++ cs := by
  obtain ⟨ls, hl, hd, rfl⟩ := h
  refine ⟨(ls.take m).flatten, (ls.drop m).flatten, ⟨_, by simp; omega, ?_, rfl⟩,
    ⟨_, by simp; omega, ?_, rfl⟩, ?_⟩
  · exact fun l h => hd l (List.mem_of_mem_take h)
  · exact fun l h => hd l (List.mem_of_mem_drop h)
  · rw [← List.flatten_append, List.take_append_drop]

/-- The answers of one job. -/
theorem jobsDone_one {as : List AccStatus} (h : JobsDone 1 as) : JobDone as := by
  obtain ⟨ls, hl, hd, rfl⟩ := h
  match ls, hl with
  | [l], _ => simpa using hd l (by simp)

/-- A job's answers are never empty, so n jobs have at least n answers. -/
theorem jobsDone_length {n : Nat} {as : List AccStatus} (h : JobsDone n as) : n ≤ as.length := by
  induction n generalizing as with
  | zero => exact Nat.zero_le _
  | succ n ih =>
    obtain ⟨bs, cs, hb, hc, rfl⟩ := jobsDone_add h
    obtain ⟨ds, st, rfl, _⟩ := jobsDone_one hc
    have := ih hb
    simp; omega

/-! ## Call counts -/

/-- How often an operation is called in a list of events. -/
def callsIn (op : Byte) (es : List Event) : Nat :=
  es.countP fun e =>
    match e with
    | .call o _ _ => o == op
    | _ => false

@[simp] theorem callsIn_nil (op : Byte) : callsIn op [] = 0 := rfl

@[simp] theorem callsIn_append (op : Byte) (a b : List Event) :
    callsIn op (a ++ b) = callsIn op a + callsIn op b := by simp [callsIn]

/-- One event more. -/
@[simp] theorem callsIn_cons (op : Byte) (e : Event) (es : List Event) :
    callsIn op (e :: es) =
      callsIn op es + match e with
        | .call o _ _ => if o = op then 1 else 0
        | _ => 0 := by
  simp only [callsIn, List.countP_cons]
  congr 1
  cases e <;> simp

theorem callsIn_status (op : Byte) (as : List AccStatus) :
    callsIn op (as.map .accStatusRead) = 0 := by
  simp [callsIn, List.countP_eq_zero]

/-- One AES_ECB_ENCRYPT is one call of it and of nothing else. -/
@[simp] theorem callsIn_aesTrace (op : Byte) (n : BitVec 32) (as : List AccStatus) (st : Status) :
    callsIn op (aesTrace n as st) = if op = opAes then 1 else 0 := by
  simp [aesTrace, callsIn_status, eq_comm]

/-- A state's call count is that of its trace. -/
theorem callCount_eq (op : Byte) (s : State) : callCount op s = callsIn op s.trace := rfl

/-! ## The blocks of UPDATE -/

/-- The phase of UPDATE after k blocks. -/
def updPhase : Nat → DcePhase
  | 0 => .upd 0
  | 1 => .upd 1
  | 2 => .upd 2
  | _ => .commit

/-- TEMP after k blocks of UPDATE from KEY and V. -/
def tempAfter (t : Vector Block 3) (key : KeyBits) (v : Block) : Nat → Vector Block 3
  | 0 => t
  | k + 1 => putBlock (tempAfter t key v k) (Fin.ofNat 3 k) (streamBlock key v (k + 1))

/-- R132: after three blocks TEMP is the cipher output of V + 1, V + 2, V + 3. -/
theorem tempAfter_three (t : Vector Block 3) (key : KeyBits) (v : Block) :
    tempBytes (tempAfter t key v 3) = tempOf key v := by
  simp [tempBytes, tempAfter, putBlock, tempOf, Fin.ofNat]

/-- R132: k blocks of UPDATE on reads that end done. -/
theorem drive_upd_blocks {s : State} {k : Nat} {as rest : List AccStatus} (hb : s.bce = .idle)
    (he : s.ec.phase = .idle) (hp : s.dce.phase = .upd 0) (hk : k ≤ 3) (hd : JobsDone k as)
    (hq : s.env.accStatusIn = as ++ rest) :
    ∃ u tr, drive (as.length + k) s = .next u ∧ u.gen = s.gen ∧ u.dce.phase = updPhase k ∧
      u.dce.ctx = s.dce.ctx ∧ u.dce.seed = s.dce.seed ∧ u.dce.hasExtra = s.dce.hasExtra ∧
      u.dce.size = s.dce.size ∧ u.dce.dstv = s.dce.dstv ∧
      (0 < k → u.dce.vw = s.gen.v + BitVec.ofNat 128 k) ∧
      u.dce.temp = tempAfter s.dce.temp s.gen.key s.gen.v k ∧
      u.bce = .idle ∧ u.out = s.out ∧
      (0 < k → u.acc.enabled = false ∧ u.acc.job = none) ∧
      u.env.accStatusIn = rest ∧ u.trace = s.trace ++ tr ∧
      (∀ op, callsIn op tr = if op = opAes then k else 0) ∧ SameOutside s u := by
  induction k generalizing as rest with
  | zero =>
    obtain rfl := jobsDone_zero hd
    exact ⟨s, [], by simp, rfl, hp, rfl, rfl, rfl, rfl, rfl, by simp, rfl, hb, rfl, by simp,
      by simpa using hq, by simp, by simp, .refl s⟩
  | succ k ih =>
    obtain ⟨bs, cs, hbs, hcs, rfl⟩ := jobsDone_add hd
    obtain ⟨v, tr, h1, h2, h3, h4, h5, h6, h7, h8, h9, h10, h11, h12, h13, h14, h15, h16, h17⟩ :=
      ih (rest := cs ++ rest) (by omega) hbs (by simpa using hq)
    have hpv : v.dce.phase = .upd (Fin.ofNat 3 k) := by
      rw [h3]
      have : k = 0 ∨ k = 1 ∨ k = 2 := by omega
      rcases this with rfl | rfl | rfl <;> rfl
    obtain ⟨u, hu, e1, e2, e3, e4, e5, e6, e7, e8, e9⟩ :=
      drive_upd_block h11 (by rw [h17.1]; exact he) hpv (jobsDone_one hcs) h14
    have hvk : inc128 (if Fin.ofNat 3 k = 0 then v.gen.v else v.dce.vw) =
        s.gen.v + BitVec.ofNat 128 (k + 1) := by
      have : k = 0 ∨ k = 1 ∨ k = 2 := by omega
      rcases this with rfl | rfl | rfl
      · simp [h2, inc128]
      · have := h9 (by omega)
        simp [this, inc128, BitVec.add_assoc]
      · have := h9 (by omega)
        simp [this, inc128, BitVec.add_assoc]
    rw [hvk, h2] at e2
    refine ⟨u, tr ++ aesTrace 32 cs .ok, ?_, e1.trans h2, ?_, by rw [e2]; exact h4,
      by rw [e2]; exact h5, by rw [e2]; exact h6, by rw [e2]; exact h7, by rw [e2]; exact h8,
      fun _ => by rw [e2], ?_, e3, e4.trans h12, fun _ => ⟨e5, e6⟩, e7, ?_, ?_, h17.trans e9⟩
    · rw [show (bs ++ cs).length + (k + 1) = (bs.length + k) + (cs.length + 1) by simp; omega,
        drive_add, h1, andThen_next, hu]
    · rw [e2]
      have : k = 0 ∨ k = 1 ∨ k = 2 := by omega
      rcases this with rfl | rfl | rfl <;> rfl
    · rw [e2, h10]; rfl
    · rw [e8, h15]; simp
    · intro op; rw [callsIn_append, h16, callsIn_aesTrace]; split <;> omega

/-- R132: UPDATE on three jobs that end done, up to and with its commit. -/
theorem drive_update {s : State} {as rest : List AccStatus} (hb : s.bce = .idle)
    (he : s.ec.phase = .idle) (hp : s.dce.phase = .upd 0) (hd : JobsDone 3 as)
    (hq : s.env.accStatusIn = as ++ rest) :
    ∃ u tr, drive (as.length + 4) s = .next (dceCommit u) ∧ u.gen = s.gen ∧
      u.dce.ctx = s.dce.ctx ∧ u.dce.size = s.dce.size ∧ u.dce.dstv = s.dce.dstv ∧
      updateValue (tempBytes u.dce.temp) u.dce.seed u.dce.hasExtra =
        tempOf s.gen.key s.gen.v ^^^ (if s.dce.hasExtra then s.dce.seed else 0) ∧
      u.bce = .idle ∧ u.out = s.out ∧ u.acc.enabled = false ∧ u.acc.job = none ∧
      u.env.accStatusIn = rest ∧ u.trace = s.trace ++ tr ∧
      (∀ op, callsIn op tr = if op = opAes then 3 else 0) ∧ SameOutside s u := by
  obtain ⟨u, tr, h1, h2, h3, h4, h5, h6, h7, h8, h9, h10, h11, h12, h13, h14, h15, h16, h17⟩ :=
    drive_upd_blocks hb he hp (Nat.le_refl 3) hd hq
  have hp3 : u.dce.phase = .commit := h3
  have ht : tick u = .next (dceCommit u) := by
    rw [tick_dce h11 (by rw [h17.1]; exact he)]; simp [dceRow, hp3]
  refine ⟨u, tr, ?_, h2, h4, h7, h8, ?_, h11, h12, (h13 (by omega)).1, (h13 (by omega)).2, h14, h15,
    h16, h17⟩
  · rw [show as.length + 4 = (as.length + 3) + 1 by omega, drive_add, h1, andThen_next,
      drive_succ (canAdvance_dce h11 (by rw [h17.1]; exact he) (by simp [hp3])) ht]
    rfl
  · rw [h10, h5, h6, tempAfter_three]
    cases s.dce.hasExtra <;> simp [updateValue]

/-- R133: UPDATE whose cipher call k fails, up to the failure path. -/
theorem drive_update_failed {s : State} {k : Nat} {as er rest : List AccStatus}
    (hb : s.bce = .idle) (he : s.ec.phase = .idle) (hp : s.dce.phase = .upd 0) (hk : k < 3)
    (hd : JobsDone k as) (hr : JobError er) (hq : s.env.accStatusIn = as ++ er ++ rest) :
    ∃ u tr j, drive (as.length + k + (er.length + 1)) s = .next (raise .fail u) ∧ u.gen = s.gen ∧
      u.dce.phase = .upd j ∧ u.dce.ctx = s.dce.ctx ∧ u.bce = .idle ∧ u.out = s.out ∧
      u.acc.enabled = false ∧ u.acc.job = none ∧ u.env.accStatusIn = rest ∧
      u.trace = s.trace ++ tr ++ [.ret opAes .fail] ∧
      (∀ op, callsIn op tr = if op = opAes then k + 1 else 0) ∧ SameOutside s u := by
  obtain ⟨v, tr, h1, h2, h3, h4, h5, h6, h7, h8, h9, h10, h11, h12, h13, h14, h15, h16, h17⟩ :=
    drive_upd_blocks (rest := er ++ rest) hb he hp (Nat.le_of_lt hk) hd (by simpa using hq)
  have hpv : v.dce.phase = .upd (Fin.ofNat 3 k) := by
    rw [h3]
    have : k = 0 ∨ k = 1 ∨ k = 2 := by omega
    rcases this with rfl | rfl | rfl <;> rfl
  obtain ⟨u, hu, e1, e2, e3, e4, e5, e6, e7, e8, e9, e10⟩ :=
    drive_upd_error h11 (by rw [h17.1]; exact he) hpv hr h14
  refine ⟨u, tr ++ (.call opAes false 32 :: .accEnable :: .accSetFetch .jobChain ::
      .accSetPush .jobOutput :: .accSetIndirect :: .barrier :: .accStart ::
      (er.map .accStatusRead ++ [.accSoftreset, .accDisable])), _, ?_, e1.trans h2, e2, e3.trans h4,
    e4, e5.trans h12, e6, e7, e8, ?_, ?_, h17.trans e10⟩
  · rw [drive_add, h1, andThen_next, hu]
  · rw [e9, h15]; simp [aesTrace]
  · intro op
    rw [callsIn_append, h16]
    simp only [callsIn_cons, callsIn_append, callsIn_status, callsIn_nil, eq_comm (a := opAes)]
    split <;> simp

end Sys2Proof.Machine
end

