-- ==== Sys2Proof/Laws/Reseed.lean ====
section
/-! SUPPORT. Runs of RESEED (R135) inside any caller: the entropy, then UPDATE with it. -/

namespace Sys2Proof.Machine

open Sys2Proof.Claims

/-- R135: RESEED from D_SEED to the start of its UPDATE. -/
theorem drive_seed {s : State} {ks ws : List Word} (hb : s.bce = .idle) (he : s.ec.phase = .idle)
    (hp : s.dce.phase = .seed) (ha : EntropyAnswers s.env 48 ks ws) :
    ∃ u tr, drive 10 s = .next u ∧ u.dce =
        { s.dce with phase := .upd 0, hasExtra := true, seed := seedOf ws } ∧
      u.gen = s.gen ∧ u.ec.phase = .idle ∧ u.ng.enabled = false ∧ u.bce = .idle ∧ u.acc = s.acc ∧
      u.host = s.host ∧ u.out = s.out ∧ u.env.accStatusIn = s.env.accStatusIn ∧
      u.trace = s.trace ++ tr ∧ callsIn opGetEntropy tr = 1 ∧ callsIn opAes tr = 0 := by
  have hrow : dceRow s = ecStart 48 s := by simp [dceRow, hp, Config.seedLen]
  obtain ⟨u, hu, hf, h1, h2, h3, h5, h6, h7, h8⟩ :=
    drive_entropy (s := ecStart 48 s) (ks := ks) (ws := ws) hb rfl (le_entropyMaxBytes) ha
  have hbu : u.bce = .idle := hf.2.2.1.trans hb
  have hpu : u.dce.phase = .seed := by rw [hf.2.1]; exact hp
  have hr : ecRow u = .next (some .ok, ecReturn .ok u) := by simp [ecRow, h1]
  have h12 : needOf (ecStart 48 s).ec.esize = 12 := by simp [needOf, ceilDiv]
  rw [h12] at h3 h8
  have hd : dceEntropy .ok (ecReturn .ok u) = startUpdate true (takeSeed (ecReturn .ok u)) := by
    simp only [dceEntropy, ecReturn_dce, hpu]
  have ht := tick_ec_return hbu (by simp [h1]) hr
  rw [hd] at ht
  obtain ⟨w, hw⟩ : ∃ w, w = startUpdate true (takeSeed (ecReturn .ok u)) := ⟨_, rfl⟩
  rw [← hw] at ht
  refine ⟨w, .call opGetEntropy false 48 :: ([.ngEnable, .ngReset,
        .ngConfigure Config.ngClkdiv Config.ngOffTimer Config.ngInitWait Config.ngBlocksPerCycle,
        .ngFsmRead .ready, .ngLevelRead (s.env.ngWordsIn.headD []).length] ++
      ((ks.zip [0, 1, 2, 3]).flatMap fun p => [.ngFifoPop p.1, .ngKeySet p.2 p.1]) ++
      [.ngFsmRead .ready, .ngLevelRead ws.length] ++ (ws.take 12).map .ngFifoPop ++
      [.ngDisable, .ret opGetEntropy .ok, .call opUpdate true 0]), ?_, ?_⟩
  · rw [show (10 : Nat) = 9 + 1 from rfl,
      drive_succ (canAdvance_dce hb he (by simp [hp])) (tick_dce hb he), hrow,
      show (9 : Nat) = 8 + 1 from rfl, drive_add, hu, andThen_next,
      drive_succ (canAdvance_ec hbu (by simp [h1]) (by simp [h1])) ht]
    rfl
  · have hck : ∀ op, callsIn op ((ks.zip [0, 1, 2, 3]).flatMap fun p : Word × Fin 4 =>
        [.ngFifoPop p.1, .ngKeySet p.2 p.1]) = 0 := by
      intro op
      simp [callsIn, List.countP_eq_zero]
      rintro a b c - (rfl | rfl) <;> trivial
    have hpop : ∀ (op : Byte) (ws : List Word), callsIn op (ws.map .ngFifoPop) = 0 := by
      intro op ws; simp [callsIn, List.countP_eq_zero]
    have e3 : ofBytes 384 u.ec.ebuf = seedOf ws := by
      rw [h3, show (ecStart 48 s).ec.esize = 48 from rfl]; rfl
    rw [hw]
    refine ⟨?_, ?_, by simp, ?_, by simpa using hbu, ?_, ?_, ?_, by simpa using h7, ?_, ?_, ?_⟩
    · simp [e3, hf.2.1]
    · simp [hf.1]
    · simpa using h5
    · simpa using hf.2.2.2.1
    · simpa using hf.2.2.2.2.2.1
    · simpa using hf.2.2.2.2.2.2
    · simp [h8, ecStart, startUpdate]
    · simp [hpop, hck, -List.map_take, opGetEntropy, opUpdate]
    · simp [hpop, hck, -List.map_take, opAes, opGetEntropy, opUpdate]

/-- R135: RESEED from D_SEED to the commit of its UPDATE. -/
theorem drive_reseed {s : State} {ks ws : List Word} {as rest : List AccStatus} (hb : s.bce = .idle)
    (he : s.ec.phase = .idle) (hp : s.dce.phase = .seed) (ha : EntropyAnswers s.env 48 ks ws)
    (hd : JobsDone 3 as) (hq : s.env.accStatusIn = as ++ rest) :
    ∃ u tr, drive (as.length + 14) s = .next (dceCommit u) ∧ u.gen = s.gen ∧
      u.dce.ctx = s.dce.ctx ∧ u.dce.size = s.dce.size ∧ u.dce.dstv = s.dce.dstv ∧
      updateValue (tempBytes u.dce.temp) u.dce.seed u.dce.hasExtra =
        tempOf s.gen.key s.gen.v ^^^ seedOf ws ∧
      u.bce = .idle ∧ u.ec.phase = .idle ∧ u.ng.enabled = false ∧ u.host = s.host ∧
      u.out = s.out ∧ u.acc.enabled = false ∧ u.acc.job = none ∧ u.env.accStatusIn = rest ∧
      u.trace = s.trace ++ tr ∧ callsIn opGetEntropy tr = 1 ∧ callsIn opAes tr = 3 := by
  obtain ⟨v, t1, h1, h2, h3, h4, h5, h6, h7, h8, h9, h10, h11, h12, h13⟩ := drive_seed hb he hp ha
  obtain ⟨u, t2, e1, e2, e3, e4, e5, e6, e7, e8, e9, e10, e11, e12, e13, e14⟩ :=
    drive_update (s := v) h6 h4 (by rw [h2]) hd (h10.trans hq)
  refine ⟨u, t1 ++ t2, ?_, e2.trans h3, by rw [e3, h2], by rw [e4, h2], by rw [e5, h2], ?_, e7,
    by rw [e14.1]; exact h4, by rw [e14.2.1]; exact h5, e14.2.2.1.trans h8, e8.trans h9, e9, e10,
    e11, by rw [e12, h11, List.append_assoc], ?_, ?_⟩
  · rw [show as.length + 14 = 10 + (as.length + 4) by omega, drive_add, h1, andThen_next, e1]
  · rw [e6, h3, h2]; simp
  · rw [callsIn_append, h12, e13]; simp [opGetEntropy, opAes]
  · rw [callsIn_append, h13, e13]; simp

/-- R135: RESEED whose UPDATE fails in its cipher call k, up to the failure path. -/
theorem drive_reseed_failed {s : State} {ks ws : List Word} {k : Nat} {as er rest : List AccStatus}
    (hb : s.bce = .idle) (he : s.ec.phase = .idle) (hp : s.dce.phase = .seed)
    (ha : EntropyAnswers s.env 48 ks ws) (hk : k < 3) (hd : JobsDone k as) (hr : JobError er)
    (hq : s.env.accStatusIn = as ++ er ++ rest) :
    ∃ u tr j, drive (as.length + k + er.length + 11) s = .next (raise .fail u) ∧ u.gen = s.gen ∧
      u.dce.phase = .upd j ∧ u.dce.ctx = s.dce.ctx ∧ u.bce = .idle ∧ u.ec.phase = .idle ∧
      u.ng.enabled = false ∧ u.host = s.host ∧ u.out = s.out ∧ u.acc.enabled = false ∧
      u.acc.job = none ∧ u.env.accStatusIn = rest ∧
      u.trace = s.trace ++ tr ++ [.ret opAes .fail] ∧ callsIn opGetEntropy tr = 1 := by
  obtain ⟨v, t1, h1, h2, h3, h4, h5, h6, h7, h8, h9, h10, h11, h12, h13⟩ := drive_seed hb he hp ha
  obtain ⟨u, t2, j, e1, e2, e3, e4, e5, e6, e7, e8, e9, e10, e11, e12⟩ :=
    drive_update_failed (s := v) h6 h4 (by rw [h2]) hk hd hr (h10.trans hq)
  refine ⟨u, t1 ++ t2, j, ?_, e2.trans h3, e3, by rw [e4, h2], e5, by rw [e12.1]; exact h4,
    by rw [e12.2.1]; exact h5, e12.2.2.1.trans h8, e6.trans h9, e7, e8, e9,
    by rw [e10, h11]; simp, ?_⟩
  · rw [show as.length + k + er.length + 11 = 10 + (as.length + k + (er.length + 1)) by omega,
      drive_add, h1, andThen_next, e1]
  · rw [callsIn_append, h12, e11]; simp [opGetEntropy, opAes]

/-- R136: the first row of INIT. -/
theorem drive_init {s : State} (hb : s.bce = .idle) (he : s.ec.phase = .idle)
    (hp : s.dce.phase = .zero) : drive 1 s = .next (dceZero s) := by
  rw [show (1 : Nat) = 0 + 1 from rfl,
    drive_succ (s' := dceZero s) (canAdvance_dce hb he (by simp [hp]))
      (by rw [tick_dce hb he]; simp [dceRow, hp])]
  rfl

end Sys2Proof.Machine
end

