-- ==== Sys2Proof/Laws/Output.lean ====
section
/-! SUPPORT. Runs of the output loop of GET_RANDOM (R142): one block, j blocks, and the failure of a
block's cipher call (R144). -/

namespace Sys2Proof.Machine

open Sys2Proof.Claims

theorem inc128_add (v : Block) (j : Nat) :
    inc128 (v + BitVec.ofNat 128 j) = v + BitVec.ofNat 128 (j + 1) := by
  rw [inc128, BitVec.add_assoc]; congr 1
  apply BitVec.eq_of_toNat_eq; simp

@[simp] theorem bytesOf_length (n : Nat) (b : BitVec w) : (bytesOf n b).length = n := by
  simp [bytesOf]

/-- R142: a block's bytes are written and the cursor advances. -/
theorem takeOutBlock_inside {s : State} (j : Nat)
    (h : s.dce.cur.toNat + chunk s.dce.rem ≤ outSize) :
    takeOutBlock j s = .next
      { s with
        out := Memory.writeBytes s.out s.dce.cur.toNat
          ((bytesOf 16 s.dce.blk).take (chunk s.dce.rem))
        dce := { s.dce with
          cur := s.dce.cur + BitVec.ofNat 17 (chunk s.dce.rem)
          rem := s.dce.rem - BitVec.ofNat 17 (chunk s.dce.rem)
          blk := Config.freeBits 128 s.env.draws
          phase := .out (j + 1) }
        env := { s.env with draws := s.env.draws + 1 } } := by
  have hl : ((bytesOf 16 s.dce.blk).take (chunk s.dce.rem)).length = chunk s.dce.rem := by
    simp [chunk]
  simp only [takeOutBlock]
  rw [outWrite_inside s (by rw [hl]; exact h)]
  rfl

/-- R142: j blocks of a request of `size` bytes on reads that end done. -/
theorem drive_out_blocks {s : State} {j size : Nat} {as rest : List AccStatus} (hb : s.bce = .idle)
    (he : s.ec.phase = .idle) (hp : s.dce.phase = .out 0) (hcur : s.dce.cur.toNat = 0)
    (hrem : s.dce.rem.toNat = size) (hsz : size ≤ 65536) (hj : 16 * j < size + 16)
    (hd : JobsDone j as) (hq : s.env.accStatusIn = as ++ rest) :
    ∃ u tr, drive (as.length + j) s = .next u ∧
      u.gen = { s.gen with v := s.gen.v + BitVec.ofNat 128 j } ∧ u.dce.phase = .out j ∧
      u.dce.ctx = s.dce.ctx ∧ u.dce.cur.toNat = min (16 * j) size ∧
      u.dce.rem.toNat = size - min (16 * j) size ∧ u.bce = .idle ∧
      (∀ i, i < min (16 * j) size →
        Memory.read u.out i = some (streamByte s.gen.key s.gen.v i)) ∧
      (∀ i, min (16 * j) size ≤ i → Memory.read u.out i = Memory.read s.out i) ∧
      (0 < j → u.acc.enabled = false ∧ u.acc.job = none) ∧
      u.env.accStatusIn = rest ∧ u.trace = s.trace ++ tr ∧
      (∀ op, callsIn op tr = if op = opAes then j else 0) ∧ SameOutside s u := by
  induction j generalizing as rest with
  | zero =>
    obtain rfl := jobsDone_zero hd
    exact ⟨s, [], by simp, by simp, hp, rfl, by simpa using hcur, by simpa using hrem, hb, by simp,
      fun _ _ => rfl, by simp, by simpa using hq, by simp, by simp, .refl s⟩
  | succ j ih =>
    obtain ⟨bs, cs, hbs, hcs, rfl⟩ := jobsDone_add hd
    obtain ⟨v, tr, h1, h2, h3, h4, h5, h6, h7, h8, h9, h10, h11, h12, h13, h14⟩ :=
      ih (rest := cs ++ rest) (by omega) hbs (by simpa using hq)
    have hlt : 16 * j < size := by omega
    have hr0 : v.dce.rem ≠ 0 := by
      intro h0; rw [h0] at h6; simp at h6; omega
    obtain ⟨u, hu, e1, e2, e3, e4, e5, e6, e7, e8, e9⟩ :=
      drive_out_block h7 (by rw [h14.1]; exact he) h3 hr0 (jobsDone_one hcs) h11
    have hn : chunk v.dce.rem = min (16 * (j + 1)) size - 16 * j := by
      simp only [chunk, h6]; omega
    have hc : v.dce.cur.toNat = 16 * j := by rw [h5]; omega
    have hblk : u.dce.blk = streamBlock s.gen.key s.gen.v (j + 1) := by
      rw [e2, h2]; simp only [streamBlock, inc128_add]
    have hnle : chunk v.dce.rem ≤ 16 := by simp [chunk]
    rw [takeOutBlock_inside j (by rw [e2]; simp only [outSize, hn, hc]; omega)] at hu
    obtain ⟨w, hw⟩ : ∃ w : State, w = { u with
        out := Memory.writeBytes u.out u.dce.cur.toNat
          ((bytesOf 16 u.dce.blk).take (chunk u.dce.rem))
        dce := { u.dce with
          cur := u.dce.cur + BitVec.ofNat 17 (chunk u.dce.rem)
          rem := u.dce.rem - BitVec.ofNat 17 (chunk u.dce.rem)
          blk := Config.freeBits 128 u.env.draws
          phase := .out (j + 1) }
        env := { u.env with draws := u.env.draws + 1 } } := ⟨_, rfl⟩
    rw [← hw] at hu
    have hcu : u.dce.cur = v.dce.cur := by rw [e2]
    have hru : u.dce.rem = v.dce.rem := by rw [e2]
    have hread : ∀ i, Memory.read w.out i =
        if 16 * j ≤ i ∧ i < min (16 * (j + 1)) size then
          (bytesOf 16 (streamBlock s.gen.key s.gen.v (j + 1)))[i - 16 * j]?
        else Memory.read v.out i := by
      intro i
      have hl : ((bytesOf 16 u.dce.blk).take (chunk u.dce.rem)).length = chunk v.dce.rem := by
        rw [hru]; simp [chunk]
      rw [hw]
      simp only [Memory.read_writeBytes]
      rw [hl, hcu, hc, hn, e4]
      by_cases hi : 16 * j ≤ i ∧ i < min (16 * (j + 1)) size
      · rw [if_pos (by omega), if_pos hi, hru, hn, List.getElem?_take_of_lt (by omega), hblk]
      · rw [if_neg (by omega), if_neg hi]
    refine ⟨w, tr ++ aesTrace 32 cs .ok, ?_, ?_, by rw [hw], by rw [hw]; simp [e2, h4], ?_, ?_,
      by rw [hw]; exact e3, ?_, ?_, fun _ => by rw [hw]; exact ⟨e5, e6⟩, by rw [hw]; exact e7, ?_, ?_,
      ?_⟩
    · rw [show (bs ++ cs).length + (j + 1) = (bs.length + j) + (cs.length + 1) by simp; omega,
        drive_add, h1, andThen_next, hu]
    · rw [hw]; simp only [e1, h2, inc128_add]
    · rw [hw]; simp only [hcu, hru, hn, BitVec.toNat_add, BitVec.toNat_ofNat, hc]; omega
    · rw [hw]; simp only [hru, hn, BitVec.toNat_sub, BitVec.toNat_ofNat, h6]; omega
    · intro i hi
      rw [hread]
      split
      · next hh =>
        rw [streamByte, show i / 16 = j by omega, show i % 16 = i - 16 * j by omega,
          List.getD_eq_getElem?_getD, List.getElem?_eq_getElem (by simp; omega)]
        rfl
      · exact h8 i (by omega)
    · intro i hi
      rw [hread, if_neg (by omega)]
      exact h9 i (by omega)
    · rw [hw]; simp only [e8, h12, List.append_assoc]
    · intro op; rw [callsIn_append, h13, callsIn_aesTrace]; split <;> omega
    · rw [hw]; exact h14.trans e9

/-- A row of DCE in a run, where no other engine runs. -/
theorem drive_dce {s t : State} (hb : s.bce = .idle) (he : s.ec.phase = .idle)
    (hp : s.dce.phase ≠ .idle) (h : dceRow s = t) (n : Nat) : drive (n + 1) s = drive n t :=
  drive_succ (canAdvance_dce hb he hp) (by rw [tick_dce hb he, h]) n

/-- R142: a request of `size` bytes is done after `ceilDiv size 16` blocks. -/
theorem blocks_bounds (size : Nat) :
    size ≤ 16 * ceilDiv size 16 ∧ 16 * ceilDiv size 16 < size + 16 := by
  simp only [ceilDiv]; omega

/-- R142, R143: the output loop, the trailing UPDATE and the response, on reads that end done. -/
theorem drive_generate {s : State} {size : Nat} {as rest : List AccStatus} (hb : s.bce = .idle)
    (he : s.ec.phase = .idle) (hp : s.dce.phase = .out 0) (hcur : s.dce.cur.toNat = 0)
    (hrem : s.dce.rem.toNat = size) (hsz : size ≤ 65536) (hc : s.dce.ctx = [.cGen])
    (hd : JobsDone (ceilDiv size 16 + 3) as) (hq : s.env.accStatusIn = as ++ rest) :
    ∃ t tr, drive (as.length + ceilDiv size 16 + 7) s = .next t ∧ idle t = true ∧
      t.host = { s.host with status := 0 } ∧ t.gen = generated s.gen (ceilDiv size 16) ∧
      (∀ i, i < size → Memory.read t.out i = some (streamByte s.gen.key s.gen.v i)) ∧
      (∀ i, size ≤ i → Memory.read t.out i = Memory.read s.out i) ∧
      t.env.accStatusIn = rest ∧ t.ng = s.ng ∧ t.trace = s.trace ++ tr ∧
      callsIn opAes tr = ceilDiv size 16 + 3 ∧ callsIn opGetEntropy tr = 0 := by
  obtain ⟨bs, cs, hbs, hcs, rfl⟩ := jobsDone_add hd
  have hbd := blocks_bounds size
  generalize hn : ceilDiv size 16 = n at *
  obtain ⟨v, t1, h1, h2, h3, h4, h5, h6, h7, h8, h9, h10, h11, h12, h13, h14⟩ :=
    drive_out_blocks (rest := cs ++ rest) hb he hp hcur hrem hsz (by omega) hbs (by simpa using hq)
  have hve : v.ec.phase = .idle := by rw [h14.1]; exact he
  have hr0 : v.dce.rem = 0 := by
    apply BitVec.eq_of_toNat_eq; rw [h6]; simp; omega
  have hrow1 : dceRow v = dceGoto .final v := by
    simp only [dceRow, h3, dceOut]; exact if_pos hr0
  have hrow2 : dceRow (dceGoto .final v) = startUpdate false (dceGoto .final v) := by
    simp [dceRow]
  obtain ⟨u, t2, e1, e2, e3, e4, e5, e6, e7, e8, e9, e10, e11, e12, e13, e14⟩ :=
    drive_update (s := startUpdate false (dceGoto .final v)) (as := cs) (rest := rest) h7 hve rfl hcs
      h11
  have hue : u.ec.phase = .idle := by rw [e14.1]; exact hve
  have hcx : u.dce.ctx = [.cGen] := by rw [e3]; simp [h4, hc]
  obtain ⟨w, hw⟩ : ∃ w, w = dceCommit u := ⟨_, rfl⟩
  have hwb : w.bce = .idle := by simp [hw, dceCommit, hcx, e7]
  have hwe : w.ec.phase = .idle := by simp [hw, dceCommit, hcx, hue]
  have hwp : w.dce.phase = .resp := by simp [hw, dceCommit, hcx]
  have hrow3 : dceRow w = respond .ok w := by simp [dceRow, hwp]
  refine ⟨respond .ok w, t1 ++ .call opUpdate false 0 :: (t2 ++ [.ret opUpdate .ok]), ?_, ?_, ?_, ?_,
    ?_, ?_, ?_, ?_, ?_, ?_, ?_⟩
  · rw [show (bs ++ cs).length + n + 7 = (bs.length + n) + ((cs.length + 4 + 1) + 1 + 1) by
        simp; omega,
      drive_add, h1, andThen_next, drive_dce h7 hve (by simp [h3]) hrow1,
      drive_dce (s := dceGoto .final v) h7 hve (by simp) hrow2,
      drive_add (cs.length + 4) 1, e1, andThen_next, ← hw,
      drive_dce hwb hwe (by simp [hwp]) hrow3]
    rfl
  · exact idle_of (by simp) (by simpa using hwe) (by simpa using hwb)
  · simp [hw, dceCommit, hcx, e14.2.2.1, h14.2.2.1, statusWord]
  · simp [hw, dceCommit, hcx, e6, e2, h2, generated, updated]
  · intro i hi
    simpa [hw, dceCommit, hcx, e8] using h8 i (by omega)
  · intro i hi
    simpa [hw, dceCommit, hcx, e8] using h9 i (by omega)
  · simp [hw, dceCommit, hcx, e11]
  · simp [hw, dceCommit, hcx, e14.2.1, h14.2.1]
  · simp [hw, dceCommit, hcx, e12, h12]
  · simp [h13, e13, opUpdate, opAes]
  · simp [h13, e13, opUpdate, opAes, opGetEntropy]

/-! ## The checks before the loop -/

/-- R138: a request of at most 65536 bytes with a destination violates nothing. -/
theorem invalidRequest_of_le {size : BitVec 32} (h : size.toNat ≤ 65536) :
    invalidRequest true size = false := by
  have : decide (Config.maxRequestBytes < size.toNat) = false := decide_eq_false (Nat.not_lt.2 h)
  simp [invalidRequest, this]

/-- R138 to R140: the check of a request with output on an initialized generator. -/
theorem dceCheck_startGetRandom {s : State} {size : BitVec 32} (hi : s.gen.initialized = true)
    (h0 : 0 < size.toNat) (hsz : size.toNat ≤ 65536) :
    dceRow (startGetRandom true size s) = dceGoto .reseedTest (startGetRandom true size s) := by
  have hne : size ≠ 0#32 := by rintro rfl; simp at h0
  simp [dceRow, dceCheck, startGetRandom, dceGoto, hne, hi, invalidRequest_of_le hsz]

/-- R141: below the threshold the output loop begins. -/
theorem drive_startOutput {s : State} (hb : s.bce = .idle) (he : s.ec.phase = .idle)
    {size : BitVec 32} (hi : s.gen.initialized = true) (hctr : s.gen.reseedCtr.toNat + 1 < 2 ^ 48)
    (h0 : 0 < size.toNat) (hsz : size.toNat ≤ 65536) (n : Nat) :
    drive (n + 2) (startGetRandom true size s) =
      drive n (startOutput (dceGoto .reseedTest (startGetRandom true size s))) := by
  have hrow2 : dceRow (dceGoto .reseedTest (startGetRandom true size s)) =
      startOutput (dceGoto .reseedTest (startGetRandom true size s)) := by
    have : reseedDue s.gen.reseedCtr = false := decide_eq_false (Nat.not_le.2 hctr)
    simp [dceRow, dceReseedTest, this]
  rw [drive_dce (n := n + 1) (s := startGetRandom true size s) hb he (by simp)
      (dceCheck_startGetRandom hi h0 hsz),
    drive_dce (s := dceGoto .reseedTest (startGetRandom true size s)) hb he (by simp) hrow2]

/-! ## The failures of R144 -/

/-- R144: the cipher call of output block j fails, up to the failure path. -/
theorem drive_output_failed {s : State} {j size : Nat} {as er rest : List AccStatus}
    (hb : s.bce = .idle) (he : s.ec.phase = .idle) (hp : s.dce.phase = .out 0)
    (hcur : s.dce.cur.toNat = 0) (hrem : s.dce.rem.toNat = size) (hsz : size ≤ 65536)
    (hj : j < ceilDiv size 16) (hd : JobsDone j as) (hr : JobError er)
    (hq : s.env.accStatusIn = as ++ er ++ rest) :
    ∃ u, drive (as.length + j + (er.length + 1)) s = .next (raise .fail u) ∧
      u.gen = { s.gen with v := s.gen.v + BitVec.ofNat 128 (j + 1) } ∧ u.dce.ctx = s.dce.ctx ∧
      u.bce = .idle ∧ u.acc.enabled = false ∧ u.acc.job = none ∧
      (∀ i, i < 16 * j → Memory.read u.out i = some (streamByte s.gen.key s.gen.v i)) ∧
      (∀ i, 16 * j ≤ i → Memory.read u.out i = Memory.read s.out i) ∧ SameOutside s u := by
  have hbd := blocks_bounds size
  obtain ⟨v, t1, h1, h2, h3, h4, h5, h6, h7, h8, h9, h10, h11, h12, h13, h14⟩ :=
    drive_out_blocks (rest := er ++ rest) hb he hp hcur hrem hsz (by omega) hd (by simpa using hq)
  have hr0 : v.dce.rem ≠ 0 := by
    intro h0; rw [h0] at h6; simp at h6; omega
  obtain ⟨u, e1, e2, e3, e4, e5, e6, e7, e8, e9, e10, e11⟩ :=
    drive_out_error h7 (by rw [h14.1]; exact he) h3 hr0 hr h11
  refine ⟨u, ?_, ?_, e4.trans h4, e5, e7, e8, ?_, ?_, h14.trans e11⟩
  · rw [drive_add, h1, andThen_next, e1]
  · rw [e2, h2]; simp only [inc128_add]
  · intro i hi; rw [e6]; exact h8 i (by omega)
  · intro i hi; rw [e6]; exact h9 i (by omega)

/-- R144: all blocks are delivered and the cipher call k of the trailing UPDATE fails, up to the failure
path. -/
theorem drive_trailing_failed {s : State} {k size : Nat} {as er rest : List AccStatus}
    (hb : s.bce = .idle) (he : s.ec.phase = .idle) (hp : s.dce.phase = .out 0)
    (hcur : s.dce.cur.toNat = 0) (hrem : s.dce.rem.toNat = size) (hsz : size ≤ 65536) (hk : k < 3)
    (hd : JobsDone (ceilDiv size 16 + k) as) (hr : JobError er)
    (hq : s.env.accStatusIn = as ++ er ++ rest) :
    ∃ u, drive (as.length + ceilDiv size 16 + k + (er.length + 3)) s = .next (raise .fail u) ∧
      u.gen = { s.gen with v := s.gen.v + BitVec.ofNat 128 (ceilDiv size 16) } ∧
      u.dce.ctx = s.dce.ctx ∧ u.bce = .idle ∧ u.acc.enabled = false ∧ u.acc.job = none ∧
      (∀ i, i < size → Memory.read u.out i = some (streamByte s.gen.key s.gen.v i)) ∧
      (∀ i, size ≤ i → Memory.read u.out i = Memory.read s.out i) ∧ SameOutside s u := by
  have hbd := blocks_bounds size
  generalize hn : ceilDiv size 16 = n at *
  obtain ⟨bs, cs, hbs, hcs, rfl⟩ := jobsDone_add hd
  obtain ⟨v, t1, h1, h2, h3, h4, h5, h6, h7, h8, h9, h10, h11, h12, h13, h14⟩ :=
    drive_out_blocks (rest := cs ++ er ++ rest) hb he hp hcur hrem hsz (by omega) hbs
      (by simpa using hq)
  have hve : v.ec.phase = .idle := by rw [h14.1]; exact he
  have hr0 : v.dce.rem = 0 := by
    apply BitVec.eq_of_toNat_eq; rw [h6]; simp; omega
  have hrow1 : dceRow v = dceGoto .final v := by
    simp only [dceRow, h3, dceOut]; exact if_pos hr0
  have hrow2 : dceRow (dceGoto .final v) = startUpdate false (dceGoto .final v) := by
    simp [dceRow]
  obtain ⟨u, t2, j, e1, e2, e3, e4, e5, e6, e7, e8, e9, e10, e11, e12⟩ :=
    drive_update_failed (s := startUpdate false (dceGoto .final v)) h7 hve rfl hk hcs hr h11
  refine ⟨u, ?_, by rw [e2]; exact h2, by rw [e4]; simpa using h4, e5, e7, e8, ?_, ?_,
    h14.trans e12⟩
  · rw [show (bs ++ cs).length + n + k + (er.length + 3) =
        bs.length + n + (cs.length + k + (er.length + 1) + 1 + 1) by simp; omega,
      drive_add (bs.length + n), h1, andThen_next, drive_dce h7 hve (by simp [h3]) hrow1,
      drive_dce (s := dceGoto .final v) h7 hve (by simp) hrow2, e1]
  · intro i hi; rw [e6]; exact h8 i (by omega)
  · intro i hi; rw [e6]; exact h9 i (by omega)

/-! ## A request that seeds first -/

/-- R140, R141: the implicit INIT or the threshold RESEED of a request, up to the output loop. -/
theorem drive_seeds_first {s : State} {size : BitVec 32} {ks ws : List Word}
    {as rest : List AccStatus} (hb : s.bce = .idle) (he : s.ec.phase = .idle)
    (hs : SeedsFirst s.gen) (h0 : 0 < size.toNat) (hsz : size.toNat ≤ 65536)
    (ha : EntropyAnswers s.env 48 ks ws) (hd : JobsDone 3 as) (hq : s.env.accStatusIn = as ++ rest) :
    ∃ v n, n ≤ as.length + 18 ∧ drive n (startGetRandom true size s) = .next v ∧
      v.gen = seededFirst s.gen (seedOf ws) ∧ v.dce.phase = .out 0 ∧ v.dce.ctx = [.cGen] ∧
      v.dce.cur.toNat = 0 ∧ v.dce.rem.toNat = size.toNat ∧ v.bce = .idle ∧ v.ec.phase = .idle ∧
      v.ng.enabled = false ∧ v.out = s.out ∧ v.env.accStatusIn = rest := by
  have hne : size ≠ 0#32 := by rintro rfl; simp at h0
  have hmod : size.toNat % 131072 = size.toNat := Nat.mod_eq_of_lt (by omega)
  cases hi : s.gen.initialized with
  | true =>
    have hctr : reseedDue s.gen.reseedCtr = true := by
      rcases hs with h | h
      · rw [hi] at h; cases h
      · exact decide_eq_true h
    obtain ⟨w, hw⟩ : ∃ w, w = dceGoto .reseedTest (startGetRandom true size s) := ⟨_, rfl⟩
    have hrow : dceRow w = startReseed w := by rw [hw]; simp [dceRow, dceReseedTest, hctr]
    obtain ⟨u, tr, h1, h2, h3, h4, h5, h6, h7, h8, h9, h10, h11, h12, h13, h14, h15, h16, h17⟩ :=
      drive_reseed (s := startReseed w) (as := as) (rest := rest) (by rw [hw]; exact hb)
        (by rw [hw]; exact he) rfl (by rw [hw]; exact ha) hd (by rw [hw]; simpa using hq)
    have hcx : u.dce.ctx = [.cReseed, .cGen] := by rw [h3, hw]; rfl
    have hus : u.dce.size = size := by rw [h4, hw]; rfl
    have hg : (startReseed w).gen = s.gen := by rw [hw]; rfl
    rw [hg] at h2 h6
    refine ⟨dceCommit u, as.length + 14 + 1 + 1, by omega, ?_, ?_, ?_, ?_, ?_, ?_, ?_, ?_, ?_, ?_, ?_⟩
    · rw [drive_dce (s := startGetRandom true size s) hb he (by simp)
          (dceCheck_startGetRandom hi h0 hsz), ← hw,
        drive_dce (s := w) (by rw [hw]; exact hb) (by rw [hw]; exact he) (by rw [hw]; simp) hrow, h1]
    · simp [dceCommit, hcx, reseedReturn, h6, h2, updated, reseeded, seededFirst, hi]
    all_goals simp [dceCommit, hcx, reseedReturn, hus, hmod, h7, h8, h9, h14]
    rw [h11, hw]; simp
  | false =>
    obtain ⟨z, hz⟩ : ∃ z, z = dceRow (startGetRandom true size s) := ⟨_, rfl⟩
    have hz' : z = { dceGoto .zero (startGetRandom true size s) with
        dce := { (dceGoto .zero (startGetRandom true size s)).dce with ctx := [.cInit, .cGen] } } := by
      rw [hz]
      simp [dceRow, dceCheck, startGetRandom, dceGoto, hne, hi, invalidRequest_of_le hsz]
    obtain ⟨u, tr, h1, h2, h3, h4, h5, h6, h7, h8, h9, h10, h11, h12, h13, h14, h15, h16, h17⟩ :=
      drive_reseed (s := dceZero z) (as := as) (rest := rest) (by rw [hz']; exact hb)
        (by rw [hz']; exact he) rfl (by rw [hz']; exact ha) hd (by rw [hz']; simpa using hq)
    have hcx : u.dce.ctx = [.cReseed, .cInit, .cGen] := by rw [h3, hz']; rfl
    have hus : u.dce.size = size := by rw [h4, hz']; rfl
    have hg : (dceZero z).gen = zeroedGen := rfl
    rw [hg] at h2 h6
    obtain ⟨w, hw⟩ : ∃ w, w = dceCommit u := ⟨_, rfl⟩
    have hwb : w.bce = .idle := by simp [hw, dceCommit, hcx, reseedReturn, h7]
    have hwe : w.ec.phase = .idle := by simp [hw, dceCommit, hcx, reseedReturn, h8]
    have hwp : w.dce.phase = .reseedTest := by simp [hw, dceCommit, hcx, reseedReturn]
    have hwg : w.gen = { reseeded zeroedGen (seedOf ws) with initialized := true } := by
      simp [hw, dceCommit, hcx, reseedReturn, h6, h2, updated, reseeded]
    have hrow : dceRow w = startOutput w := by
      simp [dceRow, hwp, dceReseedTest, hwg, reseedDue, reseeded, Config.reseedInterval]
    refine ⟨startOutput w, as.length + 14 + 1 + 1 + 1, by omega, ?_, ?_, ?_, ?_, ?_, ?_, ?_, ?_, ?_,
      ?_, ?_⟩
    · rw [drive_dce (s := startGetRandom true size s) hb he (by simp) hz.symm,
        show as.length + 14 + 1 + 1 = 1 + (as.length + 14 + 1) by omega, drive_add 1,
        drive_init (s := z) (by rw [hz']; exact hb) (by rw [hz']; exact he) (by rw [hz']; rfl),
        andThen_next, drive_add (as.length + 14), h1, andThen_next, ← hw,
        drive_dce hwb hwe (by simp [hwp]) hrow]
      rfl
    · simp [startOutput, hwg, seededFirst, hi]
    all_goals simp [startOutput, hwb, hwe]
    · simp [hw, dceCommit, hcx, reseedReturn]
    · simp [hw, dceCommit, hcx, reseedReturn, hus, hmod]
    · simp [hw, dceCommit, hcx, reseedReturn, h9]
    · simp [hw, dceCommit, hcx, reseedReturn, h11, hz']
    · simp [hw, dceCommit, hcx, reseedReturn, h14]

end Sys2Proof.Machine
end

