-- ==== Sys2Proof/Laws/PerInstr.lean ====
section
/-! SUPPORT. One statement about every instruction: its encoded form carries the bits that its row of
spec/opcode_table.json fixes (TableBits). -/

namespace Sys2Proof.Laws.TableBits

/-- What a row of the table fixes: the OP of a command word and whether F and N are fixed at zero, or the
identifier byte of a port event. -/
inductive Row where
  | cw (op : Byte) (fZero nZero : Bool)
  | pe (id : Byte)
deriving DecidableEq, Repr

/-- R62, R68: the row of an instruction. -/
def rowOf (i : Instr) : Row :=
  match i with
  | .init => .cw 0x01 true true
  | .getRandom _ _ => .cw 0x02 false false
  | .reseed => .cw 0x10 true true
  | .update _ => .cw 0x11 false true
  | .getEntropy _ => .cw 0x20 true false
  | .aesEcbEncrypt _ => .cw 0x30 true false
  | .ngEnable => .pe 0x40
  | .ngDisable => .pe 0x41
  | .ngReset => .pe 0x42
  | .ngConfigure _ _ _ _ => .pe 0x43
  | .ngFsmRead => .pe 0x44
  | .ngKeySet _ _ => .pe 0x45
  | .ngKeyRead _ => .pe 0x46
  | .ngLevelRead => .pe 0x47
  | .ngFifoPop => .pe 0x48
  | .accEnable => .pe 0x50
  | .accDisable => .pe 0x51
  | .accSetFetch _ => .pe 0x52
  | .accSetPush _ => .pe 0x53
  | .accSetIndirect => .pe 0x54
  | .accStart => .pe 0x55
  | .accStatusRead => .pe 0x56
  | .accSoftreset => .pe 0x57
  | .barrier => .pe 0x60

/-- An encoded form carries the bits a row fixes (RSV is fixed at zero in every command word). -/
def Carries (r : Row) (c : Code) : Prop :=
  match r with
  | .cw op fZero nZero =>
    ∃ w, c = .cw w ∧ cwOp w = op ∧ cwRsv w = 0 ∧ (fZero = true → cwF w = false) ∧
      (nZero = true → cwN w = 0)
  | .pe id => ∃ rest, c = .pe (id :: rest)

/-- The statement of the family. -/
def Statement (i : Instr) : Prop := Carries (rowOf i) (encode i)

/-- A packed command word carries what its row fixes. -/
theorem carries_packCw (op : Byte) (f : Bool) (n : BitVec 32) (fZero nZero : Bool)
    (hf : fZero = true → f = false) (hn : nZero = true → n = 0) :
    Carries (.cw op fZero nZero) (.cw (packCw op f n)) :=
  ⟨_, rfl, cwOp_packCw .., cwRsv_packCw .., fun h => (cwF_packCw ..).trans (hf h),
    fun h => (cwN_packCw ..).trans (hn h)⟩

theorem init : Statement (.init) :=
  carries_packCw _ _ _ _ _ (by simp) (by simp)

theorem getRandom (dstv : Bool) (size : BitVec 32) : Statement (.getRandom dstv size) :=
  carries_packCw _ _ _ _ _ (by simp) (by simp)

theorem reseed : Statement (.reseed) :=
  carries_packCw _ _ _ _ _ (by simp) (by simp)

theorem update (hasExtra : Bool) : Statement (.update hasExtra) :=
  carries_packCw _ _ _ _ _ (by simp) (by simp)

theorem getEntropy (esize : BitVec 32) : Statement (.getEntropy esize) :=
  carries_packCw _ _ _ _ _ (by simp) (by simp)

theorem aesEcbEncrypt (keySize : BitVec 32) : Statement (.aesEcbEncrypt keySize) :=
  carries_packCw _ _ _ _ _ (by simp) (by simp)

theorem ngEnable : Statement (.ngEnable) := ⟨_, rfl⟩

theorem ngDisable : Statement (.ngDisable) := ⟨_, rfl⟩

theorem ngReset : Statement (.ngReset) := ⟨_, rfl⟩

theorem ngConfigure (c t w b : Word) : Statement (.ngConfigure c t w b) := ⟨_, rfl⟩

theorem ngFsmRead : Statement (.ngFsmRead) := ⟨_, rfl⟩

theorem ngKeySet (index : Fin 4) (word : Word) : Statement (.ngKeySet index word) := ⟨_, rfl⟩

theorem ngKeyRead (index : Fin 4) : Statement (.ngKeyRead index) := ⟨_, rfl⟩

theorem ngLevelRead : Statement (.ngLevelRead) := ⟨_, rfl⟩

theorem ngFifoPop : Statement (.ngFifoPop) := ⟨_, rfl⟩

theorem accEnable : Statement (.accEnable) := ⟨_, rfl⟩

theorem accDisable : Statement (.accDisable) := ⟨_, rfl⟩

theorem accSetFetch (addr : ChainAddr) : Statement (.accSetFetch addr) := by
  cases addr; exact ⟨_, rfl⟩

theorem accSetPush (addr : OutAddr) : Statement (.accSetPush addr) := by
  cases addr; exact ⟨_, rfl⟩

theorem accSetIndirect : Statement (.accSetIndirect) := ⟨_, rfl⟩

theorem accStart : Statement (.accStart) := ⟨_, rfl⟩

theorem accStatusRead : Statement (.accStatusRead) := ⟨_, rfl⟩

theorem accSoftreset : Statement (.accSoftreset) := ⟨_, rfl⟩

theorem barrier : Statement (.barrier) := ⟨_, rfl⟩

end Sys2Proof.Laws.TableBits
end

