-- ==== Sys2Proof/Laws/Status.lean ====
section
/-! SUPPORT. When STATUS is written (R28): by the row that ends a host command, and by no other. -/

namespace Sys2Proof.Machine

/-- R7: while the Block Cipher Engine polls, EC does not run. -/
def OneRuns (s : State) : Prop := s.bce = .poll → s.ec.phase = .idle

/-- R28, R65: STATUS is as before, or the operation has ended. -/
def StatusKept (s t : State) : Prop := OneRuns t ∧ (idle t = true ∨ t.host.status = s.host.status)

/-- The failure path ends the operation. -/
theorem raise_status {s : State} (t : State) (st : Status) (hb : s.bce = .idle)
    (he : s.ec.phase = .idle) : StatusKept t (raise st s) := by
  obtain ⟨_, h1, _, h2, h3, _⟩ := raise_frame st s
  exact ⟨fun h => by rw [h3, he], .inl (idle_of h1 (h3.trans he) (h2.trans hb))⟩

/-- R147: a row of DCE writes STATUS only where it ends the command. -/
theorem dceRow_status {s : State} (hb : s.bce = .idle) (he : s.ec.phase = .idle) :
    StatusKept s (dceRow s) := by
  have hrow : ∀ t : State, t.ec.phase = s.ec.phase → t.host.status = s.host.status →
      StatusKept s t := fun t h1 h2 => ⟨fun _ => h1.trans he, .inr h2⟩
  unfold dceRow
  split
  · exact hrow _ rfl rfl
  · unfold dceCheck
    split
    · exact raise_status _ _ hb he
    · split
      · exact ⟨fun _ => by simpa using he,
      .inl (idle_of (by simp) (by simpa using he) (by simpa using hb))⟩
      · split <;> exact hrow _ (by simp) (by simp)
  · exact hrow _ (by simp) (by simp)
  · exact ⟨fun h => by simp [hb] at h, .inr (by simp)⟩
  · exact hrow _ (by simp [dceUpd]) (by simp [dceUpd])
  · unfold dceCommit
    simp only
    split
    · unfold reseedReturn
      simp only
      split
      · split <;> exact hrow _ (by simp) (by simp)
      · exact hrow _ (by simp) (by simp)
      · exact hrow _ (by simp) (by simp)
    · exact hrow _ (by simp) (by simp)
    · exact hrow _ (by simp) (by simp)
  · unfold dceReseedTest
    split <;> exact hrow _ (by simp) (by simp)
  · unfold dceOut
    split <;> exact hrow _ (by simp) (by simp)
  · exact hrow _ (by simp) (by simp)
  · exact ⟨fun _ => by simpa using he,
      .inl (idle_of (by simp) (by simpa using he) (by simpa using hb))⟩

/-- R132, R142: taking a cipher block writes no STATUS. -/
theorem dceBlock_status {s t : State} (he : s.ec.phase = .idle) (h : dceBlock s = .next t) :
    StatusKept s t := by
  unfold dceBlock at h
  split at h
  · cases h; exact ⟨fun _ => by simpa using he, .inr (by simp)⟩
  · unfold takeOutBlock at h
    obtain ⟨a, ha, h⟩ := andThen_eq_next.1 h
    cases h
    obtain ⟨_, rfl⟩ := outWrite_next ha
    exact ⟨fun _ => by simpa using he, .inr (by simp)⟩
  · cases h; exact ⟨fun _ => he, .inr rfl⟩

/-- R28: a row leaves STATUS as it is, or the machine is idle after it. -/
theorem tick_status {s t : State} (hs : OneRuns s) (h : tick s = .next t) : StatusKept s t := by
  obtain ⟨_, _, hec, _, _, hst, _⟩ := accStatusRead_frame s
  rcases tick_cases h with ⟨hb, h⟩ | ⟨hb, he, rfl⟩ | ⟨hb, _, r, u, hr, rfl⟩
  · have he := hs hb
    rcases aesPoll_cases s with ⟨_, h'⟩ | ⟨_, h'⟩ | ⟨_, b, h'⟩ <;> rw [h'] at h <;> simp at h
    · rw [h]; exact ⟨fun _ => by rw [hec]; exact he, .inr (by rw [hst])⟩
    · have := dceBlock_status (by simpa [hec] using he) h
      exact ⟨this.1, this.2.imp_right fun h => by rw [h]; simp [hst]⟩
    · rw [h]
      obtain ⟨w, hw⟩ : ∃ w, w = aesReturn .fail b (drawBlock (accStatusRead s).2).2 := ⟨_, rfl⟩
      have hwe : w.ec.phase = .idle := by rw [hw]; simpa [hec] using he
      have hws : w.host.status = s.host.status := by rw [hw]; simp [hst]
      rw [← hw]
      unfold dceBlockFailed
      split
      · exact raise_status _ _ (by simp [hw]) (by simpa using hwe)
      · exact raise_status _ _ (by simp [hw]) (by simpa using hwe)
      · exact ⟨fun _ => hwe, .inr hws⟩
  · exact dceRow_status hb he
  · obtain ⟨_, _, hub, _, _, h6, _⟩ := ecRow_frame hr
    have hnb : u.bce = .idle := hub.trans hb
    cases r with
    | none => exact ⟨fun h => by simp [hnb] at h, .inr (by rw [h6])⟩
    | some st =>
      have hue : u.ec.phase = .idle := by
        rcases ecRow_cases hr with ⟨_, h, _⟩ | ⟨_, h⟩ | ⟨_, h, _⟩ | ⟨_, h, _⟩ | ⟨_, h, _⟩ |
          ⟨_, h, _⟩ | ⟨_, h, _⟩ | ⟨_, h, _⟩ | ⟨_, _, rfl⟩
        · cases h
        · unfold ecCheck at h; split at h <;> cases h; simp
        all_goals first | cases h | simp
      simp only
      unfold dceEntropy
      split
      · cases st
        · exact ⟨fun _ => by simpa using hue, .inr (by simp [h6])⟩
        · exact raise_status _ _ hnb hue
        · exact raise_status _ _ hnb hue
      · exact ⟨fun _ => hue, .inr (by rw [h6])⟩

end Sys2Proof.Machine
end

