-- ==== Sys2Proof/Tests/Slice0.lean ====
section
/-! SUPPORT. Own tests: the check of ill-formed terms, decoded words written out from the spec's encodings,
one-step vectors of spec/95_test_vectors.md (each named in its comment), and a witness for the hypotheses
of every obligation that has some. -/

namespace Sys2Proof.Tests

open Sys2Proof.Machine Sys2Proof.Claims

/-! ## Well-formed terms (R66, R74) -/

theorem test_wf_reserved_key_size_refused : (Instr.aesEcbEncrypt 0).wellFormed = false := by decide
theorem test_wf_key_size_31_refused : (Instr.aesEcbEncrypt 31).wellFormed = false := by decide
theorem test_wf_legal_key_sizes :
    (Instr.aesEcbEncrypt 16).wellFormed = true ∧ (Instr.aesEcbEncrypt 24).wellFormed = true ∧
      (Instr.aesEcbEncrypt 32).wellFormed = true := by decide

/-! ## Command words written out: OP (8 bits), RSV (23), F (1), N (32) (R61, R62) -/

theorem test_decode_init :
    decodeCw (0b00000001#8 ++ 0b00000000000000000000000#23 ++ 0b0#1 ++
      0b00000000000000000000000000000000#32) = .ok .init := by decide
theorem test_decode_get_random :
    decodeCw (0b00000010#8 ++ 0b00000000000000000000000#23 ++ 0b1#1 ++
      0b10000000000000000000000000010100#32) = .ok (.getRandom true 0x80000014) := by decide
theorem test_decode_reseed :
    decodeCw (0b00010000#8 ++ 0b00000000000000000000000#23 ++ 0b0#1 ++
      0b00000000000000000000000000000000#32) = .ok .reseed := by decide
theorem test_decode_update :
    decodeCw (0b00010001#8 ++ 0b00000000000000000000000#23 ++ 0b1#1 ++
      0b00000000000000000000000000000000#32) = .ok (.update true) := by decide
theorem test_decode_get_entropy :
    decodeCw (0b00100000#8 ++ 0b00000000000000000000000#23 ++ 0b0#1 ++
      0b00000000000000000000000000110000#32) = .ok (.getEntropy 48) := by decide
theorem test_decode_aes_ecb_encrypt :
    decodeCw (0b00110000#8 ++ 0b00000000000000000000000#23 ++ 0b0#1 ++
      0b00000000000000000000000000011000#32) = .ok (.aesEcbEncrypt 24) := by decide

/-! ## Port events written out: the identifier of R68, then the arguments (log entry 12) -/

theorem test_decode_ng_enable : decode (.pe [0b01000000#8]) = .ok .ngEnable := by decide
theorem test_decode_ng_disable : decode (.pe [0b01000001#8]) = .ok .ngDisable := by decide
theorem test_decode_ng_reset : decode (.pe [0b01000010#8]) = .ok .ngReset := by decide
theorem test_decode_ng_configure :
    decode (.pe [0b01000011#8, 1, 0, 0, 0, 2, 0, 0, 0, 3, 0, 0, 0, 0x78, 0x56, 0x34, 0x12]) =
      .ok (.ngConfigure 1 2 3 0x12345678) := by decide
theorem test_decode_ng_fsm_read : decode (.pe [0b01000100#8]) = .ok .ngFsmRead := by decide
theorem test_decode_ng_key_set :
    decode (.pe [0b01000101#8, 3, 0, 0, 0, 0x11, 0x22, 0x33, 0x44]) =
      .ok (.ngKeySet 3 0x44332211) := by decide
theorem test_decode_ng_key_read :
    decode (.pe [0b01000110#8, 2, 0, 0, 0]) = .ok (.ngKeyRead 2) := by decide
theorem test_decode_ng_level_read : decode (.pe [0b01000111#8]) = .ok .ngLevelRead := by decide
theorem test_decode_ng_fifo_pop : decode (.pe [0b01001000#8]) = .ok .ngFifoPop := by decide
theorem test_decode_acc_enable : decode (.pe [0b01010000#8]) = .ok .accEnable := by decide
theorem test_decode_acc_disable : decode (.pe [0b01010001#8]) = .ok .accDisable := by decide
theorem test_decode_acc_set_fetch :
    decode (.pe [0b01010010#8]) = .ok (.accSetFetch .jobChain) := by decide
theorem test_decode_acc_set_push :
    decode (.pe [0b01010011#8]) = .ok (.accSetPush .jobOutput) := by decide
theorem test_decode_acc_set_indirect :
    decode (.pe [0b01010100#8]) = .ok .accSetIndirect := by decide
theorem test_decode_acc_start : decode (.pe [0b01010101#8]) = .ok .accStart := by decide
theorem test_decode_acc_status_read : decode (.pe [0b01010110#8]) = .ok .accStatusRead := by decide
theorem test_decode_acc_softreset : decode (.pe [0b01010111#8]) = .ok .accSoftreset := by decide
theorem test_decode_barrier : decode (.pe [0b01100000#8]) = .ok .barrier := by decide

/-- R68: an index of CK above 3 is no event. -/
theorem test_decode_key_index_refused :
    decode (.pe [0x46, 4, 0, 0, 0]) = .error .keyIndex := by decide
/-- T-E7, T-E8, T-E17. -/
theorem test_unassigned_op :
    decodeHost 0x0000000000000000 = .error (.unassignedOp 0) ∧
      decodeHost 0x0300000000000000 = .error (.unassignedOp 3) ∧
      decodeHost 0xFF00000000000000 = .error (.unassignedOp 0xFF) := by decide
/-- T-E9 to T-E12. -/
theorem test_internal_op_at_host_port :
    decodeHost 0x1000000000000000 = .error .internalOp ∧
      decodeHost 0x1100000100000000 = .error .internalOp ∧
      decodeHost 0x2000000000000030 = .error .internalOp ∧
      decodeHost 0x3000000000000020 = .error .internalOp := by decide
/-- T-E13 to T-E16. -/
theorem test_reserved_bits :
    decodeHost 0x0200000200000010 = .error .reservedBits ∧
      decodeHost 0x0280000100000010 = .error .reservedBits ∧
      decodeHost 0x0100000000000001 = .error .operandNotZero ∧
      decodeHost 0x0100000100000000 = .error .flagNotZero := by decide

/-! ## States -/

/-- The next state of an outcome, where there is one. -/
def nextOf (o : Host.Outcome State Fault Refusal) : Option State :=
  match o with
  | .next s => some s
  | _ => none

/-- The five flags of a status read, from the code of R70. -/
def flags (code : BitVec 5) : AccStatus := accStatusOfBits code

/-- E0 of spec/95_test_vectors.md: bytes 0x00 to 0x2F. -/
def e0 : Seed48 :=
  0x000102030405060708090a0b0c0d0e0f101112131415161718191a1b1c1d1e1f202122232425262728292a2b2c2d2e2f
/-- E1: bytes 0x80 to 0xAF. -/
def e1 : Seed48 :=
  0x808182838485868788898a8b8c8d8e8f909192939495969798999a9b9c9d9e9fa0a1a2a3a4a5a6a7a8a9aaabacadaeaf
/-- The words of E0, as the vectors list them. -/
def e0Words : List Word :=
  [0x03020100, 0x07060504, 0x0B0A0908, 0x0F0E0D0C, 0x13121110, 0x17161514, 0x1B1A1918, 0x1F1E1D1C,
    0x23222120, 0x27262524, 0x2B2A2928, 0x2F2E2D2C]
/-- The words of E1. -/
def e1Words : List Word :=
  [0x83828180, 0x87868584, 0x8B8A8988, 0x8F8E8D8C, 0x93929190, 0x97969594, 0x9B9A9998, 0x9F9E9D9C,
    0xA3A2A1A0, 0xA7A6A5A4, 0xABAAA9A8, 0xAFAEADAC]

/-- A state after reset on which the environment has settled these answers. -/
def answers (fsm : List NgFsm) (words : List (List Word)) (as : List AccStatus) : State :=
  { State.reset with env := { ngFsmIn := fsm, ngWordsIn := words, accStatusIn := as, draws := 0 } }

/-- After reset, with `n` jobs that read done at once. -/
def quiet (n : Nat) : State := answers [] [] (List.replicate n accStatusClear)

/-- After reset, with the answers of one GET_ENTROPY that returns `ws`, and those of `n` jobs. -/
def entropy (ws : List Word) (n : Nat) : State :=
  answers [.ready, .ready] [[0xA5A5A500, 0xA5A5A501, 0xA5A5A502, 0xA5A5A503], ws]
    (List.replicate n accStatusClear)

/-- GeneratorState at the end of T-I1. -/
def gen1 : GeneratorState :=
  { key := 0x530e88f8c34030bea16abefac8c67d84deb6522e59757d791f57dfc8a6ee8307
    v := 0x524121e913830c53f98bdfa5592b1ba1, reseedCtr := 1, initialized := true }

/-- A state with a given GeneratorState. -/
def withGen (g : GeneratorState) (s : State) : State := { s with gen := g }

/-- A state with something to issue. -/
def withIssue (x : Issue) (s : State) : State := { s with host := { s.host with issue := [x] } }

/-- The bytes of OUT at offsets 0 to n - 1. -/
def outBytes (n : Nat) (s : State) : List (Option Byte) := (List.range n).map (Memory.read s.out)

/-! ## The cipher and the arithmetic -/

/-- T-A1. -/
theorem test_aes256_fips197 :
    aes256 0x000102030405060708090a0b0c0d0e0f101112131415161718191a1b1c1d1e1f
      0x00112233445566778899aabbccddeeff = 0x8ea2b7ca516745bfeafc49904b496089 := by decide +kernel
/-- T-A2. -/
theorem test_aes256_zero : aes256 0 0 = 0xdc95c078a2408989ad48a21492842087 := by decide +kernel
/-- FIPS-197 appendix C.1, from general knowledge (log entry 5). -/
theorem test_aes128_fips197 :
    aes ((List.range 16).map (BitVec.ofNat 8)) 0x00112233445566778899aabbccddeeff =
      0x69c4e0d86a7b0430d8cdb78070b4c55a := by decide +kernel
/-- FIPS-197 appendix C.2, from general knowledge (log entry 5). -/
theorem test_aes192_fips197 :
    aes ((List.range 24).map (BitVec.ofNat 8)) 0x00112233445566778899aabbccddeeff =
      0xdda97ca4864cdfe06eaf70a0ec0d7191 := by decide +kernel
/-- T-C2 to T-C4. -/
theorem test_inc128 :
    inc128 0xff = 0x100 ∧ inc128 0xffffffffffffffff = 0x10000000000000000 ∧
      inc128 0xffffffffffffffffffffffffffffffff = 0 := by decide
/-- Section 3.7, byte-order checks of the drain. -/
theorem test_drain_byte_order :
    drainBytes 4 [0x44332211] = [0x11, 0x22, 0x33, 0x44] ∧
      drainBytes 4 [0x80000000] = [0, 0, 0, 0x80] := by decide
/-- Section 3.8, classification of flag values. -/
theorem test_classify :
    classify (flags 0x00) = .done ∧ classify (flags 0x07) = .busy ∧ classify (flags 0x08) = .error ∧
      classify (flags 0x1F) = .error := by decide

/-! ## The six operations -/

/-- T-U1. -/
theorem test_update_none :
    (nextOf (exec (.update false) (quiet 3))).map (fun t => (t.gen.key, t.gen.v)) =
      some (0x530f8afbc74536b9a963b4f1c4cb738bcea7403d4d606b6e074ec5d3baf39d18,
        0x726003ca37a62a74d1a2f58e7506358e) := by decide +kernel
/-- T-U3. -/
theorem test_update_seed :
    (nextOf (exec (.update true) { quiet 3 with dce := { (quiet 3).dce with seed := e0 } })).map
        (fun t => (t.gen.key, t.gen.v)) =
      some (0x530e88f8c34030bea16abefac8c67d84deb6522e59757d791f57dfc8a6ee8307,
        0x524121e913830c53f98bdfa5592b1ba1) := by decide +kernel
/-- T-I1, and the 67 events of P1. -/
theorem test_init :
    (nextOf (exec .init (entropy e0Words 3))).map
        (fun t => (t.gen, t.host.status, t.trace.length)) = some (gen1, 0, 67) := by decide +kernel
/-- T-I5 with k = 2. -/
theorem test_init_fails :
    (nextOf (exec .init (answers [.ready, .ready] [[1, 2, 3, 4], e0Words]
        [accStatusClear, flags 0x08]))).map (fun t => (t.gen, t.host.status, t.acc.enabled)) =
      some ({ key := 0, v := 0, reseedCtr := 0, initialized := false }, 0xFFFFFFFF, false) := by
  decide +kernel
/-- T-R1. -/
theorem test_reseed :
    (nextOf (exec .reseed (withGen { gen1 with reseedCtr := 0xFFFFFFFFFFFF }
        (entropy e1Words 3)))).map (fun t => t.gen) =
      some { key := 0x8694d2a0c9900ad941dc1f758862f4aae6eebcb758be52ee48041c4706216378
             v := 0xa5cb2e85cb3b5fd9782ceb707e4c510e, reseedCtr := 1, initialized := true } := by
  decide +kernel
/-- T-R2. -/
theorem test_reseed_fails :
    (nextOf (exec .reseed (withGen gen1 (answers [.ready, .ready] [[1, 2, 3, 4], e1Words]
        [flags 0x08])))).map (fun t => (t.gen, callCount opGetEntropy t, callCount opAes t)) =
      some (gen1, 1, 1) := by decide +kernel
/-- T-D3d. -/
theorem test_get_random :
    (nextOf (exec (.getRandom true 17) (withGen gen1 (quiet 5)))).map
        (fun t => (outBytes 18 t, t.gen)) =
      some ([some 0x06, some 0x15, some 0x50, some 0x23, some 0x4d, some 0x15, some 0x8c, some 0x5e,
          some 0xc9, some 0x55, some 0x95, some 0xfe, some 0x04, some 0xef, some 0x7a, some 0x25,
          some 0x76, none],
        { key := 0x056a8c266f9ef97ed08541dbd2e1ffa19810f5392d076276ef41277c3ab6e94a
          v := 0x4e3b7dcc104a05bb089d338bf55c72ca, reseedCtr := 2, initialized := true }) := by
  decide +kernel
/-- T-D5. -/
theorem test_get_random_threshold :
    (nextOf (exec (.getRandom true 16) (withGen { gen1 with reseedCtr := 0xFFFFFFFFFFFF }
        (entropy e1Words 7)))).map (fun t => (t.gen, callCount opGetEntropy t, callCount opAes t)) =
      some ({ key := 0xc1723f259f66875a213cd9712706fba1d38f59f30937a6274afffc176ff04e6c
              v := 0x6bca6a9533e7a5db8b946c2d24271896, reseedCtr := 2, initialized := true }, 1, 7) := by
  decide +kernel
/-- T-N2. -/
theorem test_get_entropy :
    (nextOf (exec (.getEntropy 6) (answers [.ready, .ready]
        [[1, 2, 3, 4], [0x44332211, 0x88776655, 0, 0]] []))).map
        (fun t => (t.ec.ebuf, t.ng.enabled)) =
      some ([0x11, 0x22, 0x33, 0x44, 0x55, 0x66], false) := by decide +kernel
/-- T-N7: ERROR after the key load. -/
theorem test_get_entropy_recovers :
    (nextOf (exec (.getEntropy 48) (answers
        [.ready, .error, .reset, .startup, .ready, .ready]
        [[1, 2, 3, 4], [5, 6, 7, 8], e0Words] []))).map
        (fun t => (t.ec.ebuf == bytesOf 48 e0, t.trace.count (.ngKeySet 0 5), t.ec.estatus,
          t.trace.count .ngReset, t.trace.count .ngEnable)) =
      some (true, 1, 0, 2, 1) := by decide +kernel
/-- T-B2, on the operands of T-A1. -/
theorem test_aes_ecb_encrypt :
    (nextOf (exec (.aesEcbEncrypt 32) (withGen
        { key := 0x000102030405060708090a0b0c0d0e0f101112131415161718191a1b1c1d1e1f
          v := 0x00112233445566778899aabbccddeeff, reseedCtr := 0, initialized := false }
        (answers [] [] [flags 1, flags 3, flags 2, flags 4, flags 0])))).map
        (fun t => (t.dce.blk, t.acc.enabled)) =
      some (0x8ea2b7ca516745bfeafc49904b496089, false) := by decide +kernel
/-- T-B5: an error flag counts before a busy flag. -/
theorem test_aes_ecb_encrypt_fails :
    (nextOf (exec (.aesEcbEncrypt 32) (answers [] [] [flags 0x09]))).map (fun t => t.trace) =
      some [.call 0x30 false 32, .accEnable, .accSetFetch .jobChain, .accSetPush .jobOutput,
        .accSetIndirect, .barrier, .accStart, .accStatusRead (flags 0x09), .accSoftreset,
        .accDisable, .ret 0x30 .fail] := by decide +kernel

/-! ## Port operations: expected values from R93 to R101 and R119 to R126 -/

theorem test_ng_key_set :
    (nextOf (exec (.ngKeySet 2 0xAABBCCDD) State.reset)).map (fun t => t.ng.ck.toList) =
      some [0, 0, 0xAABBCCDD, 0] := by decide
theorem test_ng_fifo_pop :
    (nextOf (exec .ngFifoPop { State.reset with ng := { State.reset.ng with fifo := [7, 8] } })).map
        (fun t => (t.ng.fifo, t.trace)) = some ([8], [.ngFifoPop 7]) := by decide
theorem test_ng_reset_keeps_enable :
    (nextOf (exec .ngReset { State.reset with ng :=
        { State.reset.ng with enabled := true, fsm := .ready, fifo := [7] } })).map
        (fun t => (t.ng.enabled, t.ng.fsm, t.ng.fifo)) = some (true, .reset, []) := by decide
theorem test_acc_start_refused_after_reset :
    exec .accStart State.reset = .refused .acceleratorDisabled := rfl
theorem test_acc_softreset_keeps_enable :
    (nextOf (exec .accSoftreset { State.reset with acc := { State.reset.acc with
        enabled := true, status := flags 0x1F } })).map (fun t => (t.acc.enabled, t.acc.status)) =
      some (true, accStatusClear) := by decide

theorem test_ng_disable :
    (nextOf (exec .ngDisable { State.reset with ng := { State.reset.ng with enabled := true } })).map
        (fun t => (t.ng.enabled, t.trace)) = some (false, [.ngDisable]) := by decide
/-- R90: the largest size needs 2^30 words, whatever the 30 bits of NEED hold. -/
theorem test_drain_count_top : drainCount 5 0xFFFFFFFF = 2 ^ 30 ∧ drainCount 2 6 = 2 := by decide
/-- R90: two words are drained and the other two stay in the FIFO (until NG_DISABLE, R94). -/
theorem test_drain_leaves_rest :
    (nextOf (tick { State.reset with
        ec := { State.reset.ec with phase := .drain, need := 2, esize := 6 }
        ng := { State.reset.ng with enabled := true, fifo := [0x44332211, 0x88776655, 7, 8] } })).map
        (fun t => (t.ec.ebuf, t.ng.fifo)) =
      some ([0x11, 0x22, 0x33, 0x44, 0x55, 0x66], [7, 8]) := by decide
/-- R26: right after reset the flags are drawn (a queued answer is the one drawn). -/
theorem test_acc_status_read_drawn :
    (nextOf (exec .accStatusRead (answers [] [] [flags 0x15]))).map
        (fun t => (t.acc.status, t.trace)) =
      some (flags 0x15, [.accStatusRead (flags 0x15)]) := by decide
/-- R27: after ACC_SOFTRESET they read as cleared. -/
theorem test_acc_status_read_cleared :
    (nextOf (exec .accStatusRead (accSoftreset (answers [] [] [flags 0x15])))).map
        (fun t => t.acc.status) = some accStatusClear := by decide

/-! ## The step -/

/-- T-E3 at the host port: STATUS 0, the word in CMD, nothing in the trace. -/
theorem test_step_zero_size :
    (nextOf (step (withIssue (.host 0x0200000000000000) State.reset))).map
        (fun t => (t.host, t.trace)) =
      some ({ cmd := 0x0200000000000000, status := 0, issue := [] }, []) := by decide
/-- T-E9 at the host port: STATUS -2. -/
theorem test_step_illegal_word :
    (nextOf (step (withIssue (.host 0x1000000000000000) State.reset))).map
        (fun t => (t.host.status, t.trace)) = some (0xFFFFFFFE, []) := by decide
/-- R115: a GET_RANDOM whose reads stay busy is still in progress. -/
theorem test_busy_operation_stays :
    (nextOf (exec (.getRandom true 16) (withGen gen1 (answers [] [] [flags 2, flags 2])))).map
        (fun t => (t.dce.phase, t.bce, t.acc.enabled)) = some (.out 0, .poll, true) := by
  decide +kernel
/-- The fetch word of NG_ENABLE runs it first. -/
theorem test_with_fetch_word :
    (nextOf (step (State.reset.withFetchWord 8 0x40))).map (fun t => t.trace) =
      some [.ngEnable] := by decide

/-! ## Witnesses: for each obligation with hypotheses, concrete values that meet them together -/

/-- An outcome that is a next state has one. -/
theorem exists_next {o : Host.Outcome State Fault Refusal} (h : (nextOf o).isSome = true) :
    ∃ t, o = .next t := by
  cases o with
  | next t => exact ⟨t, rfl⟩
  | fault r => cases h
  | refused r => cases h

/-- n jobs that read done at once. -/
theorem jobsDone_replicate (n : Nat) : JobsDone n (List.replicate n accStatusClear) :=
  ⟨List.replicate n [accStatusClear], by simp,
    fun l h => by rw [List.eq_of_mem_replicate h]; exact ⟨[], _, rfl, by simp, by decide⟩,
    by induction n with
      | zero => rfl
      | succ n ih => simp [List.replicate_succ]⟩

/-- A job that reads busy in three ways and then done. -/
theorem jobDone_busy : JobDone [flags 1, flags 2, flags 4, flags 0] :=
  ⟨[flags 1, flags 2, flags 4], flags 0, rfl, by decide, by decide⟩

/-- A job that reads busy once and then an error beside a busy flag. -/
theorem jobError_busy : JobError [flags 1, flags 9] :=
  ⟨[flags 1], flags 9, rfl, by decide, by decide⟩

/-- The answers of `entropy` satisfy GET_ENTROPY for up to 48 bytes. -/
theorem entropyAnswers_entropy {ws : List Word} {n : Nat} {esize : BitVec 32}
    (hl : ws.length = 12) (he : needOf esize ≤ 12) :
    EntropyAnswers (entropy ws n).env esize [0xA5A5A500, 0xA5A5A501, 0xA5A5A502, 0xA5A5A503] ws := by
  have := twelve_le_fifoDepthWords
  exact ⟨[], ws, [], [], rfl, rfl, rfl, rfl, by simp; omega, by omega, by omega, by omega⟩

theorem quiet_quiet (n : Nat) : Quiet (quiet n) := ⟨rfl, rfl⟩
theorem quiet_entropy (ws : List Word) (n : Nat) : Quiet (entropy ws n) := ⟨rfl, rfl⟩
theorem quiet_withGen (g : GeneratorState) {s : State} (h : Quiet s) : Quiet (withGen g s) := h

theorem witness_DecodeEncodeRoundTrip :
    (Instr.aesEcbEncrypt 24).wellFormed = true ∧ (Instr.ngKeySet 3 0x12345678).wellFormed = true ∧
      encode (.ngKeySet 3 0x12345678) = .pe [0x45, 3, 0, 0, 0, 0x78, 0x56, 0x34, 0x12] := by decide
theorem witness_CommandWordHasOneMeaning :
    decodeCw 0x1100000100000000 = .ok (.update true) := by decide
theorem witness_IllegalCommandWords :
    idle (withIssue (.host 0x0280000100000010) State.reset) = true ∧
      (withIssue (.host 0x0280000100000010) State.reset).host.issue =
        .host 0x0280000100000010 :: [] ∧
      decodeHost 0x0280000100000010 = .error .reservedBits ∧
      (17 : BitVec 32) ≠ 16 ∧ (17 : BitVec 32) ≠ 24 ∧ (17 : BitVec 32) ≠ 32 := by decide
theorem witness_StepRunsHostCommand :
    idle (withIssue (.host 0x0200000100010000) State.reset) = true ∧
      (withIssue (.host 0x0200000100010000) State.reset).host.issue =
        .host 0x0200000100010000 :: [] ∧
      decodeHost 0x0200000100010000 = .ok (.getRandom true 65536) := by decide
theorem witness_StepRunsEngineOperation :
    idle (withIssue (.engine (.pe [0x46, 3, 0, 0, 0])) State.reset) = true ∧
      (withIssue (.engine (.pe [0x46, 3, 0, 0, 0])) State.reset).host.issue =
        .engine (.pe [0x46, 3, 0, 0, 0]) :: [] ∧
      decode (.pe [0x46, 3, 0, 0, 0]) = .ok (.ngKeyRead 3) := by decide
theorem witness_BusyMachineAcceptsNothing :
    idle { State.reset with dce := { State.reset.dce with phase := .seed } } = false ∧
      isCommand (.aesEcbEncrypt 16) = true ∧ (Instr.aesEcbEncrypt 16).wellFormed = true := by decide
theorem witness_IdleMachineWaits :
    idle State.reset = true ∧ State.reset.host.issue = [] := by decide

/-- NG with two words in its FIFO, and one queued answer of each kind. -/
def ngTwo : State :=
  { answers [.startup] [[9]] [] with ng := { State.reset.ng with fifo := [7, 8] } }

theorem witness_NgReadsAnswer : ngTwo.env.ngFsmIn = .startup :: [] := rfl
theorem witness_NgLevelReadAnswers :
    ngTwo.ng.fifo.length ≤ Config.fifoDepthWords ∧ ngTwo.env.ngWordsIn = [9] :: [] := by
  have := twelve_le_fifoDepthWords
  exact ⟨by simp [ngTwo]; omega, rfl⟩
theorem witness_NgFifoPopTakesHead :
    ngTwo.ng.fifo = 7 :: [8] ∧ State.reset.ng.fifo = [] := ⟨rfl, rfl⟩

/-- A job as AES_ECB_ENCRYPT submits it. -/
def job1 : Job := jobOf 32 0 0
/-- A state in which ACC_START has its requirements. -/
def submitted : State :=
  { State.reset with
    acc := { State.reset.acc with
      enabled := true, fetchAddr := .jobChain, pushAddr := .jobOutput, indirect := true }
    job := { chain := some job1, outBlock := 0, ordered := true } }

theorem witness_AccStartNeedsItsRequirements :
    (submitted.acc.enabled = true ∧ submitted.acc.fetchAddr = .jobChain ∧
      submitted.acc.pushAddr = .jobOutput ∧ submitted.acc.indirect = true ∧
      submitted.job.chain = some job1 ∧ submitted.job.ordered = true) ∧
    State.reset.acc.enabled = false ∧
    (({ submitted with acc := { submitted.acc with indirect := false } } : State).acc.enabled =
        true ∧
      ({ submitted with acc := { submitted.acc with indirect := false } } : State).acc.indirect =
        false) ∧
    ({ submitted with job := { submitted.job with ordered := false } } : State).job.ordered =
      false := ⟨⟨rfl, rfl, rfl, rfl, rfl, rfl⟩, rfl, ⟨rfl, rfl⟩, rfl⟩

/-- A state with a job in flight, whose next reads are busy and then done. -/
def inFlight : State :=
  { answers [] [] [flags 1, flags 0] with
    acc := { submitted.acc with job := some job1 }, job := submitted.job }

theorem witness_AccStatusReadAnswers :
    (AccFlagsInv State.reset ∧ step State.reset = .next State.reset) ∧
    AccFlagsInv (accSoftreset State.reset) ∧
    (State.reset.acc.job = none ∧ State.reset.acc.softresetDone = false ∧
      (quiet 1).acc.job = none ∧ (quiet 1).env.accStatusIn = accStatusClear :: []) ∧
      ((accSoftreset State.reset).acc.job = none ∧
        (accSoftreset State.reset).acc.softresetDone = true) ∧
      inFlight.acc.job = some job1 ∧
      inFlight.env.accStatusIn = flags 1 :: [flags 0] ∧ classify (flags 0) = .done := by
  exact ⟨⟨fun _ _ => rfl, rfl⟩, fun _ _ => rfl, ⟨rfl, rfl, rfl, rfl⟩, ⟨rfl, rfl⟩, rfl, rfl,
    by decide⟩
theorem witness_PortOperationsFrame :
    isNgOp .ngFsmRead = true ∧ (∃ t, exec .ngFsmRead ngTwo = .next t) ∧
      isAccOp .accStatusRead = true ∧ (∃ t, exec .accStatusRead inFlight = .next t) :=
  ⟨rfl, ⟨_, rfl⟩, rfl, ⟨_, rfl⟩⟩

/-- The bound of R83 is an open parameter (R6): the ESIZE one above it meets the hypothesis wherever that
is a 32-bit number. -/
theorem witness_OversizedEntropyRequestFails (h : Config.entropyMaxBytes + 1 < 2 ^ 32) :
    Quiet State.reset ∧
      Config.entropyMaxBytes < (BitVec.ofNat 32 (Config.entropyMaxBytes + 1)).toNat := by
  refine ⟨⟨rfl, rfl⟩, ?_⟩
  rw [BitVec.toNat_ofNat, Nat.mod_eq_of_lt h]
  omega
theorem witness_GetEntropyDelivers :
    (Quiet (entropy e0Words 0) ∧ (48 : BitVec 32).toNat ≤ Config.entropyMaxBytes ∧
      EntropyAnswers (entropy e0Words 0).env 48
        [0xA5A5A500, 0xA5A5A501, 0xA5A5A502, 0xA5A5A503] e0Words) ∧
    (0 : BitVec 32).toNat ≤ Config.entropyMaxBytes ∧
      EntropyAnswers (entropy e0Words 0).env 0
        [0xA5A5A500, 0xA5A5A501, 0xA5A5A502, 0xA5A5A503] e0Words :=
  ⟨⟨quiet_entropy _ _, le_entropyMaxBytes, entropyAnswers_entropy rfl (by decide)⟩,
    Nat.zero_le _, entropyAnswers_entropy rfl (by decide)⟩

/-- EC polling, with one answer queued. -/
def polling (f : NgFsm) : State :=
  { answers [f] [[1, 2, 3, 4]] [] with
    ec := { State.reset.ec with phase := .poll, need := 2, esize := 6 } }

theorem witness_PollIterationActions (f : NgFsm) :
    (polling f).ec.phase = .poll ∧ (polling f).bce = .idle ∧ (polling f).env.ngFsmIn = f :: [] :=
  ⟨rfl, rfl, rfl⟩
theorem witness_ErrorIsRecovered :
    (polling .error).ec.phase = .poll ∧ (polling .error).bce = .idle ∧
      (polling .error).env.ngFsmIn = .error :: [] := ⟨rfl, rfl, rfl⟩

/-- EC about to pop, with five words in the FIFO. -/
def popping (p : EcPhase) : State :=
  { State.reset with
    ec := { State.reset.ec with phase := p, need := 2, esize := 6 }
    ng := { State.reset.ng with enabled := true, fifo := [0x44332211, 0x88776655, 3, 4, 5] } }

theorem witness_KeyLoadTakesFourWords :
    (popping .keyload).ec.phase = .keyload ∧ (popping .keyload).bce = .idle ∧
      (popping .keyload).ng.fifo = 0x44332211 :: 0x88776655 :: 3 :: 4 :: [5] := ⟨rfl, rfl, rfl⟩
theorem witness_DrainPlacesBytes :
    (popping .drain).ec.phase = .drain ∧ (popping .drain).bce = .idle ∧
      drainCount (popping .drain).ec.need (popping .drain).ec.esize ≤
        (popping .drain).ng.fifo.length ∧
      1 < drainCount (popping .drain).ec.need (popping .drain).ec.esize ∧ 4 * 1 + 1 < (popping .drain).ec.esize.toNat ∧
      (popping .keyload).ng.fifo = 0x44332211 :: [0x88776655, 3, 4, 5] := by decide
theorem witness_GetEntropyFrame : ∃ t, exec (.getEntropy 48) (entropy e0Words 0) = .next t :=
  exists_next (by decide +kernel)
theorem witness_AesEncryptsOneBlock :
    Quiet (answers [] [] [flags 1, flags 2, flags 4, flags 0]) ∧
      ((24 : BitVec 32) = 16 ∨ (24 : BitVec 32) = 24 ∨ (24 : BitVec 32) = 32) ∧
      JobDone [flags 1, flags 2, flags 4, flags 0] ∧
      (answers [] [] [flags 1, flags 2, flags 4, flags 0]).env.accStatusIn =
        [flags 1, flags 2, flags 4, flags 0] ++ [] :=
  ⟨⟨rfl, rfl⟩, by decide, jobDone_busy, rfl⟩
theorem witness_AesFailsOnErrorFlag :
    Quiet (answers [] [] [flags 1, flags 9]) ∧
      ((16 : BitVec 32) = 16 ∨ (16 : BitVec 32) = 24 ∨ (16 : BitVec 32) = 32) ∧
      JobError [flags 1, flags 9] ∧
      (answers [] [] [flags 1, flags 9]).env.accStatusIn = [flags 1, flags 9] ++ [] :=
  ⟨⟨rfl, rfl⟩, by decide, jobError_busy, rfl⟩
theorem witness_AesFrame : ∃ t, exec (.aesEcbEncrypt 16) (quiet 1) = .next t :=
  exists_next (by decide +kernel)
theorem witness_UpdateReplacesKeyAndV :
    Quiet (quiet 3) ∧ JobsDone 3 (List.replicate 3 accStatusClear) ∧
      (quiet 3).env.accStatusIn = List.replicate 3 accStatusClear ++ [] :=
  ⟨quiet_quiet 3, jobsDone_replicate 3, rfl⟩

/-- Answers of `n` jobs that end done and of one that ends in an error. -/
def failing (n : Nat) : List AccStatus := List.replicate n accStatusClear ++ [flags 1, flags 9]

theorem witness_UpdateFailureChangesNothing :
    (Quiet (answers [] [] (failing 2)) ∧ 2 < 3 ∧ JobsDone 2 (List.replicate 2 accStatusClear) ∧
      JobError [flags 1, flags 9] ∧
      (answers [] [] (failing 2)).env.accStatusIn =
        List.replicate 2 accStatusClear ++ [flags 1, flags 9] ++ []) ∧
    (dceGoto .commit (quiet 3)).bce = .idle ∧ (dceGoto .commit (quiet 3)).ec.phase = .idle ∧
      (dceGoto .commit (quiet 3)).dce.phase = .commit :=
  ⟨⟨⟨rfl, rfl⟩, by decide, jobsDone_replicate 2, jobError_busy, rfl⟩, rfl, rfl, rfl⟩
theorem witness_UpdateFrame :
    Quiet (quiet 3) ∧ ∃ t, exec (.update true) (quiet 3) = .next t :=
  ⟨quiet_quiet 3, exists_next (by decide +kernel)⟩
theorem witness_ReseedMixesFreshEntropy :
    Quiet (entropy e1Words 3) ∧
      EntropyAnswers (entropy e1Words 3).env 48
        [0xA5A5A500, 0xA5A5A501, 0xA5A5A502, 0xA5A5A503] e1Words ∧
      JobsDone 3 (List.replicate 3 accStatusClear) ∧
      (entropy e1Words 3).env.accStatusIn = List.replicate 3 accStatusClear ++ [] :=
  ⟨quiet_entropy _ _, entropyAnswers_entropy rfl (by decide), jobsDone_replicate 3, rfl⟩

/-- As `entropy`, with `n` jobs that end done and one that fails. -/
def entropyFailing (n : Nat) : State :=
  { entropy e0Words 0 with env := { (entropy e0Words 0).env with accStatusIn := failing n } }

theorem witness_ReseedFailureKeepsGenerator :
    Quiet (entropyFailing 1) ∧
      EntropyAnswers (entropyFailing 1).env 48
        [0xA5A5A500, 0xA5A5A501, 0xA5A5A502, 0xA5A5A503] e0Words ∧
      1 < 3 ∧ JobsDone 1 (List.replicate 1 accStatusClear) ∧ JobError [flags 1, flags 9] ∧
      (entropyFailing 1).env.accStatusIn =
        List.replicate 1 accStatusClear ++ [flags 1, flags 9] ++ [] :=
  ⟨⟨rfl, rfl⟩, entropyAnswers_entropy (n := 0) rfl (by decide), by decide, jobsDone_replicate 1,
    jobError_busy, rfl⟩
theorem witness_ReseedFrame :
    Quiet (entropy e1Words 3) ∧ ∃ t, exec .reseed (entropy e1Words 3) = .next t :=
  ⟨quiet_entropy _ _, exists_next (by decide +kernel)⟩
theorem witness_InitSeedsFromZero :
    Quiet (withGen gen1 (entropy e0Words 3)) ∧
      EntropyAnswers (withGen gen1 (entropy e0Words 3)).env 48
        [0xA5A5A500, 0xA5A5A501, 0xA5A5A502, 0xA5A5A503] e0Words ∧
      JobsDone 3 (List.replicate 3 accStatusClear) ∧
      (withGen gen1 (entropy e0Words 3)).env.accStatusIn =
        List.replicate 3 accStatusClear ++ [] :=
  ⟨⟨rfl, rfl⟩, entropyAnswers_entropy (n := 3) rfl (by decide), jobsDone_replicate 3, rfl⟩
theorem witness_InitFailureLeavesZero :
    Quiet (entropyFailing 0) ∧
      ((entropyFailing 0).gen.initialized = false ∧ 0 < (65536 : BitVec 32).toNat ∧
        (65536 : BitVec 32).toNat ≤ 65536) ∧
      EntropyAnswers (entropyFailing 0).env 48
        [0xA5A5A500, 0xA5A5A501, 0xA5A5A502, 0xA5A5A503] e0Words ∧
      0 < 3 ∧ JobsDone 0 (List.replicate 0 accStatusClear) ∧ JobError [flags 1, flags 9] ∧
      (entropyFailing 0).env.accStatusIn =
        List.replicate 0 accStatusClear ++ [flags 1, flags 9] ++ [] :=
  ⟨⟨rfl, rfl⟩, ⟨rfl, by decide, by decide⟩, entropyAnswers_entropy (n := 0) rfl (by decide),
    by decide, jobsDone_replicate 0, jobError_busy, rfl⟩
theorem witness_InitFrame :
    Quiet (entropy e0Words 3) ∧ (∃ t, exec .init (entropy e0Words 3) = .next t) ∧
      Quiet (quiet 0) ∧ (nextOf (exec .init (quiet 0))).map idle = some false :=
  ⟨quiet_entropy _ _, exists_next (by decide +kernel), quiet_quiet 0, by decide +kernel⟩
theorem witness_InvalidRequestTouchesNothing :
    Quiet (quiet 0) ∧ ((0 < (1 : BitVec 32).toNat ∧ false = false) ∧
      65536 < (65537 : BitVec 32).toNat) := ⟨quiet_quiet 0, by decide⟩
theorem witness_ZeroSizeRequestSucceeds : Quiet (quiet 0) := quiet_quiet 0

/-- An initialized generator with `n` jobs that read done. -/
def ready (n : Nat) : State := withGen gen1 (quiet n)

/-- A state in which `n` answers read done meets the hypotheses of GetRandomDelivers. -/
theorem witness_GetRandomDelivers :
    Quiet (ready 4099) ∧ (ready 4099).gen.initialized = true ∧
      (ready 4099).gen.reseedCtr.toNat + 1 < 2 ^ 48 ∧ 0 < (65536 : BitVec 32).toNat ∧
      (65536 : BitVec 32).toNat ≤ 65536 ∧
      JobsDone (blocks 65536 + 3) (List.replicate 4099 accStatusClear) ∧
      (ready 4099).env.accStatusIn = List.replicate 4099 accStatusClear ++ [] :=
  ⟨⟨rfl, rfl⟩, rfl, by decide, by decide, by decide, jobsDone_replicate 4099,
    (List.append_nil _).symm⟩
/-- The last counter value that does not reseed (R141). -/
def genLast : GeneratorState := { gen1 with reseedCtr := 0xFFFFFFFFFFFE }

theorem witness_OutputBlockFailure :
    Quiet (withGen genLast (answers [] [] (failing 1))) ∧
      (withGen genLast (answers [] [] (failing 1))).gen.initialized = true ∧
      (withGen genLast (answers [] [] (failing 1))).gen.reseedCtr.toNat + 1 < 2 ^ 48 ∧
      (40 : BitVec 32).toNat ≤ 65536 ∧ 1 < blocks 40 ∧
      JobsDone 1 (List.replicate 1 accStatusClear) ∧ JobError [flags 1, flags 9] ∧
      (withGen genLast (answers [] [] (failing 1))).env.accStatusIn =
        List.replicate 1 accStatusClear ++ [flags 1, flags 9] ++ [] :=
  ⟨⟨rfl, rfl⟩, rfl, by decide, by decide, by decide, jobsDone_replicate 1, jobError_busy, rfl⟩
theorem witness_TrailingUpdateFailure :
    Quiet (withGen genLast (answers [] [] (failing 4))) ∧
      (withGen genLast (answers [] [] (failing 4))).gen.initialized = true ∧
      (withGen genLast (answers [] [] (failing 4))).gen.reseedCtr.toNat + 1 < 2 ^ 48 ∧
      0 < (40 : BitVec 32).toNat ∧ (40 : BitVec 32).toNat ≤ 65536 ∧ 1 < 3 ∧
      JobsDone (blocks 40 + 1) (List.replicate 4 accStatusClear) ∧ JobError [flags 1, flags 9] ∧
      (withGen genLast (answers [] [] (failing 4))).env.accStatusIn =
        List.replicate 4 accStatusClear ++ [flags 1, flags 9] ++ [] :=
  ⟨⟨rfl, rfl⟩, rfl, by decide, by decide, by decide, by decide, jobsDone_replicate 4, jobError_busy,
    rfl⟩

/-- A generator at the threshold. -/
def atThreshold (n : Nat) : State :=
  withGen { gen1 with reseedCtr := 0xFFFFFFFFFFFF } (entropy e1Words n)
/-- As `atThreshold`, with `n` jobs that end done and one that fails. -/
def atThresholdFailing (n : Nat) : State :=
  withGen { gen1 with reseedCtr := 0xFFFFFFFFFFFF } (entropyFailing n)

/-- A GET_RANDOM that seeds first and then fails, for both ways to seed: the lazy INIT of `entropyFailing`
and the threshold of `atThresholdFailing`. -/
theorem witness_OutputBlockFailure_seeded :
    SeedsFirst (entropyFailing 4).gen ∧ SeedsFirst (atThresholdFailing 4).gen ∧
      Quiet (entropyFailing 4) ∧ Quiet (atThresholdFailing 4) ∧
      (40 : BitVec 32).toNat ≤ 65536 ∧ 1 < blocks 40 ∧
      EntropyAnswers (entropyFailing 4).env 48
        [0xA5A5A500, 0xA5A5A501, 0xA5A5A502, 0xA5A5A503] e0Words ∧
      (atThresholdFailing 4).env = (entropyFailing 4).env ∧
      JobsDone (3 + 1) (List.replicate 4 accStatusClear) ∧ JobError [flags 1, flags 9] ∧
      (entropyFailing 4).env.accStatusIn =
        List.replicate 4 accStatusClear ++ [flags 1, flags 9] ++ [] :=
  ⟨.inl rfl, .inr (by decide), ⟨rfl, rfl⟩, ⟨rfl, rfl⟩, by decide, by decide,
    entropyAnswers_entropy (n := 0) rfl (by decide), rfl, jobsDone_replicate 4, jobError_busy, rfl⟩
theorem witness_TrailingUpdateFailure_seeded :
    SeedsFirst (entropyFailing 8).gen ∧ SeedsFirst (atThresholdFailing 8).gen ∧
      Quiet (entropyFailing 8) ∧ Quiet (atThresholdFailing 8) ∧
      0 < (40 : BitVec 32).toNat ∧ (40 : BitVec 32).toNat ≤ 65536 ∧ 2 < 3 ∧
      EntropyAnswers (entropyFailing 8).env 48
        [0xA5A5A500, 0xA5A5A501, 0xA5A5A502, 0xA5A5A503] e0Words ∧
      (atThresholdFailing 8).env = (entropyFailing 8).env ∧
      JobsDone (3 + blocks 40 + 2) (List.replicate 8 accStatusClear) ∧ JobError [flags 1, flags 9] ∧
      (entropyFailing 8).env.accStatusIn =
        List.replicate 8 accStatusClear ++ [flags 1, flags 9] ++ [] :=
  ⟨.inl rfl, .inr (by decide), ⟨rfl, rfl⟩, ⟨rfl, rfl⟩, by decide, by decide, by decide,
    entropyAnswers_entropy (n := 0) rfl (by decide), rfl, jobsDone_replicate 8, jobError_busy, rfl⟩

theorem witness_ThresholdRequestReseedsFirst :
    Quiet (atThreshold 7) ∧ (atThreshold 7).gen.initialized = true ∧
      2 ^ 48 ≤ (atThreshold 7).gen.reseedCtr.toNat + 1 ∧ 0 < (16 : BitVec 32).toNat ∧
      (16 : BitVec 32).toNat ≤ 65536 ∧
      EntropyAnswers (atThreshold 7).env 48
        [0xA5A5A500, 0xA5A5A501, 0xA5A5A502, 0xA5A5A503] e1Words ∧
      JobsDone (blocks 16 + 6) (List.replicate 7 accStatusClear) ∧
      (atThreshold 7).env.accStatusIn = List.replicate 7 accStatusClear ++ [] ∧
    Quiet (atThresholdFailing 1) ∧ (atThresholdFailing 1).gen.initialized = true ∧
      2 ^ 48 ≤ (atThresholdFailing 1).gen.reseedCtr.toNat + 1 ∧
      EntropyAnswers (atThresholdFailing 1).env 48
        [0xA5A5A500, 0xA5A5A501, 0xA5A5A502, 0xA5A5A503] e0Words ∧
      1 < 3 ∧ JobsDone 1 (List.replicate 1 accStatusClear) ∧ JobError [flags 1, flags 9] ∧
      (atThresholdFailing 1).env.accStatusIn =
        List.replicate 1 accStatusClear ++ [flags 1, flags 9] ++ [] :=
  ⟨⟨rfl, rfl⟩, rfl, by decide, by decide, by decide, entropyAnswers_entropy (n := 7) rfl (by decide),
    jobsDone_replicate 7, rfl, ⟨rfl, rfl⟩, rfl, by decide,
    entropyAnswers_entropy (n := 0) rfl (by decide), by decide, jobsDone_replicate 1, jobError_busy,
    rfl⟩
theorem witness_LazyInitEqualsExplicitInit :
    Quiet (entropy e0Words 7) ∧ (entropy e0Words 7).gen.initialized = false ∧
      0 < (16 : BitVec 32).toNat ∧ (16 : BitVec 32).toNat ≤ 65536 ∧
      ∃ s1 s2, exec .init (entropy e0Words 7) = .next s1 ∧ idle s1 = true ∧
        s1.gen.initialized = true ∧ exec (.getRandom true 16) s1 = .next s2 ∧ idle s2 = true := by
  refine ⟨quiet_entropy _ _, rfl, by decide, by decide, ?_⟩
  have h : ((nextOf (exec .init (entropy e0Words 7))).bind fun s1 =>
      (nextOf (exec (.getRandom true 16) s1)).map fun s2 =>
        idle s1 && s1.gen.initialized && idle s2) = some true := by decide +kernel
  cases h1 : exec .init (entropy e0Words 7) with
  | fault r => rw [h1] at h; cases h
  | refused r => rw [h1] at h; cases h
  | next s1 =>
    rw [h1] at h
    simp only [nextOf, Option.bind_some] at h
    cases h2 : exec (.getRandom true 16) s1 with
    | fault r => rw [h2] at h; cases h
    | refused r => rw [h2] at h; cases h
    | next s2 =>
      rw [h2] at h
      simp only [Option.map_some, Option.some.injEq, Bool.and_eq_true] at h
      exact ⟨s1, s2, rfl, h.1.1, h.1.2, h2, h.2⟩
theorem witness_GetRandomFrame :
    Quiet (ready 4) ∧ (∃ t, exec (.getRandom true 16) (ready 4) = .next t) ∧
      (ready 4).gen.initialized = true ∧ (ready 4).gen.reseedCtr.toNat + 1 < 2 ^ 48 ∧
      Quiet (ready 0) ∧ (nextOf (exec (.getRandom true 16) (ready 0))).map idle = some false :=
  ⟨⟨rfl, rfl⟩, exists_next (by decide +kernel), rfl, by decide, ⟨rfl, rfl⟩, by decide +kernel⟩

/-- The host's GET_RANDOM 16 on an initialized generator, and the machine in the middle of one. -/
def issued : State := withIssue (.host 0x0200000100000010) (ready 4)
def midway : State :=
  { ready 3 with
    dce := { State.reset.dce with
      phase := .out 0, ctx := [.cGen], size := 16, dstv := true, cur := 0, rem := 16 }
    acc := { submitted.acc with job := some job1 }
    job := submitted.job
    bce := .poll
    trace := [.accEnable] }

theorem midway_sound : SoundState midway := by
  simp [midway, ready, withGen, quiet, answers, gen1, State.reset, submitted, SoundState, HostOnly,
    CounterInv, CounterRange, CtxSound, CanCount, ModulesInv, ecHoldsNg, FifoInv, CursorInv,
    CallSound, OutInv, Memory.wf, Config.reseedInterval, Config.maxRequestBytes]
theorem issued_counter : CounterInv issued := by
  simp [issued, withIssue, ready, withGen, quiet, answers, gen1, State.reset, CounterInv,
    CounterRange, CtxSound, Config.reseedInterval]

theorem witness_OutFormKept : OutInv issued ∧ ∃ t, step issued = .next t :=
  ⟨rfl, exists_next (by decide +kernel)⟩
theorem witness_CounterRangeKept : CounterInv issued ∧ ∃ t, step issued = .next t :=
  ⟨issued_counter, exists_next (by decide +kernel)⟩
theorem witness_SoundStateKept : SoundState midway ∧ ∃ t, step midway = .next t :=
  ⟨midway_sound, exists_next (by decide +kernel)⟩
theorem witness_HostDrivenMachineNeverStops : SoundState midway := midway_sound
theorem witness_EnableEventsBalanced :
    SoundState midway ∧ AccBalanced midway ∧ NgBalanced midway ∧ ∃ t, step midway = .next t :=
  ⟨midway_sound, by unfold AccBalanced traceCount; decide, by unfold NgBalanced traceCount; decide,
    exists_next (by decide +kernel)⟩
theorem witness_RunEndsOrWaits : ∃ t, run midway = .next t := exists_next (by decide +kernel)
theorem witness_TraceOnlyGrows : ∃ t, step midway = .next t := exists_next (by decide +kernel)
theorem witness_GeneratorStateWriters :
    (∃ t, tick midway = .next t) ∧ midway.bce = .poll ∧ midway.dce.phase ≠ .zero ∧
      midway.dce.phase ≠ .commit :=
  ⟨exists_next (by decide +kernel), rfl, by decide, by decide⟩
theorem witness_StatusValues :
    (∃ t, step issued = .next t) ∧ issued.host.status = 0 :=
  ⟨exists_next (by decide +kernel), rfl⟩
theorem witness_SecretsStayInside :
    publicPart issued = publicPart (withGen { gen1 with key := 0, v := 0 } issued) ∧
      ∃ t, step issued = .next t := ⟨rfl, exists_next (by decide +kernel)⟩

end Sys2Proof.Tests
end

namespace Sys2Proof.Machine

/-! # A started operation ends or waits (R7, R147, R102, R115)

The rows that read no queued answer are few between two reads: `rowsToRead` bounds them by the phases of the
three engines, every row that reads nothing lowers it, and every other row that can be taken uses up an
answer. So `rowsLeft`, which weighs both, falls with every row, and the budget of `run` is above it. -/

/-! ## How many rows until the next answer is read -/

/-- Rows DCE takes before the cipher or EC waits for an answer, or the operation ends (R147). -/
def rowsFromDce : DcePhase → Nat
  | .idle => 0
  | .upd _ => 1
  | .resp => 1
  | .final => 2
  | .out _ => 3
  | .seed => 4
  | .zero => 5
  | .reseedTest => 5
  | .check => 6
  | .commit => 6

/-- The same once GET_ENTROPY has returned: RESEED goes on with UPDATE (R135). -/
def rowsAfterEntropy : DcePhase → Nat
  | .seed => rowsFromDce (.upd 0)
  | p => rowsFromDce p

/-- Rows EC takes before it polls, and where it returns the rows of DCE after it (R102). -/
def rowsFromEc (d : DcePhase) : EcPhase → Nat
  | .idle => rowsFromDce d
  | .check => max 3 (rowsAfterEntropy d + 1)
  | .enable => 2
  | .init => 1
  | .poll => 0
  | .keyload => 1
  | .drain => rowsAfterEntropy d + 3
  | .disable => rowsAfterEntropy d + 2
  | .resp => rowsAfterEntropy d + 1

/-- A bound on the rows before the next read of an answer. -/
def rowsToRead (s : State) : Nat :=
  match s.bce with
  | .poll => 0
  | .idle => rowsFromEc s.dce.phase s.ec.phase

@[simp] theorem rowsToRead_poll {s : State} (hb : s.bce = .poll) : rowsToRead s = 0 := by
  simp [rowsToRead, hb]

theorem rowsToRead_ec {s : State} (hb : s.bce = .idle) :
    rowsToRead s = rowsFromEc s.dce.phase s.ec.phase := by
  simp [rowsToRead, hb]

theorem rowsAfterEntropy_le (d : DcePhase) : rowsAfterEntropy d ≤ 6 := by
  cases d <;> simp [rowsAfterEntropy, rowsFromDce]

/-- Between two reads at most nine rows read none, as `budget` says. -/
theorem rowsToRead_le (s : State) : rowsToRead s ≤ 9 := by
  have hd : rowsFromDce s.dce.phase ≤ 6 := by cases s.dce.phase <;> simp [rowsFromDce]
  have ha := rowsAfterEntropy_le s.dce.phase
  cases hb : s.bce with
  | poll => simp [hb]
  | idle =>
    rw [rowsToRead_ec hb]
    cases s.ec.phase <;> simp only [rowsFromEc] <;> omega

/-! ## What the rows do to the queued answers -/

@[simp] theorem queued_draws (env : Env) (d : Nat) : queued { env with draws := d } = queued env := rfl

@[simp] theorem raise_queued (st : Status) (s : State) : queued (raise st s).env = queued s.env := by
  unfold raise
  simp only
  split <;> simp

theorem dceBlock_queued {s t : State} (h : dceBlock s = .next t) : queued t.env = queued s.env := by
  unfold dceBlock at h
  split at h
  · cases h; simp
  · unfold takeOutBlock at h
    obtain ⟨u, hu, ht⟩ := andThen_eq_next.1 h
    obtain ⟨_, rfl⟩ := outWrite_next hu
    cases ht; simp
  · cases h; rfl

theorem dceBlockFailed_queued (s : State) : queued (dceBlockFailed s).env = queued s.env := by
  unfold dceBlockFailed
  split <;> simp

/-- A status read of a job whose answer is queued uses it up (R117). -/
theorem accStatusRead_queued {s : State} (h : accAnswerQueued s = true) :
    queued (accStatusRead s).2.env < queued s.env := by
  unfold accAnswerQueued at h
  cases hj : s.acc.job with
  | none => simp [hj] at h
  | some j =>
    cases hq : s.env.accStatusIn with
    | nil => simp [hq] at h
    | cons a rest => simp [accStatusRead_cons hj hq, queued, hq]

/-- An iteration of the cipher's poll loop uses up a status answer (R115). -/
theorem tick_poll_queued {s t : State} (hb : s.bce = .poll) (hq : accAnswerQueued s = true)
    (h : tick s = .next t) : queued t.env < queued s.env := by
  have hread := accStatusRead_queued hq
  rcases tick_cases h with ⟨_, h⟩ | ⟨hi, _⟩ | ⟨hi, _⟩
  · rcases aesPoll_cases s with ⟨_, h'⟩ | ⟨_, h'⟩ | ⟨_, b, h'⟩ <;> rw [h'] at h <;> simp at h
    · rw [h]; exact hread
    · rw [dceBlock_queued h]; simpa using hread
    · rw [h, dceBlockFailed_queued]; simpa using hread
  · simp [hb] at hi
  · simp [hb] at hi

theorem drawFsm_queued {s : State} (h : ngAnswerQueued s.env = true) :
    queued (drawFsm s).2.env < queued s.env := by
  cases hq : s.env.ngFsmIn with
  | nil => simp [ngAnswerQueued, hq] at h
  | cons a rest => simp [drawFsm_cons hq, queued, hq]

theorem drawWords_queued_le (s : State) : queued (drawWords s).2.env ≤ queued s.env := by
  cases hq : s.env.ngWordsIn with
  | nil => simp [drawWords, hq, queued]
  | cons a rest => simp [drawWords_cons hq, queued, hq]

/-- A poll iteration of EC uses up the state NG answers, and on READY the words too (R86). -/
theorem ecPoll_queued {s : State} (h : ngAnswerQueued s.env = true) :
    queued (ecPoll s).env < queued s.env := by
  have hread := drawFsm_queued h
  rcases ecPoll_cases s with ⟨_, h'⟩ | ⟨_, h'⟩ | ⟨_, h'⟩ <;> rw [h']
  · simpa using hread
  · simpa using hread
  · refine Nat.lt_of_le_of_lt ?_ hread
    simpa [ecPollReady] using
      drawWords_queued_le { (ngFsmRead s).2 with ec := { s.ec with obsFsm := .ready } }

/-- A poll iteration of EC with its answers queued uses one up. -/
theorem tick_ecPoll_queued {s t : State} (hb : s.bce = .idle) (he : s.ec.phase = .poll)
    (hq : ngAnswerQueued s.env = true) (h : tick s = .next t) :
    queued t.env < queued s.env := by
  have hrow : tick s = .next (ecPoll s) := tick_ec hb (by simp [he]) (by simp [ecRow, he])
  rw [hrow] at h
  cases h
  exact ecPoll_queued hq

/-! ## A row that reads nothing comes nearer to the next read -/

/-- DCE moves from `s` to `t` by itself: no queued answer is used, the other engines stay as they are, and
DCE is at most `n` rows from the next read. -/
def DceMoves (n : Nat) (s t : State) : Prop :=
  t.bce = s.bce ∧ t.ec.phase = s.ec.phase ∧ queued t.env = queued s.env ∧ rowsFromDce t.dce.phase ≤ n

/-- R170, R180: the failure path leaves no row of DCE. -/
theorem raise_moves (n : Nat) (st : Status) (s : State) : DceMoves n s (raise st s) := by
  obtain ⟨_, hd, _, hb, he, _⟩ := raise_frame st s
  exact ⟨hb, he, raise_queued st s, by simp [hd, rowsFromDce]⟩

/-- R138 to R140: D_CHECK ends the command, or goes on to the reseed test or to INIT. -/
theorem dceCheck_moves (s : State) : DceMoves 5 s (dceCheck s) := by
  unfold dceCheck
  split
  · exact raise_moves _ _ _
  · split
    · simp [DceMoves, rowsFromDce, *]
    · split <;> simp [DceMoves, rowsFromDce]

/-- R135, R136, R140: where RESEED returns, at most the reseed test and the rows after it follow. -/
theorem reseedReturn_moves (callers : List Ctx) (s : State) :
    DceMoves 5 s (reseedReturn callers s) := by
  unfold reseedReturn
  simp only
  split
  · split <;> simp [DceMoves, rowsFromDce]
  · simp [DceMoves, rowsFromDce]
  · simp [DceMoves, rowsFromDce]

/-- R132: after D_COMMIT the caller of UPDATE goes on, or the operation has ended. -/
theorem dceCommit_moves (s : State) : DceMoves 5 s (dceCommit s) := by
  unfold dceCommit
  simp only
  split
  · exact reseedReturn_moves _ _
  · simp [DceMoves, rowsFromDce]
  · simp [DceMoves, rowsFromDce]

/-- R141: D_RESEED_TEST goes on to RESEED or to the output loop. -/
theorem dceReseedTest_moves (s : State) : DceMoves 4 s (dceReseedTest s) := by
  unfold dceReseedTest
  split <;> simp [DceMoves, rowsFromDce]

/-- R135: where GET_ENTROPY returns, RESEED goes on with UPDATE or fails; with no caller DCE stays. -/
theorem dceEntropy_moves (st : Status) (s : State) :
    DceMoves (rowsAfterEntropy s.dce.phase) s (dceEntropy st s) := by
  unfold dceEntropy
  split
  · next hp =>
    cases st with
    | ok => simp [DceMoves, hp, rowsAfterEntropy, rowsFromDce]
    | fail => exact raise_moves _ _ _
    | invalid => exact raise_moves _ _ _
  · next hne =>
    refine ⟨rfl, rfl, rfl, ?_⟩
    cases hd : s.dce.phase with
    | seed => exact absurd hd hne
    | _ => exact Nat.le_refl _

/-- From `s` to `t` no queued answer is used and the next read comes nearer. -/
def Nearer (s t : State) : Prop := queued t.env = queued s.env ∧ rowsToRead t < rowsToRead s

/-- While no other engine runs, DCE comes nearer where it moves to fewer rows. -/
theorem DceMoves.nearer {n : Nat} {s t : State} (h : DceMoves n s t) (hb : s.bce = .idle)
    (he : s.ec.phase = .idle) (hn : n < rowsFromDce s.dce.phase) : Nearer s t := by
  obtain ⟨hb', he', hq, hr⟩ := h
  refine ⟨hq, ?_⟩
  rw [rowsToRead_ec (hb'.trans hb), rowsToRead_ec hb, he', he]
  exact Nat.lt_of_le_of_lt hr hn

/-- A row of DCE that hands a block to the cipher ends at a read (R132, R142). -/
theorem aesStart_nearer {s t : State} (n : Nat) (hq : t.env = s.env) (hs : 0 < rowsToRead s) :
    Nearer s (aesStart n t) :=
  ⟨by simp [hq], by simpa using hs⟩

/-- R147: every row of DCE comes nearer to a read of EC or of the cipher, or to the end. -/
theorem dceRow_nearer {s : State} (hb : s.bce = .idle) (he : s.ec.phase = .idle)
    (hp : s.dce.phase ≠ .idle) : Nearer s (dceRow s) := by
  have hs : rowsToRead s = rowsFromDce s.dce.phase := by rw [rowsToRead_ec hb, he]; rfl
  unfold dceRow
  cases hd : s.dce.phase with
  | idle => exact absurd hd hp
  | check => exact (dceCheck_moves s).nearer hb he (by simp [hd, rowsFromDce])
  | zero =>
    have h : DceMoves 4 s (dceZero s) := by simp [DceMoves, rowsFromDce]
    exact h.nearer hb he (by simp [hd, rowsFromDce])
  | seed =>
    refine ⟨by simp, ?_⟩
    rw [hs, rowsToRead_ec (by simpa using hb)]
    simp [hd, rowsFromEc, rowsAfterEntropy, rowsFromDce]
  | upd k => exact aesStart_nearer 32 rfl (by simp [hs, hd, rowsFromDce])
  | commit => exact (dceCommit_moves s).nearer hb he (by simp [hd, rowsFromDce])
  | reseedTest => exact (dceReseedTest_moves s).nearer hb he (by simp [hd, rowsFromDce])
  | out j =>
    simp only [dceOut]
    split
    · have h : DceMoves 2 s (dceGoto .final s) := by simp [DceMoves, rowsFromDce]
      exact h.nearer hb he (by simp [hd, rowsFromDce])
    · exact aesStart_nearer 32 rfl (by simp [hs, hd, rowsFromDce])
  | final =>
    have h : DceMoves 1 s (startUpdate false s) := by simp [DceMoves, rowsFromDce]
    exact h.nearer hb he (by simp [hd, rowsFromDce])
  | resp =>
    have h : DceMoves 0 s (respond .ok s) := by simp [DceMoves, rowsFromDce]
    exact h.nearer hb he (by simp [hd, rowsFromDce])

/-- R82: EC has returned: what is left is the rows DCE takes after it. -/
theorem dceEntropy_nearer {s u : State} (st : Status) (hb : u.bce = .idle) (he : u.ec.phase = .idle)
    (hq : queued u.env = queued s.env) (hs : rowsAfterEntropy u.dce.phase < rowsToRead s) :
    Nearer s (dceEntropy st u) := by
  obtain ⟨hb', he', hq', hr⟩ := dceEntropy_moves st u
  refine ⟨hq'.trans hq, ?_⟩
  rw [rowsToRead_ec (hb'.trans hb), he', he]
  exact Nat.lt_of_le_of_lt hr hs

/-- EC moves to another phase of its own, nearer to its poll or its return. -/
theorem ec_nearer {s t : State} (hb : s.bce = .idle) (hb' : t.bce = .idle)
    (hd : t.dce = s.dce) (hq : queued t.env = queued s.env)
    (hr : rowsFromEc s.dce.phase t.ec.phase < rowsFromEc s.dce.phase s.ec.phase) : Nearer s t :=
  ⟨hq, by rw [rowsToRead_ec hb, rowsToRead_ec hb', hd]; exact hr⟩

/-- R102: every row of EC but the poll comes nearer to the poll or to its return. -/
theorem tick_ec_nearer {s t : State} (hb : s.bce = .idle) (hp : s.ec.phase ≠ .idle)
    (hpoll : s.ec.phase ≠ .poll) (h : tick s = .next t) : Nearer s t := by
  rcases tick_cases h with ⟨hi, _⟩ | ⟨_, hi, _⟩ | ⟨_, _, r, u, hr, ht⟩
  · simp [hb] at hi
  · exact absurd hi hp
  obtain ⟨_, hd, hbu, _⟩ := ecRow_frame hr
  have hub : u.bce = .idle := hbu.trans hb
  rcases ecRow_cases hr with ⟨he, _⟩ | ⟨he, h⟩ | ⟨he, rfl, rfl⟩ | ⟨he, rfl, rfl⟩ | ⟨he, _⟩ |
    ⟨he, rfl, h⟩ | ⟨he, rfl, h⟩ | ⟨he, rfl, rfl⟩ | ⟨he, rfl, rfl⟩
  · exact absurd he hp
  · unfold ecCheck at h
    split at h <;> cases h <;> subst ht
    · exact dceEntropy_nearer _ hub (by simp) (by simp)
        (by rw [rowsToRead_ec hb, he, hd]; simp [rowsFromEc])
    · exact ec_nearer hb hub hd (by simp) (by simp [he, rowsFromEc])
  · subst ht; exact ec_nearer hb hub hd (by simp) (by simp [he, rowsFromEc])
  · subst ht; exact ec_nearer hb hub hd (by simp) (by simp [he, rowsFromEc])
  · exact absurd he hpoll
  · obtain ⟨w0, w1, w2, w3, rest, hf⟩ := ecKeyload_next h
    rw [ecKeyload_four hf] at h
    cases h; subst ht
    exact ec_nearer hb hub hd rfl (by simp [he, rowsFromEc])
  · rw [ecDrain_enough (ecDrain_next h)] at h
    cases h; subst ht
    exact ec_nearer hb hub hd rfl (by simp [he, rowsFromEc])
  · subst ht; exact ec_nearer hb hub hd (by simp) (by simp [he, rowsFromEc])
  · subst ht
    exact dceEntropy_nearer _ hub (by simp) (by simp)
      (by rw [rowsToRead_ec hb, he, hd]; simp [rowsFromEc])

/-! ## Every row taken lowers one bound, and the budget is above it -/

/-- The weight of the queued answers, sixteen rows each, and the rows before the next one is read. -/
def rowsLeft (s : State) : Nat := 16 * queued s.env + rowsToRead s

theorem rowsLeft_lt_budget (s : State) : rowsLeft s < budget s := by
  have := rowsToRead_le s
  unfold rowsLeft budget
  omega

theorem Nearer.rowsLeft_lt {s t : State} (h : Nearer s t) : rowsLeft t < rowsLeft s := by
  obtain ⟨hq, hr⟩ := h
  unfold rowsLeft
  omega

/-- A row that reads uses up an answer, which weighs more than the rows it opens. -/
theorem rowsLeft_lt_of_queued_lt {s t : State} (h : queued t.env < queued s.env) :
    rowsLeft t < rowsLeft s := by
  have := rowsToRead_le t
  unfold rowsLeft
  omega

/-- Every row of a state that can advance lowers the bound. -/
theorem tick_rowsLeft_lt {s t : State} (hc : canAdvance s = true) (h : tick s = .next t) :
    rowsLeft t < rowsLeft s := by
  obtain ⟨hidle, hready⟩ := Bool.and_eq_true_iff.1 hc
  cases hb : s.bce with
  | poll =>
    rw [hb] at hready
    exact rowsLeft_lt_of_queued_lt (tick_poll_queued hb hready h)
  | idle =>
    rw [hb] at hready
    by_cases he : s.ec.phase = .idle
    · have hd : s.dce.phase ≠ .idle := fun hd => by simp [idle_of hd he hb] at hidle
      rw [tick_dce hb he] at h
      cases h
      exact (dceRow_nearer hb he hd).rowsLeft_lt
    · by_cases hp : s.ec.phase = .poll
      · rw [hp] at hready
        exact rowsLeft_lt_of_queued_lt (tick_ecPoll_queued hb hp hready h)
      · exact (tick_ec_nearer hb he hp h).rowsLeft_lt

/-- A run that is given enough rows stops only where the operation has ended or waits. -/
theorem drive_ends_or_waits {n : Nat} {s t : State} (hn : rowsLeft s < n)
    (h : drive n s = .next t) : canAdvance t = false := by
  induction n generalizing s with
  | zero => exact absurd hn (Nat.not_lt_zero _)
  | succ n ih =>
    unfold drive at h
    split at h
    · next hc =>
      obtain ⟨u, hu, hd⟩ := andThen_eq_next.1 h
      have := tick_rowsLeft_lt hc hu
      exact ih (by omega) hd
    · next hc => cases h; simpa using hc

/-- Settles O56: the budget of `run` is above `rowsLeft`, which every row lowers. -/
theorem runEndsOrWaits : Obligations.RunEndsOrWaits :=
  fun s _ h => drive_ends_or_waits (rowsLeft_lt_budget s) h

/-! # A busy machine accepts nothing (R7, R148) -/

/-- R148: a busy machine refuses each of the six operations; a reserved key size is not well formed. -/
theorem exec_busy {s : State} (hs : idle s = false) {i : Instr} (hi : Claims.isCommand i = true)
    (hwf : i.wellFormed = true) : exec i s = .refused .engineBusy := by
  cases i with
  | init => exact whenIdle_busy hs _
  | getRandom dstv size => exact whenIdle_busy hs _
  | reseed => exact whenIdle_busy hs _
  | update hasExtra => exact whenIdle_busy hs _
  | getEntropy esize => exact whenIdle_busy hs _
  | aesEcbEncrypt keySize => exact (if_pos hwf).trans (whenIdle_busy hs _)
  | _ => cases hi

/-- Settles O8: the step of a busy machine is `advance`, and the six operations are refused. -/
theorem busyMachineAcceptsNothing : Obligations.BusyMachineAcceptsNothing := fun s hs =>
  ⟨by simp [step, hs, advance], fun _ hi hwf => exec_busy hs hi hwf⟩

end Sys2Proof.Machine

namespace Sys2Proof.Machine

/-! # What every row leaves alone, and what every step can do

`tick_rows` says once which row a tick takes; the rows in which DCE moves by itself leave the other engines
and both modules alone (`DceKeeps`), a status read leaves all but DCE's BLK and the accelerator alone
(`AesPolled`). The invariants of a step rest on these and on the inversions of `step` and `exec`. -/

/-! ## Where DCE moves by itself -/

/-- R16, R147: what a row leaves alone in which DCE moves by itself and starts no other engine: the phases of
the others, both modules, the form of OUT and the port trace as far as it has grown. -/
def DceKeeps (s t : State) : Prop :=
  t.bce = s.bce ∧ t.ec.phase = s.ec.phase ∧ t.ng = s.ng ∧ t.acc = s.acc ∧ (OutInv s → OutInv t) ∧
    s.trace <+: t.trace

theorem DceKeeps.trans {a b c : State} (h : DceKeeps a b) (h' : DceKeeps b c) : DceKeeps a c := by
  obtain ⟨hb, he, hng, hacc, hout, htr⟩ := h
  obtain ⟨hb', he', hng', hacc', hout', htr'⟩ := h'
  exact ⟨hb'.trans hb, he'.trans he, hng'.trans hng, hacc'.trans hacc, hout' ∘ hout, htr.trans htr'⟩

@[simp] theorem raise_trace (st : Status) (s : State) :
    (raise st s).trace = s.trace ++ failEvents s := by
  unfold raise
  simp only
  split <;> simp

/-- R170, R180: the failure path ends DCE's operation and starts nothing. -/
theorem raise_keeps (st : Status) (s : State) : DceKeeps s (raise st s) := by
  obtain ⟨_, _, _, hb, he, hng, hacc, hout, _⟩ := raise_frame st s
  exact ⟨hb, he, hng, hacc, by simp [OutInv, hout], by simp⟩

theorem dceCheck_keeps (s : State) : DceKeeps s (dceCheck s) := by
  unfold dceCheck
  split
  · exact raise_keeps _ _
  · split
    · simp [DceKeeps, OutInv]
    · split <;> simp [DceKeeps, OutInv]

theorem reseedReturn_keeps (callers : List Ctx) (s : State) :
    DceKeeps s (reseedReturn callers s) := by
  unfold reseedReturn
  simp only
  split
  · split <;> simp [DceKeeps, OutInv]
  · simp [DceKeeps, OutInv]
  · simp [DceKeeps, OutInv]

theorem dceCommit_keeps (s : State) : DceKeeps s (dceCommit s) := by
  unfold dceCommit
  simp only
  split
  · refine DceKeeps.trans ?_ (reseedReturn_keeps _ _)
    simp [DceKeeps, OutInv]
  · simp [DceKeeps, OutInv]
  · simp [DceKeeps, OutInv]

theorem dceReseedTest_keeps (s : State) : DceKeeps s (dceReseedTest s) := by
  unfold dceReseedTest
  split <;> simp [DceKeeps, OutInv]

/-- R147: a row of DCE moves DCE by itself, or calls GET_ENTROPY from D_SEED, or hands a block to the cipher
from D_UPD or D_OUT, which writes no more of its own state than V and VW. -/
theorem dceRow_cases (s : State) :
    DceKeeps s (dceRow s) ∨
    (s.dce.phase = .seed ∧ dceRow s = ecStart (BitVec.ofNat 32 Config.seedLen) s) ∨
    (((∃ k, s.dce.phase = .upd k) ∨ ∃ j, s.dce.phase = .out j) ∧
      ∃ g vw, dceRow s = aesStart 32 { s with gen := g, dce := { s.dce with vw := vw } }) := by
  unfold dceRow
  cases hd : s.dce.phase with
  | idle => exact .inl (by simp [DceKeeps])
  | check => exact .inl (dceCheck_keeps s)
  | zero => exact .inl (by simp [DceKeeps, OutInv])
  | seed => exact .inr (.inl ⟨rfl, rfl⟩)
  | upd k => exact .inr (.inr ⟨.inl ⟨k, rfl⟩, s.gen, _, rfl⟩)
  | commit => exact .inl (dceCommit_keeps s)
  | reseedTest => exact .inl (dceReseedTest_keeps s)
  | out j =>
    simp only [dceOut]
    split
    · exact .inl (by simp [DceKeeps, OutInv])
    · exact .inr (.inr ⟨.inr ⟨j, rfl⟩, _, s.dce.vw, rfl⟩)
  | final => exact .inl (by simp [DceKeeps, OutInv])
  | resp => exact .inl (by simp [DceKeeps, OutInv])

/-! ## Where another engine returns to DCE -/

/-- R142: what a block of output that has been taken leaves; its offsets exist. -/
theorem takeOutBlock_next {j : Nat} {s t : State} (h : takeOutBlock j s = .next t) :
    let bs := (bytesOf 16 s.dce.blk).take (chunk s.dce.rem)
    s.dce.cur.toNat + bs.length ≤ outSize ∧
      t = dceGoto (.out (j + 1)) (releaseBlk
        { s with
          out := Memory.writeBytes s.out s.dce.cur.toNat bs
          dce := { s.dce with
            cur := s.dce.cur + BitVec.ofNat 17 (chunk s.dce.rem)
            rem := s.dce.rem - BitVec.ofNat 17 (chunk s.dce.rem) } }) := by
  unfold takeOutBlock at h
  obtain ⟨u, hu, ht⟩ := andThen_eq_next.1 h
  obtain ⟨hin, rfl⟩ := outWrite_next hu
  cases ht
  exact ⟨hin, rfl⟩

/-- R132, R142: a cipher block goes to TEMP, or to OUT, or to nobody. -/
theorem dceBlock_cases {s t : State} (h : dceBlock s = .next t) :
    (∃ k, s.dce.phase = .upd k ∧ t = takeUpdBlock k s) ∨
    (∃ j, s.dce.phase = .out j ∧ takeOutBlock j s = .next t) ∨ t = s := by
  unfold dceBlock at h
  split at h
  · next k hk => cases h; exact .inl ⟨k, hk, rfl⟩
  · next j hj => exact .inr (.inl ⟨j, hj, h⟩)
  · cases h; exact .inr (.inr rfl)

theorem dceBlock_keeps {s t : State} (h : dceBlock s = .next t) : DceKeeps s t := by
  rcases dceBlock_cases h with ⟨k, _, rfl⟩ | ⟨j, _, h⟩ | rfl
  · simp [DceKeeps, OutInv]
  · obtain ⟨hin, rfl⟩ := takeOutBlock_next h
    exact ⟨rfl, rfl, rfl, rfl, Memory.wf_writeBytes hin, List.prefix_refl _⟩
  · simp [DceKeeps]

/-- R133, R175: a failed cipher call takes the failure path, or has no caller. -/
theorem dceBlockFailed_cases (s : State) :
    dceBlockFailed s = raise .fail s ∨ dceBlockFailed s = s := by
  unfold dceBlockFailed
  split <;> simp

theorem dceBlockFailed_keeps (s : State) : DceKeeps s (dceBlockFailed s) := by
  rcases dceBlockFailed_cases s with h | h <;> rw [h]
  · exact raise_keeps _ _
  · simp [DceKeeps]

/-- R115: whichever way AES_ECB_ENCRYPT returns, DCE starts nothing in that row. -/
theorem aesReturned_keeps {s t : State} (h : dceBlock s = .next t ∨ t = dceBlockFailed s) :
    DceKeeps s t := by
  rcases h with h | rfl
  · exact dceBlock_keeps h
  · exact dceBlockFailed_keeps s

/-- R135: GET_ENTROPY returns to RESEED, which goes on with UPDATE or fails, or it has no caller. -/
theorem dceEntropy_cases (st : Status) (s : State) :
    (s.dce.phase = .seed ∧
      (dceEntropy st s = startUpdate true (takeSeed s) ∨ dceEntropy st s = raise .fail s)) ∨
    dceEntropy st s = s := by
  unfold dceEntropy
  split
  · next hp => cases st <;> simp [hp]
  · simp

theorem dceEntropy_keeps (st : Status) (s : State) : DceKeeps s (dceEntropy st s) := by
  rcases dceEntropy_cases st s with ⟨_, h | h⟩ | h <;> rw [h]
  · simp [DceKeeps, OutInv]
  · exact raise_keeps _ _
  · simp [DceKeeps]

/-! ## A status read and a row of EC -/

/-- R115: what one poll iteration of AES_ECB_ENCRYPT leaves alone: all but BLK, ACC, JOB, the Block Cipher
Engine itself and the draws; the port trace grows. -/
def AesPolled (s t : State) : Prop :=
  t.gen = s.gen ∧ (∃ b, t.dce = { s.dce with blk := b }) ∧ t.ec = s.ec ∧ t.ng = s.ng ∧
    t.host = s.host ∧ t.out = s.out ∧ s.trace <+: t.trace

/-- R115, R116: a poll iteration goes on, or it ends the job, disables ACC and returns to DCE. -/
theorem tick_poll_cases {s t : State} (hb : s.bce = .poll) (h : tick s = .next t) :
    (AesPolled s t ∧ t.bce = .poll ∧ t.acc.enabled = s.acc.enabled) ∨
    ∃ u, AesPolled s u ∧ u.bce = .idle ∧ u.acc.enabled = false ∧
      (dceBlock u = .next t ∨ t = dceBlockFailed u) := by
  obtain ⟨hgen, hdce, hec, hbce, hng, hhost, hout, hacc, htr⟩ := accStatusRead_frame s
  rcases tick_cases h with ⟨_, h⟩ | ⟨hi, _⟩ | ⟨hi, _⟩
  · rcases aesPoll_cases s with ⟨_, h'⟩ | ⟨_, h'⟩ | ⟨_, b, h'⟩ <;> rw [h'] at h <;> simp at h
    · subst h
      exact .inl ⟨⟨hgen, ⟨s.dce.blk, hdce⟩, hec, hng, hhost, hout, by simp [htr]⟩, hbce.trans hb,
        by rw [hacc]⟩
    · exact .inr ⟨_, ⟨by simp [hgen], ⟨_, by simp [hdce]; rfl⟩, by simp [hec], by simp [hng],
        by simp [hhost], by simp [hout], by simp [htr]⟩, by simp, by simp, .inl h⟩
    · exact .inr ⟨_, ⟨by simp [hgen], ⟨_, by simp [hdce]; rfl⟩, by simp [hec], by simp [hng],
        by simp [hhost], by simp [hout], by simp [htr]⟩, by simp, by simp, .inr h⟩
  · simp [hb] at hi
  · simp [hb] at hi

/-- R7: the row a tick takes: a status read that goes on, one that returns to DCE, a row of DCE, a row of EC,
or the one in which GET_ENTROPY returns to DCE. -/
theorem tick_rows {s t : State} (h : tick s = .next t) :
    (s.bce = .poll ∧ AesPolled s t ∧ t.bce = .poll ∧ t.acc.enabled = s.acc.enabled) ∨
    (s.bce = .poll ∧ ∃ u, AesPolled s u ∧ u.bce = .idle ∧ u.acc.enabled = false ∧
      (dceBlock u = .next t ∨ t = dceBlockFailed u)) ∨
    (s.bce = .idle ∧ s.ec.phase = .idle ∧ t = dceRow s) ∨
    (s.bce = .idle ∧ s.ec.phase ≠ .idle ∧ ecRow s = .next (none, t)) ∨
    (s.bce = .idle ∧ s.ec.phase ≠ .idle ∧
      ∃ st u, ecRow s = .next (some st, u) ∧ t = dceEntropy st u) := by
  rcases tick_cases h with ⟨hb, _⟩ | hdce | ⟨hb, he, r, u, hr, rfl⟩
  · rcases tick_poll_cases hb h with h | h
    · exact .inl ⟨hb, h⟩
    · exact .inr (.inl ⟨hb, h⟩)
  · exact .inr (.inr (.inl hdce))
  · cases r with
    | none => exact .inr (.inr (.inr (.inl ⟨hb, he, hr⟩)))
    | some st => exact .inr (.inr (.inr (.inr ⟨hb, he, st, u, hr, rfl⟩)))

/-- R29: a row of EC adds to the port trace. -/
theorem ecRow_trace {s t : State} {r : Option Status} (h : ecRow s = .next (r, t)) :
    s.trace <+: t.trace := by
  rcases ecRow_cases h with ⟨_, _, rfl⟩ | ⟨_, h⟩ | ⟨_, _, rfl⟩ | ⟨_, _, rfl⟩ | ⟨_, _, rfl⟩ |
    ⟨_, _, h⟩ | ⟨_, _, h⟩ | ⟨_, _, rfl⟩ | ⟨_, _, rfl⟩
  · exact List.prefix_refl _
  · unfold ecCheck at h
    split at h <;> (cases h; simp)
  · simp
  · simp
  · rcases ecPoll_cases s with ⟨_, h'⟩ | ⟨_, h'⟩ | ⟨_, h'⟩ <;> rw [h'] <;> simp [ecPollReady]
  · obtain ⟨w0, w1, w2, w3, rest, hf⟩ := ecKeyload_next h
    rw [ecKeyload_four hf] at h
    cases h; simp
  · rw [ecDrain_enough (ecDrain_next h)] at h
    cases h; simp
  · simp
  · simp

end Sys2Proof.Machine

namespace Sys2Proof.Machine

/-! ## What an instruction can do -/

/-- R7: in an idle machine the three engines are idle. -/
theorem idle_phases {s : State} (h : idle s = true) :
    s.dce.phase = .idle ∧ s.ec.phase = .idle ∧ s.bce = .idle := by
  simpa [idle, and_assoc] using h

/-- R148, R62: an operation has been started on an idle machine. -/
inductive Started (s : State) : State → Prop where
  | init : Started s (startInit s)
  | getRandom (dstv : Bool) (size : BitVec 32) : Started s (startGetRandom dstv size s)
  | reseed : Started s (startReseed s)
  | update (hasExtra : Bool) : Started s (startUpdate hasExtra s)
  | getEntropy (esize : BitVec 32) : Started s (ecStart esize s)
  | aes (keySize : Nat) : Started s (aesStart keySize s)

/-- A started operation runs from an idle machine. -/
theorem whenIdle_next {s t : State} {start : State → State} (h : whenIdle s start = .next t) :
    idle s = true ∧ run (start s) = .next t := by
  unfold whenIdle at h
  split at h
  · exact ⟨‹_›, h⟩
  · cases h

/-- R62, R68: an instruction is a port operation, or it starts an operation, which runs. -/
theorem exec_cases {i : Instr} {s t : State} (h : exec i s = .next t) :
    (Claims.isNgOp i = true ∨ Claims.isAccOp i = true) ∨
    (idle s = true ∧ ∃ u, Started s u ∧ run u = .next t) := by
  have started : ∀ {start : State → State}, Started s (start s) → whenIdle s start = .next t →
      idle s = true ∧ ∃ u, Started s u ∧ run u = .next t := fun hs hw =>
    ⟨(whenIdle_next hw).1, _, hs, (whenIdle_next hw).2⟩
  cases i with
  | init => exact .inr (started .init h)
  | getRandom dstv size => exact .inr (started (.getRandom dstv size) h)
  | reseed => exact .inr (started .reseed h)
  | update hasExtra => exact .inr (started (.update hasExtra) h)
  | getEntropy esize => exact .inr (started (.getEntropy esize) h)
  | aesEcbEncrypt keySize =>
    simp only [exec, execAesEcbEncrypt] at h
    split at h
    · exact .inr (started (.aes keySize.toNat) h)
    · cases h
  | _ => exact .inl (by simp [Claims.isNgOp, Claims.isAccOp])

/-- Whatever the port operations, the starts and every row keep, every instruction keeps. -/
theorem exec_keeps {P : State → Prop} (htick : ∀ s t, P s → tick s = .next t → P t)
    (hport : ∀ i s t, P s → Claims.isNgOp i = true ∨ Claims.isAccOp i = true →
      exec i s = .next t → P t)
    (hstart : ∀ s u, P s → idle s = true → Started s u → P u)
    {i : Instr} {s t : State} (hs : P s) (h : exec i s = .next t) : P t := by
  rcases exec_cases h with hi | ⟨hidle, u, hu, hrun⟩
  · exact hport i s t hs hi h
  · exact drive_keeps htick (hstart s u hs hidle hu) hrun

/-- Whatever every row, the port operations and the starts keep, every step keeps, where the queue, CMD and
STATUS do not matter. -/
theorem step_keeps_of_rows {P : State → Prop} (htick : ∀ s t, P s → tick s = .next t → P t)
    (hport : ∀ i s t, P s → Claims.isNgOp i = true ∨ Claims.isAccOp i = true →
      exec i s = .next t → P t)
    (hstart : ∀ s u, P s → idle s = true → Started s u → P u)
    (hhost : ∀ s issue cmd, P s → P { s with host := { s.host with issue := issue, cmd := cmd } })
    (hrej : ∀ s, P s → P (rejectWord s)) {s t : State} (hs : P s) (h : step s = .next t) : P t :=
  step_keeps htick (fun _ _ _ => exec_keeps htick hport hstart) hhost hrej hs h

/-! ## What a step can do -/

/-- R7, R148: a step waits, issues the next operation, or carries on the one in progress. -/
theorem step_cases {s t : State} (h : step s = .next t) :
    (idle s = true ∧ s.host.issue = [] ∧ t = s) ∨
    (idle s = true ∧ ∃ x rest, s.host.issue = x :: rest ∧
      issueOne x { s with host := { s.host with issue := rest } } = .next t) ∨
    (idle s = false ∧ advance s = .next t) := by
  unfold step at h
  split at h
  · next hi =>
    unfold issueNext at h
    split at h
    · next hq => cases h; exact .inl ⟨hi, hq, rfl⟩
    · next x rest hq => exact .inr (.inl ⟨hi, x, rest, hq, h⟩)
  · next hi => exact .inr (.inr ⟨by simpa using hi, h⟩)

/-- R28, R61, R66: a word the host writes runs as INIT or GET_RANDOM, or it is rejected. -/
theorem hostWrite_cases {w : CmdWord} {s t : State} (h : hostWrite w s = .next t) :
    (∃ u, (u = startInit { s with host := { s.host with cmd := w } } ∨
        ∃ dstv size, u = startGetRandom dstv size { s with host := { s.host with cmd := w } }) ∧
      run u = .next t) ∨
    t = rejectWord { s with host := { s.host with cmd := w } } := by
  simp only [hostWrite, decodeHost] at h
  cases hd : decodeCw w with
  | error e => rw [hd] at h; cases h; exact .inr rfl
  | ok i =>
    rw [hd] at h
    cases i with
    | init => exact .inl ⟨_, .inl rfl, (whenIdle_next h).2⟩
    | getRandom dstv size => exact .inl ⟨_, .inr ⟨dstv, size, rfl⟩, (whenIdle_next h).2⟩
    | _ => cases h; exact .inr rfl

/-- Settles O6: taking the word from the queue and writing it to CMD commute with the decoder. -/
theorem stepRunsHostCommand : Obligations.StepRunsHostCommand := by
  intro s w rest i hidle hq hd
  simp [step, hidle, issueNext, hq, issueOne, hostWrite, hd]

/-! ## The frame of the port operations (R21, R25, R51) -/

/-- R21: an operation towards NG touches NG, the port trace and the draws. -/
theorem exec_ngOp_frame {i : Instr} {s t : State} (hi : Claims.isNgOp i = true)
    (h : exec i s = .next t) :
    ∃ ng env e, t = { s with ng := ng, env := env, trace := s.trace ++ [e] } := by
  cases i with
  | ngEnable => cases h; exact ⟨_, _, _, rfl⟩
  | ngDisable => cases h; exact ⟨_, _, _, rfl⟩
  | ngReset => cases h; exact ⟨_, _, _, rfl⟩
  | ngConfigure c t w b => cases h; exact ⟨_, _, _, rfl⟩
  | ngFsmRead =>
    cases h
    unfold ngFsmRead drawFsm
    split <;> exact ⟨_, _, _, rfl⟩
  | ngKeySet index word => cases h; exact ⟨_, _, _, rfl⟩
  | ngKeyRead index => cases h; exact ⟨_, _, _, rfl⟩
  | ngLevelRead =>
    cases h
    unfold ngLevelRead drawWords
    split <;> exact ⟨_, _, _, rfl⟩
  | ngFifoPop =>
    obtain ⟨a, ha, ht⟩ := andThen_eq_next.1 h
    cases ht
    rw [ngFifoPop_cons (ngFifoPop_next (w := a.1) (s' := a.2) ha)] at ha
    rw [← (Host.Outcome.next.inj ha)]
    exact ⟨_, _, _, rfl⟩
  | _ => cases hi

/-- R25, R54: an operation towards ACC touches ACC, JOB, the port trace and the draws. -/
theorem exec_accOp_frame {i : Instr} {s t : State} (hi : Claims.isAccOp i = true)
    (h : exec i s = .next t) :
    ∃ acc job env e,
      t = { s with acc := acc, job := job, env := env, trace := s.trace ++ [e] } := by
  cases i with
  | accEnable => cases h; exact ⟨_, _, _, _, rfl⟩
  | accDisable => cases h; exact ⟨_, _, _, _, rfl⟩
  | accSetFetch addr => cases addr; cases h; exact ⟨_, _, _, _, rfl⟩
  | accSetPush addr => cases addr; cases h; exact ⟨_, _, _, _, rfl⟩
  | accSetIndirect => cases h; exact ⟨_, _, _, _, rfl⟩
  | accStart =>
    simp only [exec, execAccStart] at h
    split at h
    · cases h
    · split at h
      · cases h
      · split at h
        · cases h
        · cases h; exact ⟨_, _, _, _, rfl⟩
  | accStatusRead =>
    cases h
    unfold accStatusRead accStatusReadIdle drawAccStatus
    split
    · split
      · exact ⟨_, _, _, _, rfl⟩
      · simp only; split <;> exact ⟨_, _, _, _, rfl⟩
    · simp only; split <;> exact ⟨_, _, _, _, rfl⟩
  | accSoftreset => cases h; exact ⟨_, _, _, _, rfl⟩
  | barrier => cases h; exact ⟨_, _, _, _, rfl⟩
  | _ => cases hi

/-- No operation is one towards NG and one towards ACC. -/
theorem isNgOp_and_isAccOp (i : Instr) : (Claims.isNgOp i && Claims.isAccOp i) = false := by
  cases i <;> rfl

/-- Settles O21, from the frames of the two modules' operations. -/
theorem portOperationsFrame : Obligations.PortOperationsFrame := by
  intro i s t hi h
  have hone := isNgOp_and_isAccOp i
  rcases hi with hi | hi
  · obtain ⟨ng, env, e, rfl⟩ := exec_ngOp_frame hi h
    have hacc : Claims.isAccOp i = false := by simpa [hi] using hone
    simp [hacc]
  · obtain ⟨acc, job, env, e, rfl⟩ := exec_accOp_frame hi h
    have hng : Claims.isNgOp i = false := by simpa [hi] using hone
    simp [hng]

/-! ## The port trace only grows (R29) -/

theorem dceRow_trace (s : State) : s.trace <+: (dceRow s).trace := by
  rcases dceRow_cases s with ⟨_, _, _, _, _, h⟩ | ⟨_, h⟩ | ⟨_, g, vw, h⟩
  · exact h
  · rw [h]; simp
  · rw [h]; simp

theorem tick_trace {s t : State} (h : tick s = .next t) : s.trace <+: t.trace := by
  rcases tick_rows h with ⟨_, hp, _⟩ | ⟨_, u, hp, _, _, h⟩ | ⟨_, _, rfl⟩ | ⟨_, _, hr⟩ |
    ⟨_, _, st, u, hr, rfl⟩
  · obtain ⟨_, _, _, _, _, _, htr⟩ := hp
    exact htr
  · obtain ⟨_, _, _, _, _, _, htr⟩ := hp
    obtain ⟨_, _, _, _, _, htr'⟩ := aesReturned_keeps h
    exact htr.trans htr'
  · exact dceRow_trace s
  · exact ecRow_trace hr
  · obtain ⟨_, _, _, _, _, htr⟩ := dceEntropy_keeps st u
    exact (ecRow_trace hr).trans htr

theorem Started.trace {s u : State} (h : Started s u) : s.trace <+: u.trace := by
  cases h <;> simp

/-- Settles O57: what the trace has grown to from a given start is kept by every step. -/
theorem traceOnlyGrows : Obligations.TraceOnlyGrows := by
  intro s t h
  refine step_keeps_of_rows (P := fun u => s.trace <+: u.trace)
    (fun _ _ hu hv => hu.trans (tick_trace hv)) ?_ (fun _ _ hu _ hs => hu.trans hs.trace)
    (fun _ _ _ hu => hu) (fun _ hu => hu) (List.prefix_refl _) h
  intro i u v hu hi hv
  obtain ⟨_, _, _, _, _, _, _, _, e, htr⟩ := portOperationsFrame i u v hi hv
  exact hu.trans (by simp [htr])

/-! ## Who writes GeneratorState (R10 to R14) -/

theorem dceBlock_gen {s t : State} (h : dceBlock s = .next t) : t.gen = s.gen := by
  rcases dceBlock_cases h with ⟨k, _, rfl⟩ | ⟨j, _, h⟩ | rfl
  · simp
  · obtain ⟨_, rfl⟩ := takeOutBlock_next h
    simp
  · rfl

@[simp] theorem raise_gen (st : Status) (s : State) : (raise st s).gen = s.gen := by
  obtain ⟨h, _⟩ := raise_frame st s
  exact h

theorem dceBlockFailed_gen (s : State) : (dceBlockFailed s).gen = s.gen := by
  rcases dceBlockFailed_cases s with h | h <;> simp [h]

theorem dceEntropy_gen (st : Status) (s : State) : (dceEntropy st s).gen = s.gen := by
  rcases dceEntropy_cases st s with ⟨_, h | h⟩ | h <;> simp [h]

theorem dceCheck_gen (s : State) : (dceCheck s).gen = s.gen := by
  unfold dceCheck
  split
  · simp
  · split
    · simp
    · split <;> simp

theorem dceReseedTest_gen (s : State) : (dceReseedTest s).gen = s.gen := by
  unfold dceReseedTest
  split <;> simp

/-- R142: a row of the output loop counts V up, or it leaves the loop. -/
theorem dceOut_gen (s : State) : ∃ v, (dceOut s).gen = { s.gen with v := v } := by
  unfold dceOut
  split
  · exact ⟨s.gen.v, by simp⟩
  · exact ⟨inc128 s.gen.v, by simp⟩

/-- R147: no row of DCE but D_ZERO and D_COMMIT writes GeneratorState, but that D_OUT writes V. -/
theorem dceRow_gen {s : State} (hz : s.dce.phase ≠ .zero) (hc : s.dce.phase ≠ .commit) :
    ∃ v, (dceRow s).gen = { s.gen with v := v } ∧ ((∀ j, s.dce.phase ≠ .out j) → v = s.gen.v) := by
  unfold dceRow
  cases hd : s.dce.phase with
  | zero => exact absurd hd hz
  | commit => exact absurd hd hc
  | out j =>
    obtain ⟨v, hv⟩ := dceOut_gen s
    exact ⟨v, hv, fun h => absurd rfl (h j)⟩
  | check => exact ⟨_, dceCheck_gen s, fun _ => rfl⟩
  | reseedTest => exact ⟨_, dceReseedTest_gen s, fun _ => rfl⟩
  | upd k => exact ⟨s.gen.v, by simp [dceUpd], fun _ => rfl⟩
  | idle => exact ⟨_, rfl, fun _ => rfl⟩
  | seed => exact ⟨_, rfl, fun _ => rfl⟩
  | final => exact ⟨_, rfl, fun _ => rfl⟩
  | resp => exact ⟨_, respond_gen .ok s, fun _ => rfl⟩

/-- R10 to R14, R45: a row that is none of DCE's own writes nothing of GeneratorState. -/
theorem tick_gen_of_other {s t : State} (hs : s.bce = .poll ∨ s.ec.phase ≠ .idle)
    (h : tick s = .next t) : t.gen = s.gen := by
  rcases tick_rows h with ⟨_, hp, _⟩ | ⟨_, u, hp, _, _, h⟩ | ⟨hb, he, _⟩ | ⟨_, _, hr⟩ |
    ⟨_, _, st, u, hr, rfl⟩
  · obtain ⟨hg, _⟩ := hp
    exact hg
  · obtain ⟨hg, _⟩ := hp
    have hk : t.gen = u.gen := h.elim dceBlock_gen (· ▸ dceBlockFailed_gen u)
    exact hk.trans hg
  · simp [hb, he] at hs
  · obtain ⟨hg, _⟩ := ecRow_frame hr
    exact hg
  · obtain ⟨hg, _⟩ := ecRow_frame hr
    exact (dceEntropy_gen st u).trans hg

/-- Settles O58: a row is one of DCE's own, or it writes nothing of GeneratorState. -/
theorem generatorStateWriters : Obligations.GeneratorStateWriters := by
  intro s t h
  refine ⟨fun hs => tick_gen_of_other hs h, fun hz hc => ?_⟩
  by_cases hs : s.bce = .poll ∨ s.ec.phase ≠ .idle
  · simp [tick_gen_of_other hs h]
  · obtain ⟨hb, he⟩ := not_or.1 hs
    have hb' : s.bce = .idle := by
      cases hi : s.bce with
      | idle => rfl
      | poll => exact absurd hi hb
    rw [tick_dce hb' (not_not.1 he)] at h
    cases h
    obtain ⟨v, hg, hv⟩ := dceRow_gen hz hc
    simp only [hg, true_and]
    exact hv

end Sys2Proof.Machine

namespace Sys2Proof.Machine

/-! # The counter and the return context (R15, R16, R146, R147) -/

/-- The invariant reads GeneratorState and DCE's phase and context alone. -/
theorem CounterInv.congr {s t : State} (h : CounterInv s) (hg : t.gen = s.gen)
    (hp : t.dce.phase = s.dce.phase) (hc : t.dce.ctx = s.dce.ctx) : CounterInv t := by
  unfold CounterInv CtxSound at *
  rw [hg, hp, hc]
  exact h

/-- An operation that has ended has an empty context. -/
theorem CounterInv.of_ended {s t : State} (h : CounterInv s) (hg : t.gen = s.gen)
    (hp : t.dce.phase = .idle) (hc : t.dce.ctx = []) : CounterInv t := by
  obtain ⟨hr, _⟩ := h
  exact ⟨by rw [hg]; exact hr, by simp [CtxSound, hp, hc]⟩

/-- R16, R147: no return context is more than three deep. -/
theorem CounterInv.ctx_length_le {s : State} (h : CounterInv s) : s.dce.ctx.length ≤ 3 := by
  have callers_le : ∀ {callers}, CallersSound s.gen callers → callers.length ≤ 2 := by
    rintro _ (rfl | rfl | rfl | ⟨rfl, _⟩) <;> simp
  have reseed_le : (∃ callers, s.dce.ctx = .cReseed :: callers ∧ CallersSound s.gen callers) →
      s.dce.ctx.length ≤ 3 := by
    rintro ⟨callers, hc, hs⟩
    have := callers_le hs
    simp only [hc, List.length_cons]
    omega
  obtain ⟨_, hctx⟩ := h
  unfold CtxSound at hctx
  split at hctx
  · simp [hctx]
  · simp [hctx]
  · rcases hctx with h | h <;> simp [h]
  · exact reseed_le hctx
  · rcases hctx with h | ⟨h, _⟩ | h
    · exact reseed_le h
    · simp [h]
    · simp [h]
  · rcases hctx with h | ⟨h, _⟩ | h
    · exact reseed_le h
    · simp [h]
    · simp [h]
  · obtain ⟨hc, _⟩ := hctx; simp [hc]
  · obtain ⟨hc, _⟩ := hctx; simp [hc]
  · obtain ⟨hc, _⟩ := hctx; simp [hc]
  · rcases hctx with h | h <;> simp [h]

theorem raise_counter (st : Status) {s : State} (h : CounterInv s) : CounterInv (raise st s) := by
  obtain ⟨hg, hp, hc, _⟩ := raise_frame st s
  exact h.of_ended hg hp hc

/-- R138 to R140: past its checks GET_RANDOM goes to the reseed test on an initialized generator, else to an
INIT of its own. -/
theorem dceCheck_counter {s : State} (hd : s.dce.phase = .check) (h : CounterInv s) :
    CounterInv (dceCheck s) := by
  obtain ⟨hr, hctx⟩ := h
  have hctx' : s.dce.ctx = [.cGen] := by simpa [CtxSound, hd] using hctx
  unfold dceCheck
  split
  · exact raise_counter _ ⟨hr, hctx⟩
  · split
    · exact CounterInv.of_ended ⟨hr, hctx⟩ (by simp) (by simp) (by simp)
    · split
      · next hi => exact ⟨by simpa using hr, by simp [CtxSound, hctx', hi]⟩
      · exact ⟨by simpa using hr, by simp [CtxSound, hctx']⟩

/-- R136: D_ZERO leaves an uninitialized generator, and RESEED is called by INIT. -/
theorem dceZero_counter {s : State} (hd : s.dce.phase = .zero) (h : CounterInv s) :
    CounterInv (dceZero s) := by
  obtain ⟨_, hctx⟩ := h
  refine ⟨by simp [CounterRange, zeroedGen], ?_⟩
  have hctx' : s.dce.ctx = [.cInit] ∨ s.dce.ctx = [.cInit, .cGen] := by
    simpa [CtxSound, hd] using hctx
  rcases hctx' with hc | hc <;> simp [CtxSound, CallersSound, hc]

/-- R135, R136, R140: RESEED leaves the counter 1, in range, and its caller goes on with its own context. -/
theorem reseedReturn_counter {callers : List Ctx} {s : State} (h : CallersSound s.gen callers) :
    CounterInv (reseedReturn callers s) := by
  rcases h with rfl | rfl | rfl | ⟨rfl, hi⟩
  · simp [reseedReturn, CounterInv, CounterRange, CtxSound, Config.reseedInterval]
  · simp [reseedReturn, CounterInv, CounterRange, CtxSound, Config.reseedInterval]
  · simp [reseedReturn, CounterInv, CounterRange, CtxSound, Config.reseedInterval]
  · simp [reseedReturn, CounterInv, CounterRange, CtxSound, CanCount, hi, Config.reseedInterval]

/-- R143, R146: a counter that can be counted up stays in range. -/
theorem CanCount.range_succ {g : GeneratorState} (h : CanCount g) (hr : CounterRange g) :
    1 ≤ (g.reseedCtr + 1).toNat ∧ (g.reseedCtr + 1).toNat + 1 ≤ Config.reseedInterval := by
  obtain ⟨hi, hc⟩ := h
  obtain ⟨hlo, _⟩ := hr hi
  have h1 : (1 : BitVec 64).toNat = 1 := rfl
  unfold Config.reseedInterval at *
  rw [BitVec.toNat_add, h1]
  omega

/-- R132, R143: D_COMMIT returns to RESEED, to GET_RANDOM, which counts up, or to nobody. -/
theorem dceCommit_counter {s : State} (hd : s.dce.phase = .commit) (h : CounterInv s) :
    CounterInv (dceCommit s) := by
  obtain ⟨hr, hctx⟩ := h
  have hctx' : (∃ callers, s.dce.ctx = .cReseed :: callers ∧ CallersSound s.gen callers) ∨
      (s.dce.ctx = [.cGen] ∧ CanCount s.gen) ∨ s.dce.ctx = [] := by
    simpa [CtxSound, hd] using hctx
  rcases hctx' with ⟨callers, hc, hs⟩ | ⟨hc, hcan⟩ | hc
  · simp only [dceCommit, hc]
    exact reseedReturn_counter hs
  · simp only [dceCommit, hc]
    exact ⟨fun _ => hcan.range_succ hr, by simp [CtxSound, hc]⟩
  · simp only [dceCommit, hc]
    exact ⟨hr, by simp [CtxSound]⟩

/-- R141: below the threshold the counter can be counted up; at it RESEED is called by GET_RANDOM. -/
theorem dceReseedTest_counter {s : State} (hd : s.dce.phase = .reseedTest) (h : CounterInv s) :
    CounterInv (dceReseedTest s) := by
  obtain ⟨hr, hctx⟩ := h
  have hctx' : s.dce.ctx = [.cGen] ∧ s.gen.initialized = true := by
    simpa [CtxSound, hd] using hctx
  obtain ⟨hc, hi⟩ := hctx'
  unfold dceReseedTest
  split
  · exact ⟨by simpa using hr, by simp [CtxSound, CallersSound, hc, hi]⟩
  · next hdue =>
    have hlt : s.gen.reseedCtr.toNat + 2 ≤ Config.reseedInterval := by
      simp only [reseedDue, decide_eq_true_eq] at hdue
      omega
    exact ⟨by simpa using hr, by simp [CtxSound, CanCount, hc, hi, hlt]⟩

/-- R142: the output loop and its end keep the context, and count up V alone. -/
theorem dceOut_counter {s : State} {j : Nat} (hd : s.dce.phase = .out j) (h : CounterInv s) :
    CounterInv (dceOut s) := by
  obtain ⟨hr, hctx⟩ := h
  have hctx' : s.dce.ctx = [.cGen] ∧ CanCount s.gen := by simpa [CtxSound, hd] using hctx
  unfold dceOut
  split
  · exact ⟨by simpa using hr, by simpa [CtxSound] using hctx'⟩
  · exact ⟨by simpa [CounterRange] using hr, by simpa [CtxSound, hd, CanCount] using hctx'⟩

/-- R147: every row of DCE keeps the counter's range and the context of its phase. -/
theorem dceRow_counter {s : State} (h : CounterInv s) : CounterInv (dceRow s) := by
  unfold dceRow
  cases hd : s.dce.phase with
  | idle => exact h
  | check => exact dceCheck_counter hd h
  | zero => exact dceZero_counter hd h
  | seed => exact h.congr rfl rfl rfl
  | upd k => exact h.congr (by simp [dceUpd]) (by simp [dceUpd]) (by simp [dceUpd])
  | commit => exact dceCommit_counter hd h
  | reseedTest => exact dceReseedTest_counter hd h
  | out j => exact dceOut_counter hd h
  | final =>
    obtain ⟨hr, hctx⟩ := h
    have hctx' : s.dce.ctx = [.cGen] ∧ CanCount s.gen := by simpa [CtxSound, hd] using hctx
    exact ⟨by simpa using hr, by simp [CtxSound, hctx']⟩
  | resp => exact h.of_ended (by simp) (by simp) (by simp)

/-- R132: a block of UPDATE is followed by another one or by D_COMMIT. -/
theorem afterUpd_cases (k : Fin 3) : (∃ k', afterUpd k = .upd k') ∨ afterUpd k = .commit := by
  unfold afterUpd
  split
  · exact .inl ⟨_, rfl⟩
  · split
    · exact .inl ⟨_, rfl⟩
    · exact .inr rfl

/-- R132: after a block of UPDATE comes the next one or D_COMMIT, all with the same context. -/
theorem takeUpdBlock_counter {s : State} {k : Fin 3} (hd : s.dce.phase = .upd k)
    (h : CounterInv s) : CounterInv (takeUpdBlock k s) := by
  obtain ⟨hr, hctx⟩ := h
  refine ⟨by simpa using hr, ?_⟩
  rcases afterUpd_cases k with ⟨k', hk⟩ | hk
  · simpa [CtxSound, hk, hd] using hctx
  · simpa [CtxSound, hk, hd] using hctx

theorem dceBlock_counter {s t : State} (hs : CounterInv s) (h : dceBlock s = .next t) :
    CounterInv t := by
  rcases dceBlock_cases h with ⟨k, hd, rfl⟩ | ⟨j, hd, h⟩ | rfl
  · exact takeUpdBlock_counter hd hs
  · obtain ⟨_, rfl⟩ := takeOutBlock_next h
    obtain ⟨hr, hctx⟩ := hs
    have hctx' : s.dce.ctx = [.cGen] ∧ CanCount s.gen := by simpa [CtxSound, hd] using hctx
    exact ⟨by simpa using hr, by simpa [CtxSound] using hctx'⟩
  · exact hs

theorem dceBlockFailed_counter {s : State} (h : CounterInv s) : CounterInv (dceBlockFailed s) := by
  rcases dceBlockFailed_cases s with h' | h' <;> rw [h']
  · exact raise_counter _ h
  · exact h

/-- R135: UPDATE called by RESEED has RESEED's context. -/
theorem dceEntropy_counter (st : Status) {s : State} (h : CounterInv s) :
    CounterInv (dceEntropy st s) := by
  rcases dceEntropy_cases st s with ⟨hd, h' | h'⟩ | h' <;> rw [h']
  · obtain ⟨hr, hctx⟩ := h
    have hctx' : ∃ callers, s.dce.ctx = .cReseed :: callers ∧ CallersSound s.gen callers := by
      simpa [CtxSound, hd] using hctx
    exact ⟨by simpa using hr, by simpa [CtxSound] using .inl hctx'⟩
  · exact raise_counter _ h
  · exact h

theorem tick_counter {s t : State} (hs : CounterInv s) (h : tick s = .next t) : CounterInv t := by
  have polled : ∀ {u}, AesPolled s u → CounterInv u := by
    rintro u ⟨hg, ⟨b, hd⟩, _⟩
    exact hs.congr hg (by rw [hd]) (by rw [hd])
  have ecRun : ∀ {r u}, ecRow s = .next (r, u) → CounterInv u := by
    intro r u hr
    obtain ⟨hg, hd, _⟩ := ecRow_frame hr
    exact hs.congr hg (by rw [hd]) (by rw [hd])
  rcases tick_rows h with ⟨_, hp, _⟩ | ⟨_, u, hp, _, _, h | rfl⟩ | ⟨_, _, rfl⟩ | ⟨_, _, hr⟩ |
    ⟨_, _, st, u, hr, rfl⟩
  · exact polled hp
  · exact dceBlock_counter (polled hp) h
  · exact dceBlockFailed_counter (polled hp)
  · exact dceRow_counter hs
  · exact ecRun hr
  · exact dceEntropy_counter st (ecRun hr)

/-- R16, R147: an operation is started with the context of its first phase. -/
theorem Started.counter {s u : State} (hs : CounterInv s) (hidle : idle s = true)
    (h : Started s u) : CounterInv u := by
  obtain ⟨hr, hctx⟩ := hs
  obtain ⟨hd, _⟩ := idle_phases hidle
  have hctx' : s.dce.ctx = [] := by simpa [CtxSound, hd] using hctx
  cases h with
  | init => exact ⟨hr, by simp [CtxSound]⟩
  | getRandom dstv size => exact ⟨hr, by simp [CtxSound]⟩
  | reseed => exact ⟨hr, by simp [CtxSound, CallersSound, hctx']⟩
  | update hasExtra => exact ⟨hr, by simp [CtxSound, hctx']⟩
  | getEntropy esize => exact CounterInv.congr ⟨hr, hctx⟩ rfl rfl rfl
  | aes keySize => exact CounterInv.congr ⟨hr, hctx⟩ (by simp) (by simp) (by simp)

/-- Settles O52: every row keeps the invariant, every start establishes it, and a port operation touches
nothing it reads. -/
theorem counterRangeKept : Obligations.CounterRangeKept := by
  intro s t hs h
  have ht : CounterInv t := by
    refine step_keeps_of_rows (fun _ _ => tick_counter) ?_ (fun _ _ => Started.counter)
      (fun _ _ _ hu => hu) (fun _ hu => hu) hs h
    intro i u v hu hi hv
    obtain ⟨hg, hd, _⟩ := portOperationsFrame i u v hi hv
    exact hu.congr hg (by rw [hd]) (by rw [hd])
  exact ⟨ht, ht.ctx_length_le⟩

end Sys2Proof.Machine

namespace Sys2Proof.Machine

/-! # The engines and their modules (R16, R20, R84, R188) -/

/-- R16, R21, R22, R188: what of the invariants speaks of the engines' phases, the modules and the FIFO. -/
def EnginesSound (s : State) : Prop := ModulesInv s ∧ FifoInv s ∧ CallSound s

/-- The invariants read no more of a state than this. -/
theorem EnginesSound.congr {s t : State} (h : EnginesSound s) (hb : t.bce = s.bce)
    (hacc : t.acc.enabled = s.acc.enabled) (he : t.ec = s.ec) (hng : t.ng = s.ng)
    (hd : t.dce.phase = s.dce.phase) : EnginesSound t := by
  unfold EnginesSound ModulesInv FifoInv CallSound at *
  rw [hb, hacc, he, hng, hd]
  exact h

/-- R7, R188: no engine but DCE runs: both modules are off and the FIFO is within its capacity. -/
def DceAlone (s : State) : Prop :=
  s.bce = .idle ∧ s.ec.phase = .idle ∧ ModulesOff s ∧ s.ng.fifo.length ≤ Config.fifoDepthWords

theorem DceAlone.modulesOff {s : State} (h : DceAlone s) : ModulesOff s := by
  obtain ⟨_, _, hoff, _⟩ := h
  exact hoff

theorem DceAlone.enginesSound {s : State} (h : DceAlone s) : EnginesSound s := by
  obtain ⟨hb, he, ⟨hacc, hng⟩, hf⟩ := h
  simp [EnginesSound, ModulesInv, FifoInv, CallSound, ecHoldsNg, hb, he, hacc, hng, hf]

/-- R188: where the two other engines are idle both modules are off. -/
theorem EnginesSound.dceAlone {s : State} (h : EnginesSound s) (hb : s.bce = .idle)
    (he : s.ec.phase = .idle) : DceAlone s := by
  obtain ⟨⟨hacc, hng, _⟩, ⟨hf, _⟩, _⟩ := h
  exact ⟨hb, he, ⟨by simp [hacc, hb], by simp [hng, he, ecHoldsNg]⟩, hf⟩

theorem DceKeeps.dceAlone {s t : State} (h : DceKeeps s t) (hs : DceAlone s) : DceAlone t := by
  obtain ⟨hb, he, hng, hacc, _⟩ := h
  unfold DceAlone ModulesOff at *
  rw [hb, he, hng, hacc]
  exact hs

/-- R114, R188: a job is started by DCE alone, with DCE in a phase that waits for it. -/
theorem aesStart_enginesSound {s : State} (n : Nat) (hs : DceAlone s)
    (hd : (∃ k, s.dce.phase = .upd k) ∨ ∃ j, s.dce.phase = .out j) :
    EnginesSound (aesStart n s) := by
  obtain ⟨_, he, ⟨_, hng⟩, hf⟩ := hs
  refine ⟨by simp [ModulesInv, he, hng, ecHoldsNg], by simp [FifoInv, he, hf], ?_⟩
  refine ⟨by simp [he], fun _ => ?_⟩
  simpa using hd.imp_right .inl

/-- R82, R188: GET_ENTROPY is started by DCE alone, which waits for it in D_SEED. -/
theorem ecStart_enginesSound {s : State} (esize : BitVec 32) (hs : DceAlone s)
    (hd : s.dce.phase = .seed) : EnginesSound (ecStart esize s) := by
  obtain ⟨hb, _, ⟨hacc, hng⟩, hf⟩ := hs
  simp [EnginesSound, ModulesInv, FifoInv, CallSound, ecHoldsNg, hb, hacc, hng, hf, hd]

theorem dceRow_enginesSound {s : State} (hs : DceAlone s) : EnginesSound (dceRow s) := by
  rcases dceRow_cases s with h | ⟨hd, h⟩ | ⟨hd, g, vw, h⟩
  · exact (h.dceAlone hs).enginesSound
  · rw [h]; exact ecStart_enginesSound _ hs hd
  · rw [h]; exact aesStart_enginesSound 32 hs hd

/-! ## The rows of EC -/

/-- R84, R89, R90: what of the invariants a row of EC can break: NG is enabled exactly between NG_ENABLE and
NG_DISABLE, and the words about to be popped are in the FIFO. -/
def EcSound (s : State) : Prop := s.ng.enabled = ecHoldsNg s.ec.phase ∧ FifoInv s

/-- R86, R88: a poll iteration goes on with the level that its next row needs. -/
theorem pollPhase_cases (keySet : Bool) (need level : Nat) :
    pollPhase keySet need level = .poll ∨
    (pollPhase keySet need level = .keyload ∧ 4 ≤ level) ∨
    (pollPhase keySet need level = .drain ∧ need ≤ level) := by
  unfold pollPhase Config.fifoMinWords
  split
  · exact .inl rfl
  · next h4 =>
    split
    · exact .inr (.inl ⟨rfl, by omega⟩)
    · split
      · exact .inl rfl
      · exact .inr (.inr ⟨rfl, by omega⟩)

/-- R86: the level read leaves EC in a phase whose words are in the FIFO. -/
theorem ecPollReady_sound {s : State} (hng : s.ng.enabled = true)
    (hf : s.ng.fifo.length ≤ Config.fifoDepthWords) : EcSound (ecPollReady s) := by
  have hcap := fifoFilled_length_le (ws := (drawWords s).1) hf
  have hlevel : (ngLevelRead s).1 = (fifoFilled s.ng.fifo (drawWords s).1).length := by
    simp [ngLevelRead]
  rcases pollPhase_cases s.ec.keySet (drainCount s.ec.need s.ec.esize)
    (fifoFilled s.ng.fifo (drawWords s).1).length with h | ⟨h, hl⟩ | ⟨h, hl⟩
  · simp [EcSound, FifoInv, ecPollReady, hlevel, h, ecHoldsNg, hng, hcap]
  · simp [EcSound, FifoInv, ecPollReady, hlevel, h, ecHoldsNg, hng, hcap, hl]
  · simp [EcSound, FifoInv, ecPollReady, hlevel, h, ecHoldsNg, hng, hcap, hl]

theorem ecPoll_sound {s : State} (hp : s.ec.phase = .poll) (hs : EcSound s) :
    EcSound (ecPoll s) := by
  obtain ⟨hng, hf, _⟩ := hs
  rw [hp] at hng
  rcases ecPoll_cases s with ⟨_, h⟩ | ⟨_, h⟩ | ⟨_, h⟩ <;> rw [h]
  · simp [EcSound, FifoInv, ecHoldsNg, hng, hf]
  · simp [EcSound, FifoInv, ecHoldsNg, hng, hf, hp]
  · exact ecPollReady_sound (by simpa [ecHoldsNg] using hng) (by simpa using hf)

/-- R83: an oversized request returns, every other one goes on to NG_ENABLE. -/
theorem ecCheck_sound {s t : State} {r : Option Status} (hp : s.ec.phase = .check) (hs : EcSound s)
    (h : (r, t) = ecCheck s) : EcSound t ∧ (r ≠ none → t.ec.phase = .idle) := by
  obtain ⟨hng, hf, _⟩ := hs
  rw [hp] at hng
  unfold ecCheck at h
  split at h <;> cases h <;> simp [EcSound, FifoInv, ecHoldsNg, hng, hf]

/-- R102: every row of EC keeps its share of the invariants, and EC is in E_IDLE where it has returned. -/
theorem ecRow_sound {s t : State} {r : Option Status} (hs : EcSound s)
    (hrow : ecRow s = .next (r, t)) : EcSound t ∧ (r ≠ none → t.ec.phase = .idle) := by
  obtain ⟨hng, hfifo⟩ := hs
  have ⟨hf, _⟩ := hfifo
  rcases ecRow_cases hrow with ⟨_, rfl, rfl⟩ | ⟨hp, h⟩ | ⟨hp, rfl, rfl⟩ | ⟨hp, rfl, rfl⟩ |
    ⟨hp, rfl, rfl⟩ | ⟨hp, rfl, h⟩ | ⟨hp, rfl, h⟩ | ⟨hp, rfl, rfl⟩ | ⟨hp, rfl, rfl⟩
  · exact ⟨⟨hng, hfifo⟩, by simp⟩
  · exact ecCheck_sound hp ⟨hng, hfifo⟩ h
  · simp [EcSound, FifoInv, ecHoldsNg, hf]
  · rw [hp] at hng
    simp [EcSound, FifoInv, ecHoldsNg, hng, ngInit]
  · exact ⟨ecPoll_sound hp ⟨hng, hfifo⟩, by simp⟩
  · obtain ⟨w0, w1, w2, w3, rest, hw⟩ := ecKeyload_next h
    rw [ecKeyload_four hw] at h
    cases h
    rw [hw] at hf
    simp only [List.length_cons] at hf
    rw [hp] at hng
    refine ⟨⟨hng, ?_, by simp, by simp⟩, by simp⟩
    show rest.length ≤ _
    omega
  · rw [ecDrain_enough (ecDrain_next h)] at h
    cases h
    rw [hp] at hng
    refine ⟨⟨hng, ?_, by simp, by simp⟩, by simp⟩
    simp only [List.length_drop]
    omega
  · simp [EcSound, FifoInv, ecHoldsNg, ngAfterDisable_fifo_length_le, -ngAfterDisable_fifo]
  · rw [hp] at hng
    simp [EcSound, FifoInv, ecHoldsNg, hng, hf]

/-! ## Every row -/

theorem tick_enginesSound {s t : State} (hs : EnginesSound s) (h : tick s = .next t) :
    EnginesSound t := by
  have ⟨⟨hacc, hng, hone⟩, hfifo, hec, hcall⟩ := hs
  have ⟨hf, _⟩ := hfifo
  rcases tick_rows h with ⟨hb, hp, hb', hacc'⟩ | ⟨hb, u, hp, hb', hacc', h⟩ | ⟨hb, he, rfl⟩ |
    ⟨hb, he, hr⟩ | ⟨hb, he, st, u, hr, rfl⟩
  · obtain ⟨_, ⟨b, hd⟩, he, hn, _⟩ := hp
    exact hs.congr (hb'.trans hb.symm) hacc' he hn (by rw [hd])
  · obtain ⟨_, _, he, hn, _⟩ := hp
    have hi := hone hb
    have hu : DceAlone u := ⟨hb', by rw [he, hi], ⟨hacc', by simp [hn, hng, hi, ecHoldsNg]⟩,
      by rw [hn]; exact hf⟩
    exact ((aesReturned_keeps h).dceAlone hu).enginesSound
  · exact dceRow_enginesSound (hs.dceAlone hb he)
  · obtain ⟨_, hd, hb', hacc', _⟩ := ecRow_frame hr
    obtain ⟨⟨hng', hfifo'⟩, _⟩ := ecRow_sound ⟨hng, hfifo⟩ hr
    refine ⟨⟨by rw [hacc', hb']; exact hacc, hng', by simp [hb', hb]⟩, hfifo', ?_⟩
    exact ⟨fun _ => by rw [hd]; exact hec he, by simp [hb', hb]⟩
  · obtain ⟨_, _, hb', hacc', _⟩ := ecRow_frame hr
    obtain ⟨⟨hng', hf', _⟩, hi⟩ := ecRow_sound ⟨hng, hfifo⟩ hr
    have hi := hi (by simp)
    have hu : DceAlone u := ⟨hb'.trans hb, hi, ⟨by simp [hacc', hacc, hb],
      by simp [hng', hi, ecHoldsNg]⟩, hf'⟩
    exact ((dceEntropy_keeps st u).dceAlone hu).enginesSound

theorem tick_outInv {s t : State} (hs : OutInv s) (h : tick s = .next t) : OutInv t := by
  rcases tick_rows h with ⟨_, hp, _⟩ | ⟨_, u, hp, _, _, h⟩ | ⟨_, _, rfl⟩ | ⟨_, _, hr⟩ |
    ⟨_, _, st, u, hr, rfl⟩
  · obtain ⟨_, _, _, _, _, ho, _⟩ := hp
    simpa [OutInv, ho] using hs
  · obtain ⟨_, _, _, _, _, ho, _⟩ := hp
    obtain ⟨_, _, _, _, hout, _⟩ := aesReturned_keeps h
    exact hout (by simpa [OutInv, ho] using hs)
  · rcases dceRow_cases s with ⟨_, _, _, _, hout, _⟩ | ⟨_, h⟩ | ⟨_, g, vw, h⟩
    · exact hout hs
    · rw [h]; exact hs
    · rw [h]; simpa [OutInv] using hs
  · obtain ⟨_, _, _, _, _, _, ho⟩ := ecRow_frame hr
    simpa [OutInv, ho] using hs
  · obtain ⟨_, _, _, _, _, _, ho⟩ := ecRow_frame hr
    obtain ⟨_, _, _, _, hout, _⟩ := dceEntropy_keeps st u
    exact hout (by simpa [OutInv, ho] using hs)

/-! # The cursor of the output loop (R17, R138, R142) -/

/-- Outside the output loop the invariant is a bound on SIZE: it stays where SIZE stays and the context, in a
phase past the checks, belongs to GET_RANDOM only if it did. -/
theorem CursorInv.of_size {s t : State} (h : CursorInv s) (hp : s.dce.phase ≠ .check)
    (hsize : t.dce.size = s.dce.size) (hctx : .cGen ∈ t.dce.ctx → .cGen ∈ s.dce.ctx)
    (hout : ∀ j, t.dce.phase ≠ .out j) : CursorInv t := by
  obtain ⟨hb, _⟩ := h
  exact ⟨fun hg _ => by rw [hsize]; exact hb (hctx hg) hp, fun j hj => absurd hj (hout j)⟩

/-- The invariant reads DCE's sequencer, its size and its cursor alone. -/
theorem CursorInv.congr {s t : State} (h : CursorInv s) (b v : Block)
    (hd : t.dce = { s.dce with blk := b, vw := v }) : CursorInv t := by
  unfold CursorInv at *
  rw [hd]
  exact h

/-- An operation that has ended has no request. -/
theorem cursorInv_of_ended {s : State} (hc : s.dce.ctx = []) (hp : s.dce.phase = .idle) :
    CursorInv s := by
  simp [CursorInv, hc, hp]

theorem raise_cursor (st : Status) (s : State) : CursorInv (raise st s) := by
  obtain ⟨_, hp, hc, _⟩ := raise_frame st s
  exact cursorInv_of_ended hc hp

/-- R142: at the start of the output loop CUR is 0 and REM is SIZE, which 17 bits hold. -/
theorem startOutput_cursor {s : State} (hg : .cGen ∈ s.dce.ctx)
    (hsize : s.dce.size.toNat ≤ Config.maxRequestBytes) : CursorInv (startOutput s) := by
  refine ⟨fun _ _ => hsize, fun j _ => ⟨hg, ?_⟩⟩
  unfold Config.maxRequestBytes at hsize
  simp only [startOutput_dce, BitVec.toNat_setWidth]
  rw [Nat.mod_eq_of_lt (by omega)]
  simp

/-- R138: a request that passes the checks is of at most 65536 bytes. -/
theorem size_le_of_valid {dstv : Bool} {size : BitVec 32}
    (h : ¬ invalidRequest dstv size = true) : size.toNat ≤ Config.maxRequestBytes := by
  simp only [invalidRequest, Bool.or_eq_true, decide_eq_true_eq, not_or] at h
  exact Nat.le_of_not_lt h.2

theorem dceCheck_cursor (s : State) : CursorInv (dceCheck s) := by
  unfold dceCheck
  split
  · exact raise_cursor _ _
  · next hv =>
    have hsize := size_le_of_valid hv
    split
    · exact cursorInv_of_ended (by simp) (by simp)
    · split <;> exact ⟨fun _ _ => hsize, by simp⟩

/-- R135, R136, R140: RESEED returns to a caller whose request was bounded before. -/
theorem reseedReturn_cursor {callers : List Ctx} {s : State}
    (h : .cGen ∈ callers → s.dce.size.toNat ≤ Config.maxRequestBytes) :
    CursorInv (reseedReturn callers s) := by
  unfold reseedReturn
  simp only
  split
  · next rest =>
    have hrest : .cGen ∈ rest → s.dce.size.toNat ≤ Config.maxRequestBytes :=
      fun hg => h (List.mem_cons_of_mem _ hg)
    split
    · simp [CursorInv]
    · exact ⟨fun hg _ => hrest (by simpa using hg), by simp⟩
  · exact startOutput_cursor (by simp) (by simpa using h)
  · exact cursorInv_of_ended (by simp) (by simp)

theorem dceCommit_cursor {s : State} (hd : s.dce.phase = .commit) (hs : CursorInv s) :
    CursorInv (dceCommit s) := by
  have ⟨hb, _⟩ := hs
  unfold dceCommit
  simp only
  split
  · next callers hc =>
    refine reseedReturn_cursor fun hg => ?_
    simpa using hb (by rw [hc]; exact List.mem_cons_of_mem _ hg) (by simp [hd])
  · exact hs.of_size (by simp [hd]) (by simp) (by simp) (by simp)
  · exact cursorInv_of_ended (by simp) (by simp)

theorem dceReseedTest_cursor {s : State} (hd : s.dce.phase = .reseedTest) (hctx : CtxSound s)
    (hs : CursorInv s) : CursorInv (dceReseedTest s) := by
  have hctx' : s.dce.ctx = [.cGen] ∧ s.gen.initialized = true := by
    simpa [CtxSound, hd] using hctx
  obtain ⟨hc, _⟩ := hctx'
  unfold dceReseedTest
  split
  · exact hs.of_size (by simp [hd]) (by simp) (by simp) (by simp)
  · obtain ⟨hb, _⟩ := hs
    exact startOutput_cursor (by simp [hc]) (hb (by simp [hc]) (by simp [hd]))

theorem dceRow_cursor {s : State} (hctx : CtxSound s) (hs : CursorInv s) : CursorInv (dceRow s) := by
  unfold dceRow
  cases hd : s.dce.phase with
  | idle => exact hs
  | check => exact dceCheck_cursor s
  | zero => exact hs.of_size (by simp [hd]) (by simp) (by simp) (by simp)
  | seed => exact hs.of_size (by simp [hd]) (by simp) (by simp) (by simp [hd])
  | upd k => exact hs.congr s.dce.blk _ (aesStart_dce _ _)
  | commit => exact dceCommit_cursor hd hs
  | reseedTest => exact dceReseedTest_cursor hd hctx hs
  | out j =>
    simp only [dceOut]
    split
    · exact hs.of_size (by simp [hd]) (by simp) (by simp) (by simp)
    · exact hs.congr s.dce.blk s.dce.vw (aesStart_dce _ _)
  | final => exact hs.of_size (by simp [hd]) (by simp) (by simp) (by simp)
  | resp => exact cursorInv_of_ended (by simp) (by simp)

/-- R142: a chunk moves from REM to CUR. -/
theorem cursor_advance {cur rem : BitVec 17} {size : BitVec 32}
    (hsize : size.toNat ≤ Config.maxRequestBytes) (h : cur.toNat + rem.toNat = size.toNat) :
    (cur + BitVec.ofNat 17 (chunk rem)).toNat + (rem - BitVec.ofNat 17 (chunk rem)).toNat =
      size.toNat := by
  have hle : chunk rem ≤ rem.toNat := Nat.min_le_left _ _
  unfold Config.maxRequestBytes at hsize
  rw [BitVec.toNat_add, BitVec.toNat_sub, BitVec.toNat_ofNat]
  omega

theorem dceBlock_cursor {s t : State} (hs : CursorInv s) (h : dceBlock s = .next t) :
    CursorInv t := by
  rcases dceBlock_cases h with ⟨k, hd, rfl⟩ | ⟨j, hd, h⟩ | rfl
  · refine hs.of_size (by simp [hd]) (by simp) (by simp) fun j => ?_
    rcases afterUpd_cases k with ⟨k', hk⟩ | hk <;> simp [hk]
  · obtain ⟨_, rfl⟩ := takeOutBlock_next h
    obtain ⟨hb, hout⟩ := hs
    obtain ⟨hg, hsum⟩ := hout j hd
    have hsize := hb hg (by simp [hd])
    exact ⟨fun _ _ => hsize, fun _ _ => ⟨hg, cursor_advance hsize hsum⟩⟩
  · exact hs

theorem dceBlockFailed_cursor {s : State} (hs : CursorInv s) : CursorInv (dceBlockFailed s) := by
  rcases dceBlockFailed_cases s with h | h <;> rw [h]
  · exact raise_cursor _ _
  · exact hs

theorem dceEntropy_cursor (st : Status) {s : State} (hs : CursorInv s) :
    CursorInv (dceEntropy st s) := by
  rcases dceEntropy_cases st s with ⟨hd, h | h⟩ | h <;> rw [h]
  · exact hs.of_size (by simp [hd]) (by simp) (by simp) (by simp)
  · exact raise_cursor _ _
  · exact hs

theorem tick_cursor {s t : State} (hctx : CtxSound s) (hs : CursorInv s) (h : tick s = .next t) :
    CursorInv t := by
  have polled : ∀ {u}, AesPolled s u → CursorInv u := by
    rintro u ⟨_, ⟨b, hd⟩, _⟩
    exact hs.congr b s.dce.vw hd
  have ecRun : ∀ {r u}, ecRow s = .next (r, u) → CursorInv u := by
    intro r u hr
    obtain ⟨_, hd, _⟩ := ecRow_frame hr
    exact hs.congr s.dce.blk s.dce.vw hd
  rcases tick_rows h with ⟨_, hp, _⟩ | ⟨_, u, hp, _, _, h | rfl⟩ | ⟨_, _, rfl⟩ | ⟨_, _, hr⟩ |
    ⟨_, _, st, u, hr, rfl⟩
  · exact polled hp
  · exact dceBlock_cursor (polled hp) h
  · exact dceBlockFailed_cursor (polled hp)
  · exact dceRow_cursor hctx hs
  · exact ecRun hr
  · exact dceEntropy_cursor st (ecRun hr)

/-! # All invariants of a machine the host drives (R15, R16, R22, R142, R188) -/

theorem SoundState.enginesSound {s : State} (h : SoundState s) : EnginesSound s := by
  obtain ⟨_, _, hmod, hfifo, _, hcall, _⟩ := h
  exact ⟨hmod, hfifo, hcall⟩

theorem tick_sound {s t : State} (hs : SoundState s) (h : tick s = .next t) : SoundState t := by
  obtain ⟨hmod, hfifo, hcall⟩ := tick_enginesSound hs.enginesSound h
  obtain ⟨hhost, hctr, _, _, hcur, _, hout⟩ := hs
  obtain ⟨hq, _⟩ := tick_host h
  have ⟨_, hctx⟩ := hctr
  exact ⟨by unfold HostOnly; rw [hq]; exact hhost, tick_counter hctr h, hmod, hfifo,
    tick_cursor hctx hcur h, hcall, tick_outInv hout h⟩

/-- R7, R188: in an idle machine only DCE could move, and both modules are off. -/
theorem SoundState.dceAlone {s : State} (h : SoundState s) (hidle : idle s = true) : DceAlone s := by
  obtain ⟨_, he, hb⟩ := idle_phases hidle
  exact h.enginesSound.dceAlone hb he

/-- R28: CMD, STATUS and a shorter queue break no invariant. -/
theorem SoundState.withHost {s : State} (h : SoundState s) {p : HostPort}
    (hq : ∀ x ∈ p.issue, x ∈ s.host.issue) : SoundState { s with host := p } := by
  obtain ⟨hhost, hrest⟩ := h
  exact ⟨fun x hx => hhost x (hq x hx), hrest⟩

/-- R7: a command is started by DCE alone, so an idle machine stays sound where DCE's own invariants hold of
the start. -/
theorem SoundState.of_start {s u : State} (h : SoundState s) (hidle : idle s = true)
    (hk : DceKeeps s u) (hq : u.host = s.host) (hctr : CounterInv u) (hcur : CursorInv u) :
    SoundState u := by
  obtain ⟨hmod, hfifo, hcall⟩ := (hk.dceAlone (h.dceAlone hidle)).enginesSound
  obtain ⟨_, _, _, _, hout, _⟩ := hk
  obtain ⟨hhost, _, _, _, _, _, ho⟩ := h
  exact ⟨by unfold HostOnly; rw [hq]; exact hhost, hctr, hmod, hfifo, hcur, hcall, hout ho⟩

theorem startInit_sound {s : State} (h : SoundState s) (hidle : idle s = true) :
    SoundState (startInit s) := by
  have ⟨_, hctr, _⟩ := h
  exact h.of_start hidle (by simp [DceKeeps, OutInv]) rfl (Started.counter hctr hidle .init)
    (by simp [CursorInv])

theorem startGetRandom_sound {s : State} (dstv : Bool) (size : BitVec 32) (h : SoundState s)
    (hidle : idle s = true) : SoundState (startGetRandom dstv size s) := by
  have ⟨_, hctr, _⟩ := h
  exact h.of_start hidle (by simp [DceKeeps, OutInv]) rfl
    (Started.counter hctr hidle (.getRandom dstv size)) (by simp [CursorInv])

/-- R28, R61, R66: whatever word the host writes to an idle sound machine, it stays sound. -/
theorem hostWrite_sound {w : CmdWord} {s t : State} (hs : SoundState s) (hidle : idle s = true)
    (h : hostWrite w s = .next t) : SoundState t := by
  have hw : SoundState { s with host := { s.host with cmd := w } } := hs.withHost fun _ hx => hx
  rcases hostWrite_cases h with ⟨u, hu, hrun⟩ | rfl
  · have hsu : SoundState u := by
      rcases hu with rfl | ⟨dstv, size, rfl⟩
      · exact startInit_sound hw hidle
      · exact startGetRandom_sound dstv size hw hidle
    exact drive_keeps (fun _ _ => tick_sound) hsu hrun
  · exact hw.withHost fun _ hx => hx

theorem step_sound {s t : State} (hs : SoundState s) (h : step s = .next t) : SoundState t := by
  rcases step_cases h with ⟨_, _, rfl⟩ | ⟨hidle, x, rest, hq, h⟩ | ⟨_, h⟩
  · exact hs
  · have ⟨hhost, _⟩ := hs
    obtain ⟨w, rfl⟩ := hhost x (by simp [hq])
    have hrest : SoundState { s with host := { s.host with issue := rest } } :=
      hs.withHost fun x hx => by rw [hq]; exact List.mem_cons_of_mem _ hx
    exact hostWrite_sound hrest hidle h
  · exact advance_keeps (fun _ _ => tick_sound) hs h

/-- Settles O53: every start and every row keep all invariants, and they have both modules off in an idle
machine. -/
theorem soundStateKept : Obligations.SoundStateKept := fun _ _ hs h =>
  ⟨step_sound hs h, fun hidle => ((step_sound hs h).dceAlone hidle).modulesOff⟩

/-! # Reset (R32, R15, R188) -/

/-- Settles O10: each value stands in `State.reset`. -/
theorem resetLeaves : Obligations.ResetLeaves :=
  ⟨rfl, rfl, rfl, rfl, rfl, rfl, rfl, rfl, fun _ => rfl, rfl⟩

/-- R32: after reset no engine runs, both modules are off and the FIFO is empty. -/
theorem reset_dceAlone : DceAlone State.reset := ⟨rfl, rfl, ⟨rfl, rfl⟩, Nat.zero_le _⟩

/-- R15: the generator is not initialized after reset, so its counter may be any; nothing waits or is called. -/
theorem reset_sound : SoundState State.reset := by
  obtain ⟨hmod, hfifo, hcall⟩ := reset_dceAlone.enginesSound
  have hhost : HostOnly State.reset := fun _ hx => absurd hx List.not_mem_nil
  have hctr : CounterInv State.reset := ⟨fun hi => by simp [State.reset] at hi, rfl⟩
  exact ⟨hhost, hctr, hmod, hfifo, cursorInv_of_ended rfl rfl, hcall, rfl⟩

/-- Settles O11: with an empty trace every count is 0, and both modules are off. -/
theorem resetIsSound : Obligations.ResetIsSound :=
  ⟨reset_sound, fun _ _ => rfl, rfl, rfl, reset_dceAlone.modulesOff⟩

end Sys2Proof.Machine

namespace Sys2Proof.Machine

/-! # OUT keeps its form (R41, R42) -/

/-- Settles O51: a row keeps the form because OutWrite does; starts and port operations do not touch OUT. -/
theorem outFormKept : Obligations.OutFormKept := by
  intro s t hs h
  refine step_keeps_of_rows (P := OutInv) (fun _ _ => tick_outInv) ?_ ?_
    (fun _ _ _ hu => hu) (fun _ hu => hu) hs h
  · intro i u v hu hi hv
    obtain ⟨_, _, _, _, _, hout, _⟩ := portOperationsFrame i u v hi hv
    simpa [OutInv, hout] using hu
  · intro u v hu _ hv
    cases hv <;> simpa [OutInv] using hu

/-! # A machine the host drives never stops (R42, R44, R66, R170, R181) -/

/-- R42, R142: inside the output loop a chunk ends within OUT, for CUR + REM is SIZE. -/
theorem CursorInv.chunk_inside {s : State} {j : Nat} (hs : CursorInv s) (hd : s.dce.phase = .out j) :
    s.dce.cur.toNat + chunk s.dce.rem ≤ outSize := by
  obtain ⟨hbound, hloop⟩ := hs
  obtain ⟨hg, hsum⟩ := hloop j hd
  have hsize := hbound hg (by simp [hd])
  have hle : chunk s.dce.rem ≤ s.dce.rem.toNat := Nat.min_le_left _ _
  unfold Config.maxRequestBytes at hsize
  unfold outSize
  omega

theorem dceBlock_progress {s : State} (hs : CursorInv s) : ∃ t, dceBlock s = .next t := by
  unfold dceBlock
  split
  · exact ⟨_, rfl⟩
  · next j hd => exact ⟨_, takeOutBlock_inside j (hs.chunk_inside hd)⟩
  · exact ⟨_, rfl⟩

/-- R115: a poll iteration writes no more of DCE than BLK. -/
theorem aesPoll_dce (s : State) : ∃ b, (aesPoll s).2.dce = { s.dce with blk := b } := by
  obtain ⟨_, hdce, _⟩ := accStatusRead_frame s
  rcases aesPoll_cases s with ⟨_, h⟩ | ⟨_, h⟩ | ⟨_, b, h⟩ <;> rw [h]
  · exact ⟨s.dce.blk, hdce⟩
  · exact ⟨_, by simp [hdce]; rfl⟩
  · exact ⟨b, by simp [hdce]⟩

theorem tickAes_progress {s : State} (hs : CursorInv s) : ∃ t, tickAes s = .next t := by
  obtain ⟨b, hd⟩ := aesPoll_dce s
  unfold tickAes
  simp only
  split
  · exact ⟨_, rfl⟩
  · exact dceBlock_progress (hs.congr b s.dce.vw hd)
  · exact ⟨_, rfl⟩

/-- R44, R89: the key load finds its four words. -/
theorem ecKeyload_progress {s : State} (h : 4 ≤ s.ng.fifo.length) : ∃ t, ecKeyload s = .next t := by
  match hf : s.ng.fifo, h with
  | _ :: _ :: _ :: _ :: _, _ => exact ⟨_, ecKeyload_four hf⟩

/-- R44, R89, R90: with the words in the FIFO that its phase needs, EC always has a next row. -/
theorem ecRow_progress {s : State} (hs : FifoInv s) : ∃ a, ecRow s = .next a := by
  obtain ⟨_, hkey, hdrain⟩ := hs
  unfold ecRow
  cases hp : s.ec.phase with
  | keyload =>
    obtain ⟨t, ht⟩ := ecKeyload_progress (hkey hp)
    exact ⟨_, by simp only [ht]; rfl⟩
  | drain => exact ⟨_, by simp only [ecDrain_enough (hdrain hp)]; rfl⟩
  | _ => exact ⟨_, rfl⟩

theorem tickEc_progress {s : State} (hs : FifoInv s) : ∃ t, tickEc s = .next t := by
  obtain ⟨⟨r, u⟩, hr⟩ := ecRow_progress hs
  unfold tickEc
  rw [hr, andThen_next]
  cases r <;> exact ⟨_, rfl⟩

theorem tick_progress {s : State} (hs : SoundState s) : ∃ t, tick s = .next t := by
  obtain ⟨_, _, _, hfifo, hcur, _⟩ := hs
  unfold tick
  split
  · exact tickAes_progress hcur
  · split
    · exact ⟨_, rfl⟩
    · exact tickEc_progress hfifo

/-- Where every row keeps P and has an outcome, a run has one. -/
theorem drive_progress {P : State → Prop} (hkeep : ∀ s t, P s → tick s = .next t → P t)
    (hnext : ∀ s, P s → ∃ t, tick s = .next t) (n : Nat) {s : State} (hs : P s) :
    ∃ t, drive n s = .next t := by
  induction n generalizing s with
  | zero => exact ⟨s, rfl⟩
  | succ n ih =>
    unfold drive
    split
    · obtain ⟨u, hu⟩ := hnext s hs
      rw [hu, andThen_next]
      exact ih (hkeep s u hs hu)
    · exact ⟨s, rfl⟩

theorem run_progress {s : State} (hs : SoundState s) : ∃ t, run s = .next t :=
  drive_progress (fun _ _ => tick_sound) (fun _ => tick_progress) _ hs

theorem advance_progress {s : State} (hs : SoundState s) : ∃ t, advance s = .next t := by
  obtain ⟨u, hu⟩ := tick_progress hs
  unfold advance
  rw [hu, andThen_next]
  exact run_progress (tick_sound hs hu)

theorem whenIdle_progress {s : State} {start : State → State} (hidle : idle s = true)
    (hs : SoundState (start s)) : ∃ t, whenIdle s start = .next t := by
  rw [whenIdle, if_pos hidle]
  exact run_progress hs

/-- R66: every word has an outcome: INIT and GET_RANDOM run, every other word is rejected. -/
theorem hostWrite_progress (w : CmdWord) {s : State} (hs : SoundState s) (hidle : idle s = true) :
    ∃ t, hostWrite w s = .next t := by
  have hw : SoundState { s with host := { s.host with cmd := w } } := hs.withHost fun _ hx => hx
  simp only [hostWrite, decodeHost]
  cases hd : decodeCw w with
  | error e => exact ⟨_, rfl⟩
  | ok i =>
    cases i with
    | init => exact whenIdle_progress hidle (startInit_sound hw hidle)
    | getRandom dstv size => exact whenIdle_progress hidle (startGetRandom_sound dstv size hw hidle)
    | _ => exact ⟨_, rfl⟩

theorem issueNext_progress {s : State} (hs : SoundState s) (hidle : idle s = true) :
    ∃ t, issueNext s = .next t := by
  have ⟨hhost, _⟩ := hs
  unfold issueNext
  split
  · exact ⟨s, rfl⟩
  · next x rest hq =>
    obtain ⟨w, rfl⟩ := hhost x (by simp [hq])
    exact hostWrite_progress w (hs.withHost fun y hy => by rw [hq]; exact List.mem_cons_of_mem _ hy) hidle

/-- Settles O54: an idle machine answers every word, and every row of a busy one has an outcome. -/
theorem hostDrivenMachineNeverStops : Obligations.HostDrivenMachineNeverStops := by
  intro s hs
  unfold step
  split
  · next hidle => exact issueNext_progress hs hidle
  · exact advance_progress hs

end Sys2Proof.Machine

namespace Sys2Proof.Machine

/-! # What the drain takes and where it puts it (R48, R90) -/

@[simp] theorem leBytes_length (w : Word) : (leBytes w).length = 4 := rfl

/-- R48: byte j of a word, least significant byte first. -/
theorem leBytes_getElem? (w : Word) {j : Nat} (hj : j < 4) :
    (leBytes w)[j]? = some (w.extractLsb' (8 * j) 8) := by
  match j, hj with
  | 0, _ | 1, _ | 2, _ | 3, _ => rfl

theorem length_flatMap_leBytes (ws : List Word) : (ws.flatMap leBytes).length = 4 * ws.length := by
  simp [List.length_flatMap, Nat.mul_comm]

/-- R48: byte 4k + j of the words in order is byte j of word k. -/
theorem flatMap_leBytes_getElem? (ws : List Word) (k : Nat) {j : Nat} (hj : j < 4) :
    (ws.flatMap leBytes)[4 * k + j]? = ws[k]?.map fun w => w.extractLsb' (8 * j) 8 := by
  induction ws generalizing k with
  | nil => rfl
  | cons w ws ih =>
    rw [List.flatMap_cons]
    cases k with
    | zero =>
      rw [List.getElem?_append_left (by simp; omega), Nat.mul_zero, Nat.zero_add,
        leBytes_getElem? w hj]
      rfl
    | succ k =>
      rw [List.getElem?_append_right (by simp; omega), leBytes_length,
        show 4 * (k + 1) + j - 4 = 4 * k + j by omega, ih]
      rfl

theorem drainBytes_length (esize : Nat) (ws : List Word) :
    (drainBytes esize ws).length = min (4 * ws.length) esize := by
  rw [drainBytes, List.length_take, length_flatMap_leBytes, Nat.min_comm]

/-- R48, R90: below ESIZE, byte 4k + j of EBUF is byte j of the k-th word drained. -/
theorem drainBytes_getElem? {esize k j : Nat} (ws : List Word) (hj : j < 4)
    (hlt : 4 * k + j < esize) :
    (drainBytes esize ws)[4 * k + j]? = ws[k]?.map fun w => w.extractLsb' (8 * j) 8 := by
  rw [drainBytes, List.getElem?_take_of_lt hlt, flatMap_leBytes_getElem? ws k hj]

/-- R102: the row of E_DRAIN, where the words are in the FIFO. -/
theorem tick_drain {s : State} (hp : s.ec.phase = .drain) (hb : s.bce = .idle)
    (h : drainCount s.ec.need s.ec.esize ≤ s.ng.fifo.length) :
    ∃ t, tick s = .next t ∧ t.ng.fifo = s.ng.fifo.drop (drainCount s.ec.need s.ec.esize) ∧
      t.ec.ebuf = drainBytes s.ec.esize.toNat
        (s.ng.fifo.take (drainCount s.ec.need s.ec.esize)) := by
  have hdrain : ∃ t, ecDrain s = .next t ∧ t.ng.fifo = _ ∧ t.ec.ebuf = _ :=
    ⟨_, ecDrain_enough h, rfl, rfl⟩
  obtain ⟨t, ht, hwords⟩ := hdrain
  exact ⟨t, tick_ec hb (by simp [hp]) (by simp [ecRow, hp, ht]), hwords⟩

/-- Settles O27: EBUF holds the bytes of the words that have left the FIFO, and a key word goes to CK as it
is. -/
theorem drainPlacesBytes : Obligations.DrainPlacesBytes := by
  refine ⟨fun s hp hb hn => ?_, fun s i w rest hf => ⟨_, loadKeyWord_cons i hf, by simp, rfl⟩⟩
  obtain ⟨t, ht, hfifo, hebuf⟩ := tick_drain hp hb hn
  refine ⟨t, ht, hfifo, ?_, fun k j hk hj hlt => ?_⟩
  · rw [hebuf, drainBytes_length, List.length_take, Nat.min_eq_left hn]
  · have hk' : k < s.ng.fifo.length := by omega
    refine ⟨s.ng.fifo[k], List.getElem?_eq_getElem hk', ?_⟩
    rw [hebuf, drainBytes_getElem? _ hj hlt, List.getElem?_take_of_lt hk,
      List.getElem?_eq_getElem hk']
    rfl

/-! # The frame of GET_ENTROPY (R45, R82, R180) -/

/-- R82, R102: with DCE and the Block Cipher Engine idle, every row is one of EC and stays in its frame. -/
theorem tick_ecFrame {s t : State} (hb : s.bce = .idle) (hd : s.dce.phase = .idle)
    (h : tick s = .next t) : EcFrame s t := by
  rcases tick_rows h with ⟨hp, _⟩ | ⟨hp, _⟩ | ⟨_, _, rfl⟩ | ⟨_, _, hr⟩ | ⟨_, _, st, u, hr, rfl⟩
  · simp [hb] at hp
  · simp [hb] at hp
  · simp [dceRow, hd, EcFrame]
  · exact ecRow_frame hr
  · have hu : EcFrame s u := ecRow_frame hr
    have ⟨_, hdu, _⟩ := hu
    rcases dceEntropy_cases st u with ⟨hseed, _⟩ | h
    · simp [hdu, hd] at hseed
    · rw [h]; exact hu

/-- Settles O28: the start and every row of a GET_ENTROPY that nothing has called stay in the frame of EC. -/
theorem getEntropyFrame : Obligations.GetEntropyFrame := by
  intro s t n h
  obtain ⟨hidle, hrun⟩ := whenIdle_next h
  obtain ⟨hd, _, hb⟩ := idle_phases hidle
  refine drive_keeps (P := EcFrame s) (fun u v hu hv => ?_) (s := ecStart n s) (by simp [EcFrame]) hrun
  have ⟨_, hdu, hbu, _⟩ := hu
  exact hu.trans (tick_ecFrame (hbu.trans hb) (by rw [hdu]; exact hd) hv)

end Sys2Proof.Machine

namespace Sys2Proof.Machine

/-! # What GET_RANDOM leaves alone (R28, R41, R142) -/

/-! ## STATUS until the end -/

/-- R7: the row of an idle machine changes nothing. -/
theorem tick_of_idle {s t : State} (hidle : idle s = true) (h : tick s = .next t) : t = s := by
  obtain ⟨hd, he, hb⟩ := idle_phases hidle
  rw [tick_dce hb he] at h
  cases h
  simp [dceRow, hd]

/-- R28: through any number of rows STATUS stays, until the operation has ended. -/
theorem StatusKept.tick {s u v : State} (hu : StatusKept s u) (h : tick u = .next v) :
    StatusKept s v := by
  obtain ⟨hone, hidle | hst⟩ := hu
  · rw [tick_of_idle hidle h]
    exact ⟨hone, .inl hidle⟩
  · obtain ⟨hone', hv⟩ := tick_status hone h
    exact ⟨hone', hv.imp_right fun hv => hv.trans hst⟩

/-! ## OUT from SIZE on -/

/-! No row of DCE's own and no return to it but that of an output block writes OUT. -/

@[simp] theorem raise_out (st : Status) (s : State) : (raise st s).out = s.out := by
  obtain ⟨_, _, _, _, _, _, _, hout, _⟩ := raise_frame st s
  exact hout

theorem reseedReturn_out (callers : List Ctx) (s : State) :
    (reseedReturn callers s).out = s.out := by
  unfold reseedReturn
  simp only
  split
  · split <;> simp
  · simp
  · simp

theorem dceCommit_out (s : State) : (dceCommit s).out = s.out := by
  unfold dceCommit
  simp only
  split
  · simp [reseedReturn_out]
  · simp
  · simp

theorem dceCheck_out (s : State) : (dceCheck s).out = s.out := by
  unfold dceCheck
  split
  · simp
  · split
    · simp
    · split <;> simp

theorem dceReseedTest_out (s : State) : (dceReseedTest s).out = s.out := by
  unfold dceReseedTest
  split <;> simp

theorem dceOut_out (s : State) : (dceOut s).out = s.out := by
  unfold dceOut
  split <;> simp

theorem dceRow_out (s : State) : (dceRow s).out = s.out := by
  unfold dceRow
  split
  · rfl
  · exact dceCheck_out s
  · simp
  · simp
  · simp [dceUpd]
  · exact dceCommit_out s
  · exact dceReseedTest_out s
  · exact dceOut_out s
  · simp
  · simp

theorem dceEntropy_out (st : Status) (s : State) : (dceEntropy st s).out = s.out := by
  rcases dceEntropy_cases st s with ⟨_, h | h⟩ | h <;> simp [h]

theorem dceBlockFailed_out (s : State) : (dceBlockFailed s).out = s.out := by
  rcases dceBlockFailed_cases s with h | h <;> simp [h]

/-- R16, R17: whatever DCE runs, it runs for a GET_RANDOM of `size` bytes, whose cursor is sound. -/
def RunsFor (size : BitVec 32) (s : State) : Prop :=
  (s.dce.phase ≠ .idle → .cGen ∈ s.dce.ctx ∧ s.dce.size = size) ∧ CursorInv s

/-- The invariant reads no more of a state than this. -/
theorem RunsFor.congr {size : BitVec 32} {s t : State} (h : RunsFor size s) (b v : Block)
    (hd : t.dce = { s.dce with blk := b, vw := v }) : RunsFor size t := by
  obtain ⟨hreq, hcur⟩ := h
  exact ⟨by rw [hd]; exact hreq, hcur.congr b v hd⟩

/-- R138: past its checks the request is of at most 65536 bytes. -/
theorem RunsFor.size_le {size : BitVec 32} {s : State} (h : RunsFor size s)
    (hp : s.dce.phase ≠ .idle) (hc : s.dce.phase ≠ .check) :
    s.dce.size.toNat ≤ Config.maxRequestBytes := by
  obtain ⟨hreq, hmax, _⟩ := h
  obtain ⟨hg, _⟩ := hreq hp
  exact hmax hg hc

theorem runsFor_of_ended {size : BitVec 32} {s : State} (hc : s.dce.ctx = [])
    (hp : s.dce.phase = .idle) : RunsFor size s :=
  ⟨fun h => absurd hp h, cursorInv_of_ended hc hp⟩

theorem raise_runsFor (size : BitVec 32) (st : Status) (s : State) : RunsFor size (raise st s) := by
  obtain ⟨_, hp, hc, _⟩ := raise_frame st s
  exact runsFor_of_ended hc hp

/-- In a phase past the checks and outside the output loop the request stays where its context and SIZE do. -/
theorem RunsFor.of_size {size : BitVec 32} {s t : State} (h : RunsFor size s)
    (hp : s.dce.phase ≠ .idle) (hc : s.dce.phase ≠ .check) (hsize : t.dce.size = s.dce.size)
    (hctx : s.dce.ctx ⊆ t.dce.ctx) (hout : ∀ j, t.dce.phase ≠ .out j) : RunsFor size t := by
  obtain ⟨hreq, hcur⟩ := h
  obtain ⟨hg, hs⟩ := hreq hp
  exact ⟨fun _ => ⟨hctx hg, hsize.trans hs⟩, hcur.of_size hc hsize (fun _ => hg) hout⟩

theorem dceCheck_runsFor {size : BitVec 32} {s : State} (hd : s.dce.phase = .check)
    (h : RunsFor size s) : RunsFor size (dceCheck s) := by
  obtain ⟨hreq, _⟩ := h
  obtain ⟨hg, hs⟩ := hreq (by simp [hd])
  refine ⟨?_, dceCheck_cursor s⟩
  unfold dceCheck
  split
  · obtain ⟨_, hp, _⟩ := raise_frame .invalid s
    exact fun h => absurd hp h
  · split
    · simp
    · split <;> simp [hg, hs]

/-- R135, R140: RESEED returns to an INIT of the request, or to the request itself. -/
theorem reseedReturn_runsFor {size : BitVec 32} {callers : List Ctx} {s : State}
    (hg : .cGen ∈ callers) (hs : s.dce.size = size) (hmax : s.dce.size.toNat ≤ Config.maxRequestBytes) :
    RunsFor size (reseedReturn callers s) := by
  refine ⟨?_, reseedReturn_cursor fun _ => hmax⟩
  unfold reseedReturn
  simp only
  split
  · next rest =>
    have hrest : .cGen ∈ rest := by simpa using hg
    split
    · simp at hrest
    · simp [hs, List.mem_cons.1 hrest]
  · simp [hs]
  · simp

theorem dceCommit_runsFor {size : BitVec 32} {s : State} (hd : s.dce.phase = .commit)
    (h : RunsFor size s) : RunsFor size (dceCommit s) := by
  have ⟨hreq, _⟩ := h
  obtain ⟨hg, hs⟩ := hreq (by simp [hd])
  have hmax := h.size_le (by simp [hd]) (by simp [hd])
  unfold dceCommit
  simp only
  split
  · next callers hc => exact reseedReturn_runsFor (by simpa [hc] using hg) hs hmax
  · exact h.of_size (by simp [hd]) (by simp [hd]) (by simp) (by simp) (by simp)
  · exact runsFor_of_ended (by simp) (by simp)

theorem dceReseedTest_runsFor {size : BitVec 32} {s : State} (hd : s.dce.phase = .reseedTest)
    (h : RunsFor size s) : RunsFor size (dceReseedTest s) := by
  have ⟨hreq, _⟩ := h
  obtain ⟨hg, hs⟩ := hreq (by simp [hd])
  unfold dceReseedTest
  split
  · exact h.of_size (by simp [hd]) (by simp [hd]) (by simp) (by simp) (by simp)
  · exact ⟨fun _ => ⟨hg, hs⟩, startOutput_cursor hg (h.size_le (by simp [hd]) (by simp [hd]))⟩

/-- R147: every row of DCE goes on with the request it serves, or ends it. -/
theorem dceRow_runsFor {size : BitVec 32} {s : State} (h : RunsFor size s) :
    RunsFor size (dceRow s) := by
  unfold dceRow
  cases hd : s.dce.phase with
  | idle => exact h
  | check => exact dceCheck_runsFor hd h
  | zero => exact h.of_size (by simp [hd]) (by simp [hd]) (by simp) (by simp) (by simp)
  | seed => exact h.congr s.dce.blk s.dce.vw rfl
  | upd k => exact h.congr s.dce.blk _ (aesStart_dce _ _)
  | commit => exact dceCommit_runsFor hd h
  | reseedTest => exact dceReseedTest_runsFor hd h
  | out j =>
    simp only [dceOut]
    split
    · exact h.of_size (by simp [hd]) (by simp [hd]) (by simp) (by simp) (by simp)
    · exact h.congr s.dce.blk s.dce.vw (aesStart_dce _ _)
  | final => exact h.of_size (by simp [hd]) (by simp [hd]) (by simp) (by simp) (by simp)
  | resp => exact runsFor_of_ended (by simp) (by simp)

theorem dceBlock_runsFor {size : BitVec 32} {s t : State} (hs : RunsFor size s)
    (h : dceBlock s = .next t) : RunsFor size t := by
  obtain ⟨hreq, hcur⟩ := hs
  refine ⟨?_, dceBlock_cursor hcur h⟩
  rcases dceBlock_cases h with ⟨k, hd, rfl⟩ | ⟨j, hd, h⟩ | rfl
  · have := hreq (by simp [hd])
    simpa using fun _ => this
  · obtain ⟨_, rfl⟩ := takeOutBlock_next h
    exact fun _ => hreq (by simp [hd])
  · exact hreq

theorem dceBlockFailed_runsFor {size : BitVec 32} {s : State} (hs : RunsFor size s) :
    RunsFor size (dceBlockFailed s) := by
  rcases dceBlockFailed_cases s with h | h <;> rw [h]
  · exact raise_runsFor _ _ _
  · exact hs

theorem dceEntropy_runsFor {size : BitVec 32} (st : Status) {s : State} (hs : RunsFor size s) :
    RunsFor size (dceEntropy st s) := by
  rcases dceEntropy_cases st s with ⟨hd, h | h⟩ | h <;> rw [h]
  · exact hs.of_size (by simp [hd]) (by simp [hd]) (by simp) (by simp) (by simp)
  · exact raise_runsFor _ _ _
  · exact hs

/-- R41: the offsets of OUT from `n` on hold in `t` what they hold in `s`. -/
def OutKeptFrom (n : Nat) (s t : State) : Prop :=
  ∀ i, n ≤ i → Memory.read t.out i = Memory.read s.out i

theorem OutKeptFrom.trans {n : Nat} {a b c : State} (h : OutKeptFrom n a b)
    (h' : OutKeptFrom n b c) : OutKeptFrom n a c := fun i hi => (h' i hi).trans (h i hi)

/-- R142: the chunks of a request end below its SIZE. -/
theorem dceBlock_outKept {size : BitVec 32} {s t : State} (hs : RunsFor size s)
    (h : dceBlock s = .next t) : OutKeptFrom size.toNat s t := by
  rcases dceBlock_cases h with ⟨k, _, rfl⟩ | ⟨j, hd, h⟩ | rfl
  · simp [OutKeptFrom]
  · obtain ⟨_, rfl⟩ := takeOutBlock_next h
    obtain ⟨hreq, _, hloop⟩ := hs
    obtain ⟨_, hsize⟩ := hreq (by simp [hd])
    obtain ⟨_, hsum⟩ := hloop j hd
    rw [hsize] at hsum
    have hlen : ((bytesOf 16 s.dce.blk).take (chunk s.dce.rem)).length ≤ s.dce.rem.toNat := by
      simp [chunk]
    intro i hi
    exact (Memory.read_writeBytes _ _ _ _).trans (if_neg (by omega))
  · simp [OutKeptFrom]

theorem tick_runsFor {size : BitVec 32} {s t : State} (hs : RunsFor size s)
    (h : tick s = .next t) : RunsFor size t ∧ OutKeptFrom size.toNat s t := by
  have polled : ∀ {u}, AesPolled s u → RunsFor size u ∧ u.out = s.out := by
    rintro u ⟨_, ⟨b, hd⟩, _, _, _, ho, _⟩
    exact ⟨hs.congr b s.dce.vw hd, ho⟩
  have ecRun : ∀ {r u}, ecRow s = .next (r, u) → RunsFor size u ∧ u.out = s.out := by
    intro r u hr
    obtain ⟨_, hd, _, _, _, _, ho⟩ := ecRow_frame hr
    exact ⟨hs.congr s.dce.blk s.dce.vw hd, ho⟩
  rcases tick_rows h with ⟨_, hp, _⟩ | ⟨_, u, hp, _, _, h | rfl⟩ | ⟨_, _, rfl⟩ | ⟨_, _, hr⟩ |
    ⟨_, _, st, u, hr, rfl⟩
  · obtain ⟨hu, ho⟩ := polled hp
    exact ⟨hu, by simp [OutKeptFrom, ho]⟩
  · obtain ⟨hu, ho⟩ := polled hp
    exact ⟨dceBlock_runsFor hu h, by rw [OutKeptFrom, ← ho]; exact dceBlock_outKept hu h⟩
  · obtain ⟨hu, ho⟩ := polled hp
    exact ⟨dceBlockFailed_runsFor hu, by simp [OutKeptFrom, dceBlockFailed_out, ho]⟩
  · exact ⟨dceRow_runsFor hs, by simp [OutKeptFrom, dceRow_out]⟩
  · obtain ⟨hu, ho⟩ := ecRun hr
    exact ⟨hu, by simp [OutKeptFrom, ho]⟩
  · obtain ⟨hu, ho⟩ := ecRun hr
    exact ⟨dceEntropy_runsFor st hu, by simp [OutKeptFrom, dceEntropy_out, ho]⟩

/-- R41, R142: a run for a request leaves OUT from SIZE on as it is. -/
theorem drive_outKept {size : BitVec 32} {n : Nat} {s t : State} (hs : RunsFor size s)
    (h : drive n s = .next t) : OutKeptFrom size.toNat s t := by
  have hrun : RunsFor size t ∧ OutKeptFrom size.toNat s t := by
    refine drive_keeps (P := fun u => RunsFor size u ∧ OutKeptFrom size.toNat s u) ?_
      ⟨hs, fun _ _ => rfl⟩ h
    rintro u v ⟨hu, hkept⟩ huv
    obtain ⟨hv, hkept'⟩ := tick_runsFor hu huv
    exact ⟨hv, hkept.trans hkept'⟩
  obtain ⟨_, hkept⟩ := hrun
  exact hkept

theorem startGetRandom_runsFor (dstv : Bool) (size : BitVec 32) (s : State) :
    RunsFor size (startGetRandom dstv size s) := by
  simp [RunsFor, CursorInv]

/-! ## A request that does not seed -/

/-- R16, R141: the phases and contexts of a GET_RANDOM on a generator that need not reseed. -/
def PlainPhase (s : State) : Prop :=
  match s.dce.phase with
  | .idle => True
  | .check | .reseedTest => s.dce.ctx = [.cGen] ∧ reseedDue s.gen.reseedCtr = false
  | .zero | .seed => False
  | .upd _ | .commit | .out _ | .final | .resp => s.dce.ctx = [.cGen]

/-- R142: from `s` on EC has not run: the generator is initialized and a request runs that need not reseed. -/
def Unseeded (s t : State) : Prop :=
  t.ng = s.ng ∧ t.ec.keySet = s.ec.keySet ∧ t.gen.initialized = true ∧ t.ec.phase = .idle ∧
    PlainPhase t

@[simp] theorem raise_keySet (st : Status) (s : State) : (raise st s).ec.keySet = s.ec.keySet := by
  unfold raise
  simp only
  split <;> simp

theorem raise_unseeded (st : Status) {s t : State} (h : Unseeded s t) : Unseeded s (raise st t) := by
  obtain ⟨hng, hkey, hi, he, _⟩ := h
  obtain ⟨_, hp, _, _, he', hng', _⟩ := raise_frame st t
  exact ⟨hng'.trans hng, by simpa using hkey, by simpa using hi, he'.trans he, by simp [PlainPhase, hp]⟩

/-- R138 to R140: on an initialized generator D_CHECK goes to the reseed test or ends the request. -/
theorem dceCheck_unseeded {s t : State} (hd : t.dce.phase = .check) (h : Unseeded s t) :
    Unseeded s (dceCheck t) := by
  have ⟨hng, hkey, hi, he, hp⟩ := h
  unfold dceCheck
  split
  · exact raise_unseeded _ h
  · split
    · simp [Unseeded, PlainPhase, hng, hkey, hi, he]
    · simpa [Unseeded, PlainPhase, hng, hkey, hi, he, hd] using hp

/-- R147: below the threshold no row of DCE calls RESEED. -/
theorem dceRow_unseeded {s t : State} (h : Unseeded s t) : Unseeded s (dceRow t) := by
  have ⟨hng, hkey, hi, he, hp⟩ := h
  unfold dceRow
  cases hd : t.dce.phase with
  | idle => exact h
  | check => exact dceCheck_unseeded hd h
  | zero => simp [PlainPhase, hd] at hp
  | seed => simp [PlainPhase, hd] at hp
  | upd k => simpa [Unseeded, PlainPhase, dceUpd, hng, hkey, hi, he, hd] using hp
  | commit =>
    have hc : t.dce.ctx = [.cGen] := by simpa [PlainPhase, hd] using hp
    simp [dceCommit, hc, Unseeded, PlainPhase, hng, hkey, hi, he]
  | reseedTest =>
    have hc : t.dce.ctx = [.cGen] ∧ reseedDue t.gen.reseedCtr = false := by
      simpa [PlainPhase, hd] using hp
    simp [dceReseedTest, hc, Unseeded, PlainPhase, hng, hkey, hi, he]
  | out j =>
    simp only [dceOut]
    split <;> simpa [Unseeded, PlainPhase, hng, hkey, hi, he, hd] using hp
  | final => simpa [Unseeded, PlainPhase, hng, hkey, hi, he, hd] using hp
  | resp => simp [Unseeded, PlainPhase, hng, hkey, hi, he]

theorem dceBlock_unseeded {s t u : State} (h : Unseeded s t) (hu : dceBlock t = .next u) :
    Unseeded s u := by
  have ⟨hng, hkey, hi, he, hp⟩ := h
  rcases dceBlock_cases hu with ⟨k, hd, rfl⟩ | ⟨j, hd, hu⟩ | rfl
  · rcases afterUpd_cases k with ⟨k', hk⟩ | hk <;>
      simpa [Unseeded, PlainPhase, hng, hkey, hi, he, hd, hk] using hp
  · obtain ⟨_, rfl⟩ := takeOutBlock_next hu
    simpa [Unseeded, PlainPhase, hng, hkey, hi, he, hd] using hp
  · exact h

theorem dceBlockFailed_unseeded {s t : State} (h : Unseeded s t) : Unseeded s (dceBlockFailed t) := by
  rcases dceBlockFailed_cases t with h' | h' <;> rw [h']
  · exact raise_unseeded _ h
  · exact h

theorem tick_unseeded {s t u : State} (h : Unseeded s t) (hu : tick t = .next u) : Unseeded s u := by
  have ⟨_, _, _, he, _⟩ := h
  have polled : ∀ {v}, AesPolled t v → Unseeded s v := by
    rintro v ⟨hg, ⟨b, hd⟩, hec, hn, _⟩
    unfold Unseeded PlainPhase
    rw [hg, hd, hec, hn]
    exact h
  rcases tick_rows hu with ⟨_, hp, _⟩ | ⟨_, v, hp, _, _, hv | rfl⟩ | ⟨_, _, rfl⟩ | ⟨_, hne, _⟩ |
    ⟨_, hne, _⟩
  · exact polled hp
  · exact dceBlock_unseeded (polled hp) hv
  · exact dceBlockFailed_unseeded (polled hp)
  · exact dceRow_unseeded h
  · exact absurd he hne
  · exact absurd he hne

theorem startGetRandom_unseeded (dstv : Bool) (size : BitVec 32) {s : State}
    (he : s.ec.phase = .idle) (hi : s.gen.initialized = true)
    (hlt : s.gen.reseedCtr.toNat + 1 < 2 ^ 48) : Unseeded s (startGetRandom dstv size s) := by
  have hdue : reseedDue s.gen.reseedCtr = false := decide_eq_false (Nat.not_le.2 hlt)
  simp [Unseeded, PlainPhase, hi, he, hdue]

/-! ## The frame -/

/-- Settles O50: each part of the frame is kept by every row of the run. -/
theorem getRandomFrame : Obligations.GetRandomFrame := by
  intro s t dstv size hq h
  obtain ⟨_, hrun⟩ := whenIdle_next h
  obtain ⟨_, he, _⟩ := quiet_phase hq
  have hout : OutKeptFrom size.toNat (startGetRandom dstv size s) t :=
    drive_outKept (startGetRandom_runsFor dstv size s) hrun
  have hhost : HostKept s t := drive_keeps (fun u v hu hv => hu.trans (tick_host hv))
    (show HostKept s (startGetRandom dstv size s) by simp [HostKept]) hrun
  have hstatus : StatusKept s t := drive_keeps (fun u v => StatusKept.tick)
    (show StatusKept s (startGetRandom dstv size s) from ⟨fun _ => he, .inr rfl⟩) hrun
  obtain ⟨hissue, hcmd⟩ := hhost
  obtain ⟨_, hst⟩ := hstatus
  refine ⟨hout, hcmd, hissue, fun hbusy => hst.resolve_left (by simp [hbusy]), fun hi hlt => ?_⟩
  obtain ⟨hng, hkey, hinit, _⟩ : Unseeded s t := drive_keeps (fun u v => tick_unseeded)
    (startGetRandom_unseeded dstv size he hi hlt) hrun
  exact ⟨hng, hkey, hinit⟩

end Sys2Proof.Machine

namespace Sys2Proof

/-! # Encodings (R60 to R68)

A command word is its four fields, so it decodes to an instruction exactly if the instruction encodes to it
(`decodeCw_eq_ok_iff`); masks and legality are then statements about the fields. -/

/-! ## The fields of a command word (R61) -/

/-- R61: two command words are the same if their fields are. -/
theorem cw_eq_iff {v w : CmdWord} :
    v = w ↔ cwOp v = cwOp w ∧ cwRsv v = cwRsv w ∧ cwF v = cwF w ∧ cwN v = cwN w := by
  refine ⟨fun h => by simp [h], fun ⟨hop, hrsv, hf, hn⟩ => ?_⟩
  rw [← cw_fields v, hop, hrsv, hf, hn, cw_fields]

/-- R61: the words packed from an operation code, a flag and an operand. -/
theorem packCw_eq_iff {op : Byte} {f : Bool} {n : BitVec 32} {w : CmdWord} :
    packCw op f n = w ↔ cwOp w = op ∧ cwRsv w = 0 ∧ cwF w = f ∧ cwN w = n := by
  rw [eq_comm, cw_eq_iff, cwOp_packCw, cwRsv_packCw, cwF_packCw, cwN_packCw]

/-- R62: a mask that covers OP and RSV fixes both, and of F and N what it covers of them. -/
theorem and_mask_eq_packCw_iff {w m : CmdWord} {op : Byte} {mf : Bool} {mn : BitVec 32}
    (hop : cwOp m = BitVec.allOnes 8) (hrsv : cwRsv m = BitVec.allOnes 23) (hf : cwF m = mf)
    (hn : cwN m = mn) :
    w &&& m = packCw op false 0 ↔
      cwOp w = op ∧ cwRsv w = 0 ∧ (cwF w && mf) = false ∧ cwN w &&& mn = 0 := by
  subst hf hn
  have hopAnd : cwOp (w &&& m) = cwOp w := by
    rw [← BitVec.and_allOnes (x := cwOp w), ← hop]; exact BitVec.extractLsb'_and
  have hrsvAnd : cwRsv (w &&& m) = cwRsv w := by
    rw [← BitVec.and_allOnes (x := cwRsv w), ← hrsv]; exact BitVec.extractLsb'_and
  have hfAnd : cwF (w &&& m) = (cwF w && cwF m) := BitVec.getLsbD_and
  have hnAnd : cwN (w &&& m) = cwN w &&& cwN m := BitVec.extractLsb'_and
  rw [eq_comm, packCw_eq_iff, hopAnd, hrsvAnd, hfAnd, hnAnd]

/-! ## Command words (R61, R62) -/

theorem decodeCw_packCw (op : Byte) (f : Bool) (n : BitVec 32) :
    decodeCw (packCw op f n) = decodeFields op f n := by
  simp [decodeCw, cwOp_packCw, cwRsv_packCw, cwF_packCw, cwN_packCw]

/-- R61, R62: an encoded command word decodes to its instruction, a reserved key size too (R66). -/
theorem decodeCw_of_encode {i : Instr} {w : CmdWord} (h : encode i = .cw w) : decodeCw w = .ok i := by
  cases i with
  | accSetFetch addr => cases addr; cases h
  | accSetPush addr => cases addr; cases h
  | init | getRandom | reseed | update | getEntropy | aesEcbEncrypt =>
    cases h; rw [decodeCw_packCw]; rfl
  | _ => cases h

/-- R61, R62: fields that decode are those their instruction is packed from. -/
theorem encode_of_decodeFields {op : Byte} {f : Bool} {n : BitVec 32} {i : Instr}
    (h : decodeFields op f n = .ok i) : encode i = .cw (packCw op f n) := by
  unfold decodeFields at h
  -- Each of the six branches that answer fixes OP and the fields its operation does not take.
  split_ifs at h <;> cases h
  all_goals simp_all [encode]

/-- Settles O2: a word whose RSV is zero is packed from its other fields. -/
theorem commandWordHasOneMeaning : Obligations.CommandWordHasOneMeaning := by
  intro w i h
  unfold decodeCw at h
  split at h
  · cases h
  · next hrsv =>
    rw [encode_of_decodeFields h, packCw_eq_iff.2 ⟨rfl, not_not.1 hrsv, rfl, rfl⟩]

/-- R60 to R62: the decoder and the encoder of command words are inverse to each other. -/
theorem decodeCw_eq_ok_iff {w : CmdWord} {i : Instr} : decodeCw w = .ok i ↔ encode i = .cw w :=
  ⟨commandWordHasOneMeaning w i, decodeCw_of_encode⟩

/-! ## Port events (R68) -/

theorem decodeConfigure_wordBytes (c t s b : Word) (rest : List Byte) :
    decodeConfigure (wordBytes c ++ (wordBytes t ++ (wordBytes s ++ (wordBytes b ++ rest)))) =
      .ok (.ngConfigure c t s b, rest) := by
  simp [decodeConfigure, takeWord_wordBytes]

theorem decodeKeySet_wordBytes (i : Fin 4) (w : Word) (rest : List Byte) :
    decodeKeySet (wordBytes (BitVec.ofNat 32 i.val) ++ (wordBytes w ++ rest)) =
      .ok (.ngKeySet i w, rest) := by
  simp [decodeKeySet, takeIndex_wordBytes, takeWord_wordBytes]

theorem decodeKeyRead_wordBytes (i : Fin 4) (rest : List Byte) :
    decodeKeyRead (wordBytes (BitVec.ofNat 32 i.val) ++ rest) = .ok (.ngKeyRead i, rest) := by
  simp [decodeKeyRead, takeIndex_wordBytes]

/-- R68: the bytes of a port event decode to it, and the bytes after them are left. -/
theorem decodePe_of_encode {i : Instr} {bs : List Byte} (h : encode i = .pe bs) (rest : List Byte) :
    decodePe (bs ++ rest) = .ok (i, rest) := by
  cases i with
  | ngConfigure c t s b =>
    cases h
    simp only [List.cons_append, List.append_assoc]
    exact decodeConfigure_wordBytes c t s b rest
  | ngKeySet index word =>
    cases h
    simp only [List.cons_append, List.append_assoc]
    exact decodeKeySet_wordBytes index word rest
  | ngKeyRead index => cases h; exact decodeKeyRead_wordBytes index rest
  | accSetFetch addr => cases addr; cases h; rfl
  | accSetPush addr => cases addr; cases h; rfl
  | _ => cases h <;> rfl

/-- R60: both formats decode what is encoded, a reserved key size too (R66). -/
theorem decode_encode (i : Instr) : decode (encode i) = .ok i := by
  cases h : encode i with
  | cw w => exact decodeCw_of_encode h
  | pe bs =>
    have hpe := decodePe_of_encode h []
    rw [List.append_nil] at hpe
    simp [decode, hpe]

/-- Settles O1, format by format; the decoder takes reserved key sizes too, so the premise is not needed. -/
theorem decodeEncodeRoundTrip : Obligations.DecodeEncodeRoundTrip :=
  fun i _ => ⟨decode_encode i, fun _ h rest => decodePe_of_encode h rest⟩

/-! ## The opcode table (R62, R73) -/

/-- R62: an operation that takes F and N: the mask covers neither. -/
theorem packCw_flagOperand_eq_iff {op : Byte} {w : CmdWord} :
    packCw op (cwF w) (cwN w) = w ↔ w &&& 0xFFFFFFFE00000000 = packCw op false 0 := by
  rw [packCw_eq_iff, and_mask_eq_packCw_iff (mf := false) (mn := 0) rfl rfl rfl rfl]
  simp

/-- R62: an operation that takes F alone: the mask covers N. -/
theorem packCw_flag_eq_iff {op : Byte} {w : CmdWord} :
    packCw op (cwF w) 0 = w ↔ w &&& 0xFFFFFFFEFFFFFFFF = packCw op false 0 := by
  rw [packCw_eq_iff,
    and_mask_eq_packCw_iff (mf := false) (mn := BitVec.allOnes 32) rfl rfl rfl rfl,
    BitVec.and_allOnes]
  simp

/-- R62: an operation that takes N alone: the mask covers F. -/
theorem packCw_operand_eq_iff {op : Byte} {w : CmdWord} :
    packCw op false (cwN w) = w ↔ w &&& 0xFFFFFFFF00000000 = packCw op false 0 := by
  rw [packCw_eq_iff, and_mask_eq_packCw_iff (mf := true) (mn := 0) rfl rfl rfl rfl]
  simp

/-- Settles O3: each row says what its instruction packs, and its mask covers the fields it fixes. -/
theorem opcodeTableMasksDecode : Obligations.OpcodeTableMasksDecode := by
  intro w
  simp only [decodeCw_eq_ok_iff, encode, Code.cw.injEq]
  exact ⟨eq_comm, packCw_flagOperand_eq_iff, eq_comm, packCw_flag_eq_iff, packCw_operand_eq_iff,
    packCw_operand_eq_iff⟩

/-- Settles O4: each word is what its instruction packs, which decodes it too. -/
theorem workedEncodings : Obligations.WorkedEncodings := by
  simp only [Obligations.WorkedEncodings, decodeCw_eq_ok_iff]
  decide

/-! ## Words at the host port (R66) -/

theorem decodeHost_eq_ok_iff {w : CmdWord} {i : Instr} :
    decodeHost w = .ok i ↔ encode i = .cw w ∧ i.isHostCommand = true := by
  rw [← decodeCw_eq_ok_iff]
  unfold decodeHost
  cases hd : decodeCw w with
  | error e => simp
  | ok j =>
    by_cases hj : j.isHostCommand = true
    · simp only [hj, if_true, Except.ok.injEq, iff_self_and]
      rintro rfl
      exact hj
    · simp only [hj, if_false, reduceCtorEq, Except.ok.injEq, false_iff, not_and]
      rintro rfl
      exact hj

/-- R62, R66: the words the host port accepts. -/
theorem decodeHost_isOk_iff (w : CmdWord) :
    (∃ i, decodeHost w = .ok i) ↔
      cwRsv w = 0 ∧ ((cwOp w = 0x01 ∧ cwF w = false ∧ cwN w = 0) ∨ cwOp w = 0x02) := by
  simp only [decodeHost_eq_ok_iff]
  constructor
  · rintro ⟨i, hw, hi⟩
    cases i with
    | init =>
      obtain ⟨hop, hrsv, hf, hn⟩ := packCw_eq_iff.1 (Code.cw.inj hw)
      exact ⟨hrsv, .inl ⟨hop, hf, hn⟩⟩
    | getRandom dstv size =>
      obtain ⟨hop, hrsv, _⟩ := packCw_eq_iff.1 (Code.cw.inj hw)
      exact ⟨hrsv, .inr hop⟩
    | _ => cases hi
  · rintro ⟨hrsv, ⟨hop, hf, hn⟩ | hop⟩
    · exact ⟨.init, congrArg Code.cw (packCw_eq_iff.2 ⟨hop, hrsv, hf, hn⟩), rfl⟩
    · exact ⟨.getRandom _ _, congrArg Code.cw (packCw_eq_iff.2 ⟨hop, hrsv, rfl, rfl⟩), rfl⟩

/-- R66: the words that are illegal at the host port. -/
theorem decodeHost_isError_iff (w : CmdWord) :
    (∃ e, decodeHost w = .error e) ↔
      (cwOp w ≠ 0x01 ∧ cwOp w ≠ 0x02) ∨ cwRsv w ≠ 0 ∨
        (cwOp w = 0x01 ∧ (cwF w = true ∨ cwN w ≠ 0)) := by
  have hnot : (∃ e, decodeHost w = .error e) ↔ ¬ ∃ i, decodeHost w = .ok i := by
    cases decodeHost w <;> simp
  rw [hnot, decodeHost_isOk_iff]
  grind

end Sys2Proof

namespace Sys2Proof.Machine

/-! # What issuing an operation does (R28, R66, R60) -/

/-- R74, 93 U10: a key size other than 16, 24 and 32 has no meaning. -/
theorem exec_aesEcbEncrypt_reserved {n : BitVec 32} (h : keySizeLegal n = false) (s : State) :
    exec (.aesEcbEncrypt n) s = .refused (.reservedKeySize n) := by
  simp [exec, execAesEcbEncrypt, h]

/-- R66: an illegal word goes to CMD and STATUS takes the code of invalid input. -/
theorem hostWrite_of_error {w : CmdWord} {e : DecodeError} (h : decodeHost w = .error e) (s : State) :
    hostWrite w s = .next { s with host := { s.host with cmd := w, status := 0xFFFFFFFE } } := by
  simp [hostWrite, h, rejectWord, statusWord]

/-- R7, R28: a step of an idle machine issues the oldest operation that waits. -/
theorem step_of_idle {s : State} {x : Issue} {rest : List Issue} (hidle : idle s = true)
    (hq : s.host.issue = x :: rest) :
    step s = issueOne x { s with host := { s.host with issue := rest } } := by
  simp [step, hidle, issueNext, hq]

/-- Settles O5: legality by the fields of the word, then one step, then the refusal. -/
theorem illegalCommandWords : Obligations.IllegalCommandWords := by
  refine ⟨decodeHost_isError_iff, fun s w rest e hidle hq he => ?_, fun s n h16 h24 h32 => ?_⟩
  · rw [step_of_idle hidle hq]
    exact hostWrite_of_error he _
  · exact exec_aesEcbEncrypt_reserved (by simpa [keySizeLegal, and_assoc] using ⟨h16, h24, h32⟩) s

/-- Settles O7: taking the form from the queue leaves its decoding alone. -/
theorem stepRunsEngineOperation : Obligations.StepRunsEngineOperation := by
  intro s c rest i hidle hq hd
  rw [step_of_idle hidle hq]
  simp [issueOne, engineIssue, hd]

/-! # STATUS holds one of its three encodings (R28, R65, R170) -/

/-- R65: STATUS holds the encoding of a status. -/
def StatusEncoded (s : State) : Prop := ∃ st, s.host.status = statusWord st

theorem statusEncoded_iff {s : State} :
    StatusEncoded s ↔
      s.host.status = 0 ∨ s.host.status = 0xFFFFFFFF ∨ s.host.status = 0xFFFFFFFE := by
  constructor
  · rintro ⟨st, h⟩
    cases st <;> simp [h, statusWord]
  · rintro (h | h | h)
    · exact ⟨.ok, h⟩
    · exact ⟨.fail, h⟩
    · exact ⟨.invalid, h⟩

theorem StatusEncoded.of_host {s t : State} (hs : StatusEncoded s) (h : t.host = s.host) :
    StatusEncoded t := by
  rwa [StatusEncoded, h]

/-! ## The rows -/

theorem respond_statusEncoded (st : Status) (s : State) : StatusEncoded (respond st s) :=
  ⟨st, by simp⟩

/-- R170: the failure path writes the status of a host command, or none. -/
theorem StatusEncoded.raise {s : State} (hs : StatusEncoded s) (st : Status) :
    StatusEncoded (raise st s) := by
  unfold Machine.raise
  simp only
  split
  · exact respond_statusEncoded _ _
  · exact hs

theorem reseedReturn_host (callers : List Ctx) (s : State) :
    (reseedReturn callers s).host = s.host := by
  unfold reseedReturn
  simp only
  split
  · split <;> simp
  · simp
  · simp

theorem dceCommit_host (s : State) : (dceCommit s).host = s.host := by
  unfold dceCommit
  simp only
  split
  · simp [reseedReturn_host]
  · simp
  · simp

theorem dceReseedTest_host (s : State) : (dceReseedTest s).host = s.host := by
  unfold dceReseedTest
  split <;> simp

theorem dceOut_host (s : State) : (dceOut s).host = s.host := by
  unfold dceOut
  split <;> simp

theorem dceCheck_statusEncoded {s : State} (hs : StatusEncoded s) : StatusEncoded (dceCheck s) := by
  unfold dceCheck
  split
  · exact hs.raise _
  · split
    · exact respond_statusEncoded _ _
    · split <;> exact hs

/-- R147: the rows D_CHECK and D_RESP end a host command with a status, the other rows write none. -/
theorem dceRow_statusEncoded {s : State} (hs : StatusEncoded s) : StatusEncoded (dceRow s) := by
  unfold dceRow
  cases s.dce.phase with
  | check => exact dceCheck_statusEncoded hs
  | resp => exact respond_statusEncoded _ _
  | commit => exact hs.of_host (dceCommit_host s)
  | reseedTest => exact hs.of_host (dceReseedTest_host s)
  | out j => exact hs.of_host (dceOut_host s)
  | upd k => exact hs.of_host (by simp [dceUpd])
  | zero => exact hs.of_host (dceZero_host s)
  | idle | seed | final => exact hs

/-- R132, R142: taking a cipher block writes no STATUS, and a failed cipher call takes the failure path. -/
theorem aesReturned_statusEncoded {s t : State} (hs : StatusEncoded s)
    (h : dceBlock s = .next t ∨ t = dceBlockFailed s) : StatusEncoded t := by
  rcases h with h | rfl
  · rcases dceBlock_cases h with ⟨k, _, rfl⟩ | ⟨j, _, h⟩ | rfl
    · exact hs
    · obtain ⟨_, rfl⟩ := takeOutBlock_next h
      exact hs
    · exact hs
  · rcases dceBlockFailed_cases s with h | h <;> rw [h]
    · exact hs.raise _
    · exact hs

theorem dceEntropy_statusEncoded {s : State} (hs : StatusEncoded s) (st : Status) :
    StatusEncoded (dceEntropy st s) := by
  rcases dceEntropy_cases st s with ⟨_, h | h⟩ | h <;> rw [h]
  · exact hs
  · exact hs.raise _
  · exact hs

theorem tick_statusEncoded {s t : State} (hs : StatusEncoded s) (h : tick s = .next t) :
    StatusEncoded t := by
  rcases tick_rows h with ⟨_, hp, _⟩ | ⟨_, u, hp, _, _, h⟩ | ⟨_, _, rfl⟩ | ⟨_, _, hr⟩ |
    ⟨_, _, st, u, hr, rfl⟩
  · obtain ⟨_, _, _, _, hhost, _⟩ := hp
    exact hs.of_host hhost
  · obtain ⟨_, _, _, _, hhost, _⟩ := hp
    exact aesReturned_statusEncoded (hs.of_host hhost) h
  · exact dceRow_statusEncoded hs
  · obtain ⟨_, _, _, _, _, hhost, _⟩ := ecRow_frame hr
    exact hs.of_host hhost
  · obtain ⟨_, _, _, _, _, hhost, _⟩ := ecRow_frame hr
    exact dceEntropy_statusEncoded (hs.of_host hhost) st

/-! ## Every step -/

theorem Started.host {s u : State} (h : Started s u) : u.host = s.host := by
  cases h <;> simp

theorem portOperation_host {i : Instr} {s t : State}
    (hi : Claims.isNgOp i = true ∨ Claims.isAccOp i = true) (h : exec i s = .next t) :
    t.host = s.host := by
  rcases hi with hi | hi
  · obtain ⟨_, _, _, rfl⟩ := exec_ngOp_frame hi h
    rfl
  · obtain ⟨_, _, _, _, rfl⟩ := exec_accOp_frame hi h
    rfl

/-- R65: what a step writes to STATUS is an encoding: a row ends a command with one, and an illegal word is
answered with that of invalid input. -/
theorem step_statusEncoded {s t : State} (hs : StatusEncoded s) (h : step s = .next t) :
    StatusEncoded t :=
  step_keeps_of_rows (fun _ _ => tick_statusEncoded)
    (fun _ _ _ hu hi hv => hu.of_host (portOperation_host hi hv))
    (fun _ _ hu _ hv => hu.of_host hv.host) (fun _ _ _ hu => hu) (fun _ _ => ⟨.invalid, rfl⟩) hs h

/-- Settles O59: every step keeps STATUS an encoding. -/
theorem statusValues : Obligations.StatusValues := fun _ _ h hs =>
  statusEncoded_iff.1 (step_statusEncoded (statusEncoded_iff.2 hs) h)

end Sys2Proof.Machine

namespace Sys2Proof.Machine

/-! # Enable and disable events (R84, R116, S7)

A row adds an enable or disable event to the port trace exactly where the phase of the engine that uses the
module goes in or out of the phases that hold it (`Switched`). Both balances are counts of these events, so
every row keeps them, in every state; only an operation issued at engine level breaks them. -/

/-! ## The events that switch a module -/

/-- R93, R94, R119, R120: the events that enable or disable a module. -/
def switchesModule : Event → Bool
  | .ngEnable | .ngDisable | .accEnable | .accDisable => true
  | _ => false

/-- The events of the port trace that enable or disable a module, oldest first. -/
def switches (s : State) : List Event := s.trace.filter switchesModule

/-- R114, R116: the phase of the Block Cipher Engine between ACC_ENABLE and ACC_DISABLE. -/
def bceHoldsAcc : BcePhase → Bool
  | .idle => false
  | .poll => true

theorem bceHoldsAcc_iff {p : BcePhase} : bceHoldsAcc p = true ↔ p = .poll := by
  cases p <;> simp [bceHoldsAcc]

/-- The events that take a module from one enable state to the other. -/
def switchEvents (on off : Event) : Bool → Bool → List Event
  | false, true => [on]
  | true, false => [off]
  | _, _ => []

@[simp] theorem switchEvents_self (on off : Event) (b : Bool) : switchEvents on off b b = [] := by
  cases b <;> rfl

@[simp] theorem switchEvents_on (on off : Event) : switchEvents on off false true = [on] := rfl
@[simp] theorem switchEvents_off (on off : Event) : switchEvents on off true false = [off] := rfl

/-- Each switch on is matched by the phase that is entered, each switch off by the one that is left. -/
theorem count_switchEvents {on off : Event} (h : on ≠ off) (a b : Bool) :
    (switchEvents on off a b).count on + (if a = true then 1 else 0) =
      (switchEvents on off a b).count off + (if b = true then 1 else 0) := by
  cases a <;> cases b <;> simp [switchEvents, h, h.symm]

/-- The switches of the other module do not count. -/
theorem count_switchEvents_other {e on off : Event} (hon : on ≠ e) (hoff : off ≠ e) (a b : Bool) :
    (switchEvents on off a b).count e = 0 := by
  cases a <;> cases b <;> simp [switchEvents, hon, hoff]

/-- R84, R116: from s to t each module is switched exactly as the phase of its engine says. -/
def Switched (s t : State) : Prop :=
  switches t = switches s ++
    switchEvents .accEnable .accDisable (bceHoldsAcc s.bce) (bceHoldsAcc t.bce) ++
    switchEvents .ngEnable .ngDisable (ecHoldsNg s.ec.phase) (ecHoldsNg t.ec.phase)

/-- The balances count switch events, so these are all that matters to them. -/
theorem Switched.traceCount {s t : State} (h : Switched s t) {e : Event}
    (he : switchesModule e = true) :
    traceCount e t = traceCount e s +
      (switchEvents .accEnable .accDisable (bceHoldsAcc s.bce) (bceHoldsAcc t.bce)).count e +
      (switchEvents .ngEnable .ngDisable (ecHoldsNg s.ec.phase) (ecHoldsNg t.ec.phase)).count e := by
  have hcount : ∀ u, Machine.traceCount e u = (switches u).count e := fun u => (List.count_filter he).symm
  rw [hcount, hcount, h, List.count_append, List.count_append]

/-- R116, S7: switching ACC as the Block Cipher Engine's phase says keeps its events balanced. -/
theorem Switched.accBalanced {s t : State} (h : Switched s t) (hs : AccBalanced s) :
    AccBalanced t := by
  have hb := count_switchEvents (on := .accEnable) (off := .accDisable) (by simp)
    (bceHoldsAcc s.bce) (bceHoldsAcc t.bce)
  simp only [bceHoldsAcc_iff] at hb
  unfold AccBalanced at *
  rw [h.traceCount rfl, h.traceCount rfl,
    count_switchEvents_other (on := .ngEnable) (by simp) (by simp),
    count_switchEvents_other (on := .ngEnable) (by simp) (by simp)]
  omega

/-- R84: switching NG as EC's phase says keeps its events balanced. -/
theorem Switched.ngBalanced {s t : State} (h : Switched s t) (hs : NgBalanced s) :
    NgBalanced t := by
  have hb := count_switchEvents (on := .ngEnable) (off := .ngDisable) (by simp)
    (ecHoldsNg s.ec.phase) (ecHoldsNg t.ec.phase)
  unfold NgBalanced at *
  rw [h.traceCount rfl, h.traceCount rfl,
    count_switchEvents_other (on := .accEnable) (by simp) (by simp),
    count_switchEvents_other (on := .accEnable) (by simp) (by simp)]
  omega

theorem Switched.refl (s : State) : Switched s s := by simp [Switched]

/-- Where DCE moves by itself and records no switch event, no module is switched. -/
theorem Switched.of_dceKeeps {s t u : State} (h : Switched s t) (hk : DceKeeps t u)
    (hsw : switches u = switches t) : Switched s u := by
  obtain ⟨hb, he, _⟩ := hk
  unfold Switched at *
  rw [hb, he, hsw, h]

/-! ## Where DCE moves by itself: no switch -/

@[simp] theorem filter_failEvents (s : State) : (failEvents s).filter switchesModule = [] := by
  unfold failEvents
  split <;> split <;> rfl

@[simp] theorem raise_switches (st : Status) (s : State) : switches (raise st s) = switches s := by
  simp [switches]

theorem dceCheck_switches (s : State) : switches (dceCheck s) = switches s := by
  unfold dceCheck
  split
  · simp
  · split
    · simp [switches]
    · split <;> simp [switches]

theorem reseedReturn_switches (callers : List Ctx) (s : State) :
    switches (reseedReturn callers s) = switches s := by
  unfold reseedReturn
  simp only
  split
  · split <;> simp [switches, switchesModule]
  · simp [switches, switchesModule]
  · simp [switches, switchesModule]

theorem dceCommit_switches (s : State) : switches (dceCommit s) = switches s := by
  unfold dceCommit
  simp only
  split
  · rw [reseedReturn_switches]
    simp [switches, switchesModule]
  · simp [switches, switchesModule]
  · simp [switches, switchesModule]

theorem dceReseedTest_switches (s : State) : switches (dceReseedTest s) = switches s := by
  unfold dceReseedTest
  split <;> simp [switches, switchesModule]

theorem dceBlock_switches {s t : State} (h : dceBlock s = .next t) : switches t = switches s := by
  rcases dceBlock_cases h with ⟨k, _, rfl⟩ | ⟨j, _, h⟩ | rfl
  · simp [switches]
  · obtain ⟨_, rfl⟩ := takeOutBlock_next h
    rfl
  · rfl

theorem dceEntropy_switches (st : Status) (s : State) : switches (dceEntropy st s) = switches s := by
  rcases dceEntropy_cases st s with ⟨_, h | h⟩ | h <;> rw [h]
  · simp [switches, switchesModule]
  · simp

theorem aesReturned_switches {s t : State} (h : dceBlock s = .next t ∨ t = dceBlockFailed s) :
    switches t = switches s := by
  rcases h with h | rfl
  · exact dceBlock_switches h
  · rcases dceBlockFailed_cases s with h | h <;> simp [h]

/-! ## Every row -/

/-- R114: the start of a job enables ACC. -/
theorem aesStart_switched {s t : State} (n : Nat) (hb : s.bce = .idle) (he : t.ec = s.ec)
    (htr : t.trace = s.trace) : Switched s (aesStart n t) := by
  simp [Switched, switches, switchesModule, List.filter_cons, bceHoldsAcc, hb, he, htr]

/-- R147: a row of DCE switches a module only where it hands a block to the cipher. -/
theorem dceRow_switched {s : State} (hb : s.bce = .idle) (he : s.ec.phase = .idle) :
    Switched s (dceRow s) := by
  have quiet : ∀ {t}, DceKeeps s t → switches t = switches s → Switched s t :=
    (Switched.refl s).of_dceKeeps
  unfold dceRow
  cases s.dce.phase with
  | idle => exact .refl s
  | check => exact quiet (dceCheck_keeps s) (dceCheck_switches s)
  | zero => exact quiet (by simp [DceKeeps, OutInv]) (by simp [switches, switchesModule])
  | seed => simp [Switched, switches, switchesModule, ecHoldsNg, he]
  | upd k => exact aesStart_switched 32 hb rfl rfl
  | commit => exact quiet (dceCommit_keeps s) (dceCommit_switches s)
  | reseedTest => exact quiet (dceReseedTest_keeps s) (dceReseedTest_switches s)
  | out j =>
    simp only [dceOut]
    split
    · exact quiet (by simp [DceKeeps, OutInv]) (by simp [switches])
    · exact aesStart_switched 32 hb rfl rfl
  | final => exact quiet (by simp [DceKeeps, OutInv]) (by simp [switches, switchesModule])
  | resp => exact quiet (by simp [DceKeeps, OutInv]) (by simp [switches])

/-- R115, R116: a status read switches nothing; the row that ends the job disables ACC. -/
theorem tick_poll_switched {s t : State} (hb : s.bce = .poll) (h : tick s = .next t) :
    Switched s t := by
  obtain ⟨_, _, hec, hbce, _, _, _, _, htr⟩ := accStatusRead_frame s
  have hreturn : ∀ st b u, u.ec = s.ec → u.trace = (accStatusRead s).2.trace →
      Switched s (aesReturn st b u) := fun st b u he hu => by
    simp [Switched, switches, switchesModule, List.filter_cons, bceHoldsAcc, hb, he, hu, htr]
  rcases tick_cases h with ⟨_, h⟩ | ⟨hi, _⟩ | ⟨hi, _⟩
  · rcases aesPoll_cases s with ⟨_, h'⟩ | ⟨_, h'⟩ | ⟨_, b, h'⟩ <;> rw [h'] at h <;>
      simp only [reduceCtorEq, true_and, false_and, or_false, false_or] at h
    · subst h
      simp [Switched, switches, switchesModule, hbce, hec, htr]
    · exact (hreturn _ _ _ hec rfl).of_dceKeeps (dceBlock_keeps h) (dceBlock_switches h)
    · exact (hreturn .fail b _ (by simp [hec]) (by simp)).of_dceKeeps (aesReturned_keeps (.inr h))
        (aesReturned_switches (.inr h))
  · simp [hb] at hi
  · simp [hb] at hi

theorem ecPoll_switches (s : State) : switches (ecPoll s) = switches s := by
  rcases ecPoll_cases s with ⟨_, h⟩ | ⟨_, h⟩ | ⟨_, h⟩ <;> rw [h] <;>
    simp [switches, switchesModule, ecPollReady]

theorem pollPhase_holdsNg (keySet : Bool) (need level : Nat) :
    ecHoldsNg (pollPhase keySet need level) = true := by
  rcases pollPhase_cases keySet need level with h | ⟨h, _⟩ | ⟨h, _⟩ <;> rw [h] <;> rfl

/-- R86 to R88: after a poll iteration EC holds NG as before. -/
theorem ecPoll_holdsNg {s : State} (hp : s.ec.phase = .poll) :
    ecHoldsNg (ecPoll s).ec.phase = true := by
  rcases ecPoll_cases s with ⟨_, h⟩ | ⟨_, h⟩ | ⟨_, h⟩ <;> rw [h]
  · rfl
  · simp [ecHoldsNg, hp]
  · simp [ecPollReady, pollPhase_holdsNg]

@[simp] theorem filter_popEvents (ws : List Word) : (popEvents ws).filter switchesModule = [] := by
  simp [popEvents, List.filter_eq_nil_iff, switchesModule]

/-- R84, R102: the row of E_ENABLE enables NG, that of E_DISABLE disables it, and no other row of EC
switches a module. -/
theorem ecRow_switched {s t : State} {r : Option Status} (h : ecRow s = .next (r, t)) :
    Switched s t := by
  obtain ⟨_, _, hb, _⟩ := ecRow_frame h
  rcases ecRow_cases h with ⟨_, _, rfl⟩ | ⟨hp, h⟩ | ⟨hp, _, rfl⟩ | ⟨hp, _, rfl⟩ | ⟨hp, _, rfl⟩ |
    ⟨hp, _, h⟩ | ⟨hp, _, h⟩ | ⟨hp, _, rfl⟩ | ⟨hp, _, rfl⟩
  · exact .refl _
  · unfold ecCheck at h
    split at h <;> cases h <;> simp [Switched, switches, switchesModule, ecHoldsNg, hp]
  · simp [Switched, switches, switchesModule, ecHoldsNg, hp]
  · simp [Switched, switches, switchesModule, ecHoldsNg, hp]
  · have hng : ecHoldsNg s.ec.phase = true := by rw [hp]; rfl
    simp [Switched, ecPoll_switches, ecPoll_holdsNg hp, hb, hng]
  · obtain ⟨w0, w1, w2, w3, rest, hf⟩ := ecKeyload_next h
    rw [ecKeyload_four hf] at h
    cases h
    simp [Switched, switches, switchesModule, ecHoldsNg, hp]
  · rw [ecDrain_enough (ecDrain_next h)] at h
    cases h
    simp [Switched, switches, ecHoldsNg, hp]
  · simp [Switched, switches, switchesModule, ecHoldsNg, hp]
  · simp [Switched, switches, switchesModule, ecHoldsNg, hp]

/-- R84, R116: every row switches each module exactly as the phase of its engine says. -/
theorem tick_switched {s t : State} (h : tick s = .next t) : Switched s t := by
  rcases tick_rows h with ⟨hb, _⟩ | ⟨hb, _⟩ | ⟨hb, he, rfl⟩ | ⟨_, _, hr⟩ | ⟨_, _, st, u, hr, rfl⟩
  · exact tick_poll_switched hb h
  · exact tick_poll_switched hb h
  · exact dceRow_switched hb he
  · exact ecRow_switched hr
  · exact (ecRow_switched hr).of_dceKeeps (dceEntropy_keeps st u) (dceEntropy_switches st u)

/-! ## Every step -/

/-- R116, R84, S7: the enable and disable events of both modules are balanced. -/
def Balanced (s : State) : Prop := AccBalanced s ∧ NgBalanced s

theorem tick_balanced {s t : State} (hs : Balanced s) (h : tick s = .next t) : Balanced t := by
  obtain ⟨ha, hn⟩ := hs
  exact ⟨(tick_switched h).accBalanced ha, (tick_switched h).ngBalanced hn⟩

/-- R28, R66: whatever word the host writes, the balance is kept: a command is started by DCE alone. -/
theorem hostWrite_balanced {w : CmdWord} {s t : State} (hs : Balanced s)
    (h : hostWrite w s = .next t) : Balanced t := by
  rcases hostWrite_cases h with ⟨u, hu, hrun⟩ | rfl
  · have hbal : Balanced u := by
      rcases hu with rfl | ⟨dstv, size, rfl⟩ <;> exact hs
    exact drive_keeps (fun _ _ => tick_balanced) hbal hrun
  · exact hs

/-- Settles O55: a host word starts no operation of a module by itself, and every row adds an enable or
disable event exactly where its engine takes or leaves the module. -/
theorem enableEventsBalanced : Obligations.EnableEventsBalanced := by
  intro s t ⟨hhost, _⟩ ha hn h
  have hs : Balanced s := ⟨ha, hn⟩
  rcases step_cases h with ⟨_, _, rfl⟩ | ⟨_, x, rest, hq, h⟩ | ⟨_, h⟩
  · exact hs
  · obtain ⟨w, rfl⟩ := hhost x (by simp [hq])
    have hrest : Balanced { s with host := { s.host with issue := rest } } := hs
    exact hostWrite_balanced hrest h
  · exact advance_keeps (fun _ _ => tick_balanced) hs h

end Sys2Proof.Machine

namespace Sys2Proof.Machine

/-! # The port operations of NG (R93 to R101) -/

/-- Settles O12: each operation writes its field and its event; a disable leaves free values. -/
theorem ngWritesTakeEffect : Obligations.NgWritesTakeEffect := by
  refine fun s => ⟨rfl, ⟨_, rfl, rfl, ngAfterDisable_fifo_length_le _ _, rfl, rfl, rfl, rfl⟩,
    fun _ _ _ _ => rfl, fun i w => ⟨_, rfl, by simp, fun j hj => ?_, rfl⟩⟩
  have hij : i.val ≠ j.val := fun h => hj (Fin.ext h.symm)
  simp [hij]

/-- Settles O13: RESET, the empty FIFO and the kept enable are what `ngAfterReset` writes. -/
theorem ngResetTakesEffect : Obligations.NgResetTakesEffect := fun _ =>
  ⟨_, rfl, rfl, rfl, rfl, rfl, rfl, rfl, rfl⟩

/-- R97: a state read records the drawn state and keeps it as NG's. -/
theorem ngFsmRead_eq (s : State) :
    ngFsmRead s = ((drawFsm s).1,
      { s with
        ng := { s.ng with fsm := (drawFsm s).1 }
        trace := s.trace ++ [.ngFsmRead (drawFsm s).1]
        env := (drawFsm s).2.env }) := by
  unfold ngFsmRead drawFsm
  split <;> rfl

/-- R100: a level read records the number of words in the FIFO after the drawn words have entered. -/
theorem ngLevelRead_eq (s : State) :
    ngLevelRead s = ((fifoFilled s.ng.fifo (drawWords s).1).length,
      { s with
        ng := { s.ng with fifo := fifoFilled s.ng.fifo (drawWords s).1 }
        trace := s.trace ++ [.ngLevelRead (fifoFilled s.ng.fifo (drawWords s).1).length]
        env := (drawWords s).2.env }) := by
  unfold ngLevelRead drawWords
  split <;> rfl

/-- Settles O14: a state read answers the drawn state, a key read the word in CK. -/
theorem ngReadsAnswer : Obligations.NgReadsAnswer := by
  refine fun s => ⟨⟨(drawFsm s).1, (ngFsmRead s).2, rfl, by simp, ?_, fun x rest hq => ?_⟩,
    fun _ => rfl⟩
  · rw [ngFsmRead_eq]
  · simp [drawFsm_cons hq]

/-- Settles O15: the drawn words enter behind those in the FIFO, as far as the capacity goes. -/
theorem ngLevelReadAnswers : Obligations.NgLevelReadAnswers := by
  intro s hs
  have hfifo : (ngLevelRead s).2.ng.fifo = fifoFilled s.ng.fifo (drawWords s).1 := by
    rw [ngLevelRead_eq]
  refine ⟨(ngLevelRead s).2, rfl, ?_, ?_, ?_, fun ws rest hq => ?_⟩
  · rw [hfifo]; exact fifoFilled_prefix _ _
  · rw [hfifo]; exact fifoFilled_length_le hs
  · rw [ngLevelRead_eq]
  · rw [hfifo, drawWords_cons hq]
    exact ⟨by simp [drawWords_cons hq], rfl⟩

/-- Settles O16: a pop of a FIFO with a head takes it, and one of an empty FIFO faults. -/
theorem ngFifoPopTakesHead : Obligations.NgFifoPopTakesHead := by
  refine fun s => ⟨fun w rest hf => ?_, fun hf => ?_⟩
  · simp [exec, execNgFifoPop, ngFifoPop_cons hf, emit]
  · simp [exec, execNgFifoPop, ngFifoPop, hf]

end Sys2Proof.Machine

namespace Sys2Proof.Machine

open Sys2Proof.Claims

/-! # The rows and the runs of GET_ENTROPY (R82 to R90) -/

/-- R102: a poll iteration is the row of E_POLL. -/
theorem tick_ecPoll {s : State} (hp : s.ec.phase = .poll) (hb : s.bce = .idle) :
    tick s = .next (ecPoll s) :=
  tick_ec hb (by simp [hp]) (by simp [ecRow, hp])

/-- Settles O24: the four states of NG are the four cases, and on READY the level decides. -/
theorem pollIterationActions : Obligations.PollIterationActions := by
  intro s f fs hp hb hq
  have hf : (drawFsm s).1 = f := by rw [drawFsm_cons hq]
  refine ⟨ecPoll s, tick_ecPoll hp hb, ?_⟩
  rcases ecPoll_cases s with ⟨ha, h⟩ | ⟨ha, h⟩ | ⟨ha, h⟩ <;> rw [hf] at ha
  · subst ha
    simp [h, hf]
  · have hnot : f ≠ .error ∧ f ≠ .ready := by rcases ha with rfl | rfl <;> simp
    simp [h, hf, hp, hnot]
  · subst ha
    simp [h, ecPollReady, ngLevelRead_eq, hf, pollPhase, Config.fifoMinWords]

/-- Settles O25: the poll iteration on ERROR goes to E_INIT, whose row is NG_INIT and goes back. -/
theorem errorIsRecovered : Obligations.ErrorIsRecovered := by
  intro s fs hp hb hq
  have herr : ecPoll s = ecGoto .init { (ngFsmRead s).2 with ec := { s.ec with obsFsm := .error } } := by
    rcases ecPoll_cases s with ⟨_, h⟩ | ⟨h, _⟩ | ⟨h, _⟩
    · exact h
    all_goals simp [drawFsm_cons hq] at h
  have hinit : tick (ecPoll s) = .next (ecGoto .poll (ngInit (ecPoll s))) :=
    tick_ec (by simp [herr, hb]) (by simp [herr]) (by simp [ecRow, herr])
  refine ⟨_, by rw [tick_ecPoll hp hb, andThen_next, hinit], ?_⟩
  simp [herr, ngInit, drawFsm_cons hq]

/-- Settles O26: the row of E_KEYLOAD on a FIFO that holds four words. -/
theorem keyLoadTakesFourWords : Obligations.KeyLoadTakesFourWords :=
  fun _ _ _ _ _ _ hp hb hf =>
    ⟨_, tick_ec hb (by simp [hp]) (by rw [ecRow, hp, ecKeyload_four hf]; rfl), rfl, rfl, rfl, rfl⟩

/-- R82, R102: the row in which a GET_ENTROPY that nothing has called returns. -/
theorem tick_ec_return_uncalled {s t : State} {st : Status} (hb : s.bce = .idle)
    (hp : s.ec.phase ≠ .idle) (hd : t.dce.phase = .idle) (h : ecRow s = .next (some st, t)) :
    tick s = .next t := by
  have hnone : dceEntropy st t = t := by simp [dceEntropy, hd]
  rw [tick_ec_return hb hp h, hnone]

/-- A GET_ENTROPY on an idle machine answers the idle state that its rows lead to, where these are no more
than sixteen. -/
theorem exec_getEntropy_of_drive {s t : State} {n : BitVec 32} {k : Nat} (hs : idle s = true)
    (h : drive k (ecStart n s) = .next t) (ht : idle t = true) (hk : k ≤ 16) :
    exec (.getEntropy n) s = .next t := by
  have hbudget : 16 ≤ budget (ecStart n s) := by unfold budget; omega
  have hrun : run (ecStart n s) = .next t :=
    run_of_drive h (canAdvance_of_idle ht) (hk.trans hbudget)
  simp [exec, execGetEntropy, whenIdle, hs, hrun]

/-- Settles O22: the size check is the first row, and it returns. -/
theorem oversizedEntropyRequestFails : Obligations.OversizedEntropyRequestFails := by
  intro s n hs hn
  have ⟨hstart, _⟩ := hs
  obtain ⟨hd, _, hb, _⟩ := quiet_phase hs
  have hrow : ecRow (ecStart n s) = .next (some .fail, ecReturn .fail (ecStart n s)) := by
    simp [ecRow, ecCheck, oversized, hn]
  have htick : tick (ecStart n s) = .next (ecReturn .fail (ecStart n s)) :=
    tick_ec_return_uncalled (by simpa using hb) (by simp) (by simpa using hd) hrow
  have hdrive : drive 1 (ecStart n s) = .next (ecReturn .fail (ecStart n s)) :=
    drive_succ (canAdvance_ec (by simpa using hb) (by simp) (by simp)) htick 0
  have hidle : idle (ecReturn .fail (ecStart n s)) = true :=
    idle_of (by simpa using hd) (by simp) (by simpa using hb)
  exact ⟨_, exec_getEntropy_of_drive hstart hdrive hidle (by omega), hidle, by simp [statusWord]⟩

/-- Settles O23: eight rows lead from the size check to the return (`drive_entropy`), which nothing has
called for. -/
theorem getEntropyDelivers : Obligations.GetEntropyDelivers := by
  intro s n ks ws hs hn ha
  have ⟨hstart, _⟩ := hs
  obtain ⟨hd, _, hb, _⟩ := quiet_phase hs
  obtain ⟨u, hu, ⟨hgen, hdce, hbce, _⟩, hphase, hkey, hebuf, hng, hfifo, _, htr⟩ :=
    drive_entropy (s := ecStart n s) (ks := ks) (ws := ws) hb rfl hn ha
  have hbu : u.bce = .idle := hbce.trans hb
  have hdu : u.dce.phase = .idle := by rw [hdce]; exact hd
  have hrow : ecRow u = .next (some .ok, ecReturn .ok u) := by simp [ecRow, hphase]
  have htick : tick u = .next (ecReturn .ok u) :=
    tick_ec_return_uncalled hbu (by simp [hphase]) (by simpa using hdu) hrow
  have hdrive : drive (8 + 1) (ecStart n s) = .next (ecReturn .ok u) := by
    rw [drive_add, hu, andThen_next,
      drive_succ (canAdvance_ec hbu (by simp [hphase]) (by simp [hphase])) htick, drive_zero]
  have hidle : idle (ecReturn .ok u) = true :=
    idle_of (by simpa using hdu) (by simp) (by simpa using hbu)
  refine ⟨_, exec_getEntropy_of_drive hstart hdrive hidle (by omega), hidle, by simp [statusWord],
    by simpa using hkey, by simpa using hng, by simpa [drainBytes] using hebuf, by simpa using hfifo,
    by simpa using hgen, ?_⟩
  rw [ecReturn_trace, htr]
  simp [ecStart]

end Sys2Proof.Machine

namespace Sys2Proof.Machine

/-! # The port operations of ACC (R119 to R126, R54) -/

/-- Settles O17: each operation writes its field and its event. -/
theorem accWritesTakeEffect : Obligations.AccWritesTakeEffect := fun _ =>
  ⟨rfl, rfl, rfl, rfl, rfl, rfl⟩

/-- Settles O20: no job and clear flags are what `accSoftreset` writes. -/
theorem accSoftresetTakesEffect : Obligations.AccSoftresetTakesEffect := fun _ => rfl

/-! ## ACC_START and its requirements (R124, R55) -/

/-- R124: what of a submission ACC_START asks for. -/
theorem jobSubmitted_iff {s : State} :
    jobSubmitted s = true ↔ s.acc.fetchAddr = .jobChain ∧ s.acc.pushAddr = .jobOutput ∧
      s.acc.indirect = true ∧ ∃ j, s.job.chain = some j := by
  simp [jobSubmitted, Option.isSome_iff_exists, and_assoc]

/-- R124: an ACC_START that has an effect has found its three requirements. -/
theorem execAccStart_next {s t : State} (h : execAccStart s = .next t) :
    s.acc.enabled = true ∧ jobSubmitted s = true ∧ s.job.ordered = true ∧ t = accStart s := by
  unfold execAccStart at h
  split at h
  · cases h
  · next he =>
    split at h
    · cases h
    · next hsub =>
      split at h
      · cases h
      · next ho =>
        cases h
        exact ⟨by simpa using he, by simpa using hsub, by simpa using ho, rfl⟩

/-- Settles O18: the requirements are tested one after the other, the module first and the barrier last. -/
theorem accStartNeedsItsRequirements : Obligations.AccStartNeedsItsRequirements := by
  refine fun s => ⟨fun j he hf hp hi hc ho => ?_, fun he => ?_, fun he hmissing => ?_,
    fun j he hf hp hi hc ho => ?_⟩
  · have hsub : jobSubmitted s = true := jobSubmitted_iff.2 ⟨hf, hp, hi, j, hc⟩
    simp [exec, execAccStart, he, hsub, ho, accStart, emit, hc]
  · simp [exec, execAccStart, he]
  · have hsub : jobSubmitted s = false := by
      rw [← Bool.not_eq_true, jobSubmitted_iff]
      rintro ⟨hf, hp, hi, j, hc⟩
      simp [hf, hp, hi, hc] at hmissing
    simp [exec, execAccStart, he, hsub]
  · have hsub : jobSubmitted s = true := jobSubmitted_iff.2 ⟨hf, hp, hi, j, hc⟩
    simp [exec, execAccStart, he, hsub, ho]

/-! ## ACC_STATUS_READ (R125, R117) -/

/-- R27: once an ACC_SOFTRESET has cleared the flags of an accelerator without a job, a read answers them as
they stand. -/
theorem accStatusRead_cleared {s : State} (hj : s.acc.job = none)
    (hr : s.acc.softresetDone = true) :
    accStatusRead s =
      (s.acc.status, { s with trace := s.trace ++ [.accStatusRead s.acc.status] }) := by
  simp [accStatusRead, hj, accStatusReadIdle, hr, emit]

/-- R26: before the first ACC_SOFTRESET the flags of an accelerator without a job are drawn. -/
theorem accStatusRead_jobless {s : State} (hj : s.acc.job = none)
    (hr : s.acc.softresetDone = false) :
    accStatusRead s = ((drawAccStatus s).1,
      { s with
        acc := { s.acc with status := (drawAccStatus s).1 }
        trace := s.trace ++ [.accStatusRead (drawAccStatus s).1]
        env := (drawAccStatus s).2.env }) := by
  simp [accStatusRead, hj, accStatusReadIdle, hr, emit]

/-- R125, R117: with a job in flight the flags are drawn, and out_block holds what they tell of the job. -/
theorem accStatusRead_inFlight {s : State} {j : Job} (hj : s.acc.job = some j) :
    accStatusRead s = ((drawAccStatus s).1,
      { s with
        acc := { s.acc with status := (drawAccStatus s).1 }
        job := { s.job with
          outBlock := pushedBlock j (classify (drawAccStatus s).1)
            (drawBlock (drawAccStatus s).2).1 }
        trace := s.trace ++ [.accStatusRead (drawAccStatus s).1]
        env := (drawBlock (drawAccStatus s).2).2.env }) := by
  simp [accStatusRead, hj, emit]

theorem exec_accStatusRead (s : State) : exec .accStatusRead s = .next (accStatusRead s).2 := rfl

/-! ## Clear flags after an ACC_SOFTRESET (R27, R32) -/

/-- The flags, the job and the record of the ACC_SOFTRESET are all that the invariant speaks of. -/
theorem AccFlagsInv.of_acc {s t : State} (hs : AccFlagsInv s) (h : t.acc = s.acc) :
    AccFlagsInv t := by
  unfold AccFlagsInv at *
  rwa [h]

/-- The invariant says nothing while a job is in flight. -/
theorem accFlagsInv_of_job {s : State} {j : Job} (h : s.acc.job = some j) : AccFlagsInv s := by
  simp [AccFlagsInv, h]

/-- R125: a read answers cleared flags as they stand, and keeps what it answers. -/
theorem AccFlagsInv.read {s : State} (hs : AccFlagsInv s) : AccFlagsInv (accStatusRead s).2 := by
  obtain ⟨_, _, _, _, _, _, _, hacc, _⟩ := accStatusRead_frame s
  intro hj hr
  rw [hacc] at hj hr ⊢
  rw [accStatusRead_cleared hj hr]
  exact hs hj hr

/-- R116: the release of a job clears the flags. -/
theorem aesReturn_accFlagsInv (st : Status) (b : Block) (s : State) :
    AccFlagsInv (aesReturn st b s) := fun _ _ => by simp

/-- R115, R116: a status read goes on, or the job is released in its row. -/
theorem tick_poll_accFlagsInv {s t : State} (hs : AccFlagsInv s) (hb : s.bce = .poll)
    (h : tick s = .next t) : AccFlagsInv t := by
  have released : ∀ st b u, (dceBlock (aesReturn st b u) = .next t ∨
      t = dceBlockFailed (aesReturn st b u)) → AccFlagsInv t := fun st b u hu => by
    obtain ⟨_, _, _, hacc, _⟩ := aesReturned_keeps hu
    exact (aesReturn_accFlagsInv st b u).of_acc hacc
  rcases tick_cases h with ⟨_, h⟩ | ⟨hi, _⟩ | ⟨hi, _⟩
  · rcases aesPoll_cases s with ⟨_, h'⟩ | ⟨_, h'⟩ | ⟨_, b, h'⟩ <;> rw [h'] at h <;>
      simp only [reduceCtorEq, true_and, false_and, or_false, false_or] at h
    · subst h; exact hs.read
    · exact released _ _ _ (.inl h)
    · exact released _ _ _ (.inr h)
  · simp [hb] at hi
  · simp [hb] at hi

/-- R147: a row of DCE leaves ACC alone, or it submits a job. -/
theorem dceRow_accFlagsInv {s : State} (hs : AccFlagsInv s) : AccFlagsInv (dceRow s) := by
  rcases dceRow_cases s with ⟨_, _, _, hacc, _⟩ | ⟨_, h⟩ | ⟨_, g, vw, h⟩
  · exact hs.of_acc hacc
  · rw [h]; exact hs.of_acc (by simp)
  · rw [h]; exact accFlagsInv_of_job (by simp; rfl)

theorem tick_accFlagsInv {s t : State} (hs : AccFlagsInv s) (h : tick s = .next t) :
    AccFlagsInv t := by
  rcases tick_rows h with ⟨hb, _⟩ | ⟨hb, _⟩ | ⟨_, _, rfl⟩ | ⟨_, _, hr⟩ | ⟨_, _, st, u, hr, rfl⟩
  · exact tick_poll_accFlagsInv hs hb h
  · exact tick_poll_accFlagsInv hs hb h
  · exact dceRow_accFlagsInv hs
  · obtain ⟨_, _, _, hacc, _⟩ := ecRow_frame hr
    exact hs.of_acc hacc
  · obtain ⟨_, _, _, hacc, _⟩ := ecRow_frame hr
    obtain ⟨_, _, _, hacc', _⟩ := dceEntropy_keeps st u
    exact hs.of_acc (hacc'.trans hacc)

/-- R119 to R126: of the operations towards ACC only ACC_START, ACC_STATUS_READ and ACC_SOFTRESET touch what
the invariant speaks of. -/
theorem exec_accOp_accFlagsInv {i : Instr} {s t : State} (hs : AccFlagsInv s)
    (hi : Claims.isAccOp i = true) (h : exec i s = .next t) : AccFlagsInv t := by
  cases i with
  | accStart =>
    obtain ⟨_, hsub, _, rfl⟩ := execAccStart_next h
    obtain ⟨_, _, _, j, hc⟩ := jobSubmitted_iff.1 hsub
    exact accFlagsInv_of_job (j := j) (by simp [hc])
  | accStatusRead => cases h; exact hs.read
  | accSoftreset => cases h; exact fun _ _ => rfl
  | accSetFetch addr | accSetPush addr => cases addr; cases h; exact hs
  | accEnable | accDisable | accSetIndirect | barrier => cases h; exact hs
  | _ => cases hi

theorem Started.accFlagsInv {s u : State} (h : Started s u) (hs : AccFlagsInv s) :
    AccFlagsInv u := by
  cases h with
  | aes keySize => exact accFlagsInv_of_job (by simp; rfl)
  | _ => exact hs.of_acc (by simp)

/-- R27, R32: rows, starts and port operations all keep the invariant, and a step does nothing else to ACC. -/
theorem step_accFlagsInv {s t : State} (hs : AccFlagsInv s) (h : step s = .next t) :
    AccFlagsInv t := by
  refine step_keeps_of_rows (fun _ _ => tick_accFlagsInv) ?_ (fun _ _ hu _ hv => hv.accFlagsInv hu)
    (fun _ _ _ hu => hu) (fun _ hu => hu) hs h
  intro i u v hu hi hv
  rcases hi with hi | hi
  · obtain ⟨_, _, _, rfl⟩ := exec_ngOp_frame hi hv
    exact hu
  · exact exec_accOp_accFlagsInv hu hi hv

/-- Settles O19: the three kinds of read, and the invariant that tells what stands in the flags after an
ACC_SOFTRESET. -/
theorem accStatusReadAnswers : Obligations.AccStatusReadAnswers := by
  refine ⟨fun _ _ => step_accFlagsInv, fun s => ?_⟩
  rw [exec_accStatusRead]
  refine ⟨fun hj hr => ?_, fun hj hr => ?_, fun j hj => ?_⟩
  · rw [accStatusRead_cleared hj hr]
    exact ⟨rfl, fun hs => by rw [hs hj hr]⟩
  · rw [accStatusRead_jobless hj hr]
    exact ⟨_, _, rfl, rfl, fun x rest hq => by simp [drawAccStatus_cons hq]⟩
  · rw [accStatusRead_inFlight hj]
    exact ⟨_, _, rfl, fun hdone => by simp [hdone, pushedBlock], rfl,
      fun x rest hq => by simp [drawAccStatus_cons hq]⟩

end Sys2Proof.Machine

namespace Sys2Proof.Machine

open Sys2Proof.Claims

/-! # AES_ECB_ENCRYPT issued by itself (R111 to R118) -/

/-- R111: a cipher block that nothing in DCE has called for stays in BLK. -/
theorem dceBlock_uncalled {s : State} (h : s.dce.phase = .idle) : dceBlock s = .next s := by
  simp [dceBlock, h]

/-- R118: a failed cipher job that nothing in DCE has called for ends no other operation. -/
theorem dceBlockFailed_uncalled {s : State} (h : s.dce.phase = .idle) : dceBlockFailed s = s := by
  simp [dceBlockFailed, h]

/-- R112, R117: what a correct accelerator pushes for the job that AES_ECB_ENCRYPT builds. -/
theorem jobResult_jobOf (n : Nat) (key : KeyBits) (b : Block) :
    jobResult (jobOf n key b) = aes ((bytesOf 32 key).take n) b := rfl

/-- R111, R116: an AES_ECB_ENCRYPT on an idle machine answers the state in which its job has been released,
one row for each status read; the port trace has grown by the string of R116. -/
theorem exec_aesEcbEncrypt_of_drive {s u : State} {ks : BitVec 32} {as rest : List AccStatus} {st : Status}
    (hs : Quiet s) (hks : keySizeLegal ks = true) (hq : s.env.accStatusIn = as ++ rest)
    (h : drive as.length (aesStart ks.toNat s) = .next u) (hd : u.dce.phase = .idle)
    (he : u.ec = s.ec) (hb : u.bce = .idle)
    (htr : u.trace = (aesStart ks.toNat s).trace ++ as.map .accStatusRead ++
      [.accSoftreset, .accDisable, .ret opAes st]) :
    exec (.aesEcbEncrypt ks) s = .next u ∧ idle u = true ∧
      u.trace = s.trace ++ aesTrace ks as st := by
  have ⟨hstart, _⟩ := hs
  obtain ⟨_, hec, _, _⟩ := quiet_phase hs
  have hidle : idle u = true := idle_of hd (by rw [he, hec]) hb
  have hbudget : as.length ≤ budget (aesStart ks.toNat s) := by
    simp only [budget, queued, aesStart_env, hq, List.length_append]
    omega
  have hrun : run (aesStart ks.toNat s) = .next u :=
    run_of_drive h (canAdvance_of_idle hidle) hbudget
  refine ⟨?_, hidle, ?_⟩
  · simp [exec, execAesEcbEncrypt, hks, whenIdle, hstart, hrun]
  · simp [htr, aesTrace]

theorem keySizeLegal_iff {ks : BitVec 32} :
    keySizeLegal ks = true ↔ ks = 16 ∨ ks = 24 ∨ ks = 32 := by
  simp [keySizeLegal, or_assoc]

/-- Settles O29: the job is that of KEY and V, and the row that reads done releases it. -/
theorem aesEncryptsOneBlock : Obligations.AesEncryptsOneBlock := by
  intro s ks as rest hs hks hdone hq
  obtain ⟨hd, _⟩ := quiet_phase hs
  have hblock : blockOperand s = s.gen.v := by simp [blockOperand, hd]
  obtain ⟨u, hu, hgen, hdce, hb, _, hen, hjob, hrest, htr, hec, _⟩ :=
    drive_job_done (s := aesStart ks.toNat s) (j := jobOf ks.toNat s.gen.key s.gen.v) (by simp)
      (by simp [hblock]) hdone (by simpa using hq)
  have hdu : u.dce.phase = .idle := by simpa [hdce] using hd
  rw [dceBlock_uncalled hdu] at hu
  obtain ⟨hexec, hidle, htrace⟩ :=
    exec_aesEcbEncrypt_of_drive hs (keySizeLegal_iff.2 hks) hq hu hdu (by simpa using hec) hb htr
  exact ⟨u, hexec, hidle, by rw [hdce, jobResult_jobOf], htrace, hen, hjob, by simpa using hgen, hrest⟩

/-- Settles O30: the row that reads an error flag releases the job as one that reads done does, and no job
follows. -/
theorem aesFailsOnErrorFlag : Obligations.AesFailsOnErrorFlag := by
  intro s ks as rest hs hks herror hq
  obtain ⟨hd, _⟩ := quiet_phase hs
  obtain ⟨u, hu, hgen, hdce, hb, _, hen, hjob, hrest, htr, hec, _⟩ :=
    drive_job_error (s := aesStart ks.toNat s) (by simp) (by simp; rfl) herror (by simpa using hq)
  have hdu : u.dce.phase = .idle := by rw [hdce]; simpa using hd
  rw [dceBlockFailed_uncalled hdu] at hu
  obtain ⟨hexec, hidle, htrace⟩ :=
    exec_aesEcbEncrypt_of_drive hs (keySizeLegal_iff.2 hks) hq hu hdu (by simpa using hec) hb htr
  exact ⟨u, hexec, hidle, htrace, hen, hjob, by simpa using hgen, hrest⟩

/-! ## The frame (R110, R111) -/

theorem AesPolled.trans {a b c : State} (h : AesPolled a b) (h' : AesPolled b c) : AesPolled a c := by
  obtain ⟨hgen, ⟨_, hdce⟩, hec, hng, hhost, hout, htr⟩ := h
  obtain ⟨hgen', ⟨b', hdce'⟩, hec', hng', hhost', hout', htr'⟩ := h'
  exact ⟨hgen'.trans hgen, ⟨b', by rw [hdce', hdce]⟩, hec'.trans hec, hng'.trans hng,
    hhost'.trans hhost, hout'.trans hout, htr.trans htr'⟩

/-- R114: the submission touches the accelerator, JOB and the port trace. -/
theorem aesStart_polled (n : Nat) (s : State) : AesPolled s (aesStart n s) := by
  simp only [AesPolled, aesStart_gen, aesStart_dce, aesStart_ec, aesStart_ng, aesStart_host,
    aesStart_out, true_and]
  exact ⟨⟨s.dce.blk, rfl⟩, by simp⟩

/-- R115: with DCE and EC idle, every row is a status read and stays in its frame. -/
theorem tick_aesPolled {s t : State} (hd : s.dce.phase = .idle) (he : s.ec.phase = .idle)
    (h : tick s = .next t) : AesPolled s t := by
  rcases tick_rows h with ⟨_, hp, _⟩ | ⟨_, u, hp, _, _, hret⟩ | ⟨_, _, rfl⟩ | ⟨_, hne, _⟩ |
    ⟨_, hne, _⟩
  · exact hp
  · have ⟨_, ⟨b, hdu⟩, _⟩ := hp
    have hdu' : u.dce.phase = .idle := by rw [hdu]; exact hd
    rw [dceBlock_uncalled hdu', dceBlockFailed_uncalled hdu'] at hret
    rcases hret with hret | rfl
    · cases hret; exact hp
    · exact hp
  · simp only [dceRow, hd]
    exact ⟨rfl, ⟨s.dce.blk, rfl⟩, rfl, rfl, rfl, rfl, List.prefix_refl _⟩
  · exact absurd he hne
  · exact absurd he hne

/-- Settles O31: the submission and every row of an AES_ECB_ENCRYPT that nothing has called stay in the frame
of a status read. -/
theorem aesFrame : Obligations.AesFrame := by
  intro s t ks h
  simp only [exec, execAesEcbEncrypt] at h
  split at h
  · obtain ⟨hidle, hrun⟩ := whenIdle_next h
    obtain ⟨hd, he, _⟩ := idle_phases hidle
    have hpolled : AesPolled s t := by
      refine drive_keeps (fun u v hu hv => ?_) (aesStart_polled _ _) hrun
      have ⟨_, ⟨b, hdu⟩, heu, _⟩ := hu
      exact hu.trans (tick_aesPolled (by rw [hdu]; exact hd) (by rw [heu]; exact he) hv)
    obtain ⟨hgen, ⟨b, hdce⟩, hec, hng, hhost, hout, _⟩ := hpolled
    exact ⟨hgen, hec, hng, hhost, hout, by rw [hdce]⟩
  · cases h

end Sys2Proof.Machine

namespace Sys2Proof.Machine

open Sys2Proof.Claims

/-! # KEY, V and what is computed from them reach nothing but each other and OUT (R150, R183)

Two states are twins where they differ in nothing but secrets (`publicPart_eq_iff`). No operation looks at a
secret to decide what it does: each takes twins to twins (`Blind`), and this is closed under sequence and under
tests of what is public. So the rows, the runs, the instructions and the step are blind. -/

/-- R150: `s` with the secrets of `o` and the bytes of its OUT. -/
def withSecretsOf (o s : State) : State :=
  { s with
    gen := { s.gen with key := o.gen.key, v := o.gen.v }
    dce := { s.dce with blk := o.dce.blk, temp := o.dce.temp, vw := o.dce.vw, seed := o.dce.seed }
    acc := { s.acc with job := o.acc.job }
    job := { s.job with chain := o.job.chain, outBlock := o.job.outBlock }
    out := o.out }

/-- R41: the offsets of OUT that have been written, which are no secret; the bytes are. -/
def offsets (m : List Host.Cell) : List Nat := m.map Prod.fst

/-- R150: `s` and `t` differ in nothing but secrets. -/
def Twins (s t : State) : Prop :=
  t = withSecretsOf t s ∧ t.acc.job.map publicJob = s.acc.job.map publicJob ∧
    t.job.chain.map publicJob = s.job.chain.map publicJob ∧ offsets t.out = offsets s.out

theorem cleared_eq_iff {m n : List Host.Cell} :
    m.map (fun c => (c.1, (0 : Byte))) = n.map (fun c => (c.1, 0)) ↔ offsets m = offsets n := by
  have hcell : ∀ m : List Host.Cell,
      m.map (fun c => (c.1, (0 : Byte))) = (offsets m).map fun a => (a, 0) := fun m => by
    simp [offsets]
  have hinj : Function.Injective fun a : Nat => (a, (0 : Byte)) := fun a b h => by simpa using h
  rw [hcell, hcell, (List.map_injective_iff.2 hinj).eq_iff]

theorem publicPart_eq_iff {s t : State} : publicPart s = publicPart t ↔ Twins s t := by
  constructor
  · intro h
    simp only [publicPart, State.mk.injEq, GeneratorState.mk.injEq, Dce.mk.injEq, Acc.mk.injEq,
      JobSpace.mk.injEq, cleared_eq_iff] at h
    obtain ⟨⟨-, -, hctr, hinit⟩, ⟨hp, hctx, hsize, hdstv, hcur, hrem, -, -, -, -, hx⟩, hec, hbce, hng,
      ⟨hen, hf, hpu, hin, hjob, hst, hsr⟩, ⟨hchain, -, hord⟩, hhost, hout, htr, henv⟩ := h
    refine ⟨?_, hjob.symm, hchain.symm, hout.symm⟩
    simp only [withSecretsOf, hctr, hinit, hp, hctx, hsize, hdstv, hcur, hrem, hx, hec, hbce, hng, hen,
      hf, hpu, hin, hst, hsr, hord, hhost, htr, henv]
  · rintro ⟨ht, hjob, hchain, ho⟩
    rw [ht]
    simp only [publicPart, withSecretsOf, hjob, hchain, cleared_eq_iff.2 ho]

/-! ## What twins have in common -/

section
variable {s t : State} (h : Twins s t)
include h

theorem Twins.eq : t = withSecretsOf t s := by
  obtain ⟨heq, _⟩ := h
  exact heq

theorem Twins.ec : t.ec = s.ec := by rw [h.eq]; rfl
theorem Twins.ng : t.ng = s.ng := by rw [h.eq]; rfl
theorem Twins.bce : t.bce = s.bce := by rw [h.eq]; rfl
theorem Twins.host : t.host = s.host := by rw [h.eq]; rfl
theorem Twins.env : t.env = s.env := by rw [h.eq]; rfl
theorem Twins.phase : t.dce.phase = s.dce.phase := by rw [h.eq]; rfl
theorem Twins.ctx : t.dce.ctx = s.dce.ctx := by rw [h.eq]; rfl

theorem Twins.job : t.acc.job.map publicJob = s.acc.job.map publicJob := by
  obtain ⟨_, hjob, _⟩ := h
  exact hjob

theorem Twins.job_isSome : t.acc.job.isSome = s.acc.job.isSome := by
  simpa using congrArg Option.isSome h.job

theorem Twins.chain_isSome : t.job.chain.isSome = s.job.chain.isSome := by
  obtain ⟨_, _, hchain, _⟩ := h
  simpa using congrArg Option.isSome hchain

theorem Twins.idle : idle t = idle s := by simp [Machine.idle, h.phase, h.ec, h.bce]

end

/-! ## Operations that take twins to twins -/

/-- R150: an operation that looks at no secret. -/
def Blind (f : State → State) : Prop := ∀ s t, Twins s t → Twins (f s) (f t)

theorem Blind.comp {f g : State → State} (hg : Blind g) (hf : Blind f) : Blind fun s => g (f s) :=
  fun s t h => hg _ _ (hf s t h)

/-- A test of what is public. -/
theorem Blind.ite {c : State → Prop} [∀ s, Decidable (c s)] {f g : State → State}
    (hc : ∀ o s, c (withSecretsOf o s) ↔ c s) (hf : Blind f) (hg : Blind g) :
    Blind fun s => if c s then f s else g s := by
  intro s t h
  have hct : c t ↔ c s := by rw [h.eq]; exact hc t s
  simp only [hct]
  split
  · exact hf s t h
  · exact hg s t h

/-- An operation that leaves both copies of the job and OUT alone is blind where its effect outside the secrets
is computed from what is public. -/
theorem Blind.of_frame {f : State → State}
    (heq : ∀ o s, f (withSecretsOf o s) = withSecretsOf (f (withSecretsOf o s)) (f s) := by
      intros; rfl)
    (hjob : ∀ s, (f s).acc.job = s.acc.job := by intros; rfl)
    (hchain : ∀ s, (f s).job.chain = s.job.chain := by intros; rfl)
    (hout : ∀ s, (f s).out = s.out := by intros; rfl) : Blind f := by
  rintro s t ⟨ht, hj, hc, ho⟩
  refine ⟨?_, by rw [hjob, hjob, hj], by rw [hchain, hchain, hc], by rw [hout, hout, ho]⟩
  have := heq t s
  rwa [← ht] at this

theorem emit_blind (e : Event) : Blind (emit e) := .of_frame

/-! ## The accelerator and its jobs -/

theorem accStart_blind : Blind accStart := by
  rintro s t ⟨ht, _, hchain, hout⟩
  rw [ht]
  exact ⟨rfl, hchain, hchain, hout⟩

theorem accSoftreset_blind : Blind accSoftreset := by
  rintro s t ⟨ht, _, hchain, hout⟩
  rw [ht]
  exact ⟨rfl, rfl, hchain, hout⟩

/-- R112: what of a job is no secret is its key size. -/
theorem publicJob_jobOf (n : Nat) (key : KeyBits) (b : Block) :
    publicJob (jobOf n key b) =
      { mode := .ecb, keySource := .software, keySize := n, key := [], inBlock := 0 } := rfl

theorem buildJob_blind (n : Nat) : Blind (buildJob n) := by
  rintro s t ⟨ht, hjob, _, hout⟩
  rw [ht]
  exact ⟨rfl, hjob, by simp [publicJob_jobOf], hout⟩

theorem discardJob_blind : Blind discardJob := by
  rintro s t ⟨ht, hjob, _, hout⟩
  rw [ht]
  exact ⟨rfl, hjob, rfl, hout⟩

theorem accEnable_blind : Blind accEnable := .of_frame
theorem accDisable_blind : Blind accDisable := .of_frame
theorem accSetFetch_blind : Blind accSetFetch := .of_frame
theorem accSetPush_blind : Blind accSetPush := .of_frame
theorem accSetIndirect_blind : Blind accSetIndirect := .of_frame
theorem barrier_blind : Blind barrier := .of_frame

theorem aesStart_blind (n : Nat) : Blind (aesStart n) :=
  .comp (g := fun s => { s with bce := .poll }) .of_frame
    (accStart_blind.comp (barrier_blind.comp (accSetIndirect_blind.comp (accSetPush_blind.comp
      (accSetFetch_blind.comp (accEnable_blind.comp
        ((buildJob_blind n).comp (emit_blind _))))))))

/-- R117: the flags ACC shows are no secret. -/
theorem Twins.drawAccStatus {s t : State} (h : Twins s t) :
    (drawAccStatus t).1 = (drawAccStatus s).1 ∧
      (drawAccStatus t).2.env = (drawAccStatus s).2.env := by
  unfold Machine.drawAccStatus
  rw [h.env]
  cases s.env.accStatusIn <;> exact ⟨rfl, rfl⟩

/-- R26, R117, R125: what a status read answers is no secret; what stands in out_block after it is one. -/
theorem Twins.accStatusRead {s t : State} (h : Twins s t) :
    (accStatusRead t).1 = (accStatusRead s).1 ∧ Twins (accStatusRead s).2 (accStatusRead t).2 := by
  have hacc : t.acc = { s.acc with job := t.acc.job } := by rw [h.eq]; rfl
  obtain ⟨hflags, henv⟩ := h.drawAccStatus
  have ⟨ht, hjob, hchain, hout⟩ := h
  cases hj : s.acc.job with
  | none =>
    have hjt : t.acc.job = none := by simpa [hj] using hjob
    cases hr : s.acc.softresetDone with
    | true =>
      have hst : t.acc.status = s.acc.status := by rw [hacc]
      rw [accStatusRead_cleared hj hr, accStatusRead_cleared hjt (by rw [hacc]; exact hr), hst]
      exact ⟨rfl, emit_blind _ s t h⟩
    | false =>
      rw [accStatusRead_jobless hj hr, accStatusRead_jobless hjt (by rw [hacc]; exact hr), hflags, henv]
      refine ⟨rfl, ?_⟩
      rw [ht]
      exact ⟨rfl, hjob, hchain, hout⟩
  | some j =>
    obtain ⟨j', hjt, _⟩ : ∃ j', t.acc.job = some j' ∧ publicJob j' = publicJob j := by
      simpa [hj] using hjob
    have hdraws : (drawBlock (Machine.drawAccStatus t).2).2.env =
        (drawBlock (Machine.drawAccStatus s).2).2.env := by simp [henv]
    rw [accStatusRead_inFlight hj, accStatusRead_inFlight hjt, hflags, hdraws]
    refine ⟨rfl, ?_⟩
    rw [ht]
    exact ⟨rfl, hjob, hchain, hout⟩

theorem aesReturn_blind (st : Status) (b : Block) : Blind (aesReturn st b) :=
  (emit_blind _).comp (.comp (f := fun s => discardJob (accDisable (accSoftreset s)))
    (g := fun s => { s with bce := .idle, dce := { s.dce with blk := b } }) .of_frame
    (discardJob_blind.comp (accDisable_blind.comp accSoftreset_blind)))

theorem Twins.trans {a b c : State} (h : Twins a b) (h' : Twins b c) : Twins a c :=
  publicPart_eq_iff.1 ((publicPart_eq_iff.2 h).trans (publicPart_eq_iff.2 h'))

/-- R111: the block that AES_ECB_ENCRYPT returns is a secret. -/
theorem Twins.aesReturn {s t : State} (h : Twins s t) (st : Status) (b c : Block) :
    Twins (aesReturn st b s) (aesReturn st c t) :=
  have hblk : Twins (Machine.aesReturn st b s) (Machine.aesReturn st c s) := ⟨rfl, rfl, rfl, rfl⟩
  hblk.trans (aesReturn_blind st c s t h)

/-- R115: a poll iteration of AES_ECB_ENCRYPT answers the same for twins. -/
theorem Twins.aesPoll {s t : State} (h : Twins s t) :
    (aesPoll t).1 = (aesPoll s).1 ∧ Twins (aesPoll s).2 (aesPoll t).2 := by
  obtain ⟨hread, htwins⟩ := h.accStatusRead
  unfold Machine.aesPoll
  simp only [hread]
  cases classify (Machine.accStatusRead s).1 with
  | busy => exact ⟨rfl, htwins⟩
  | done => exact ⟨rfl, htwins.aesReturn _ _ _⟩
  | error =>
    have hdraw : Blind fun s => (drawBlock s).2 := .of_frame
    exact ⟨rfl, (hdraw _ _ htwins).aesReturn _ _ _⟩

/-! ## The rows of DCE -/

theorem respond_blind (st : Status) : Blind (respond st) := .of_frame

/-- R170: which failure path is taken, and what it writes to the trace, is no secret. -/
theorem raise_blind (st : Status) : Blind (raise st) :=
  .ite (fun _ _ => .rfl) .of_frame .of_frame

theorem dceGoto_blind (p : DcePhase) : Blind (dceGoto p) := .of_frame
theorem startReseed_blind : Blind startReseed := .of_frame
theorem startUpdate_blind (hasExtra : Bool) : Blind (startUpdate hasExtra) := .of_frame
theorem startOutput_blind : Blind startOutput := .of_frame

theorem dceCheck_blind : Blind dceCheck :=
  .ite (fun _ _ => .rfl) (raise_blind _) (.ite (fun _ _ => .rfl) (respond_blind _)
    (.ite (fun _ _ => .rfl) (dceGoto_blind _) .of_frame))

theorem dceReseedTest_blind : Blind dceReseedTest :=
  .ite (fun _ _ => .rfl) startReseed_blind startOutput_blind

theorem dceUpd_blind (k : Fin 3) : Blind (dceUpd k) :=
  (aesStart_blind 32).comp (f := fun s =>
    { s with dce := { s.dce with vw := inc128 (if k = 0 then s.gen.v else s.dce.vw) } }) .of_frame

theorem dceOut_blind : Blind dceOut :=
  .ite (fun _ _ => .rfl) (dceGoto_blind _) ((aesStart_blind 32).comp .of_frame)

theorem reseedReturn_blind (callers : List Ctx) : Blind (reseedReturn callers) := by
  match callers with
  | [] | .cReseed :: _ | .cGen :: _ | [.cInit] | .cInit :: _ :: _ => exact .of_frame

/-- R132: what UPDATE commits is a secret. -/
theorem Twins.writeKeyV {s t : State} (h : Twins s t) (k k' : KeyBits) (v v' : Block) :
    Twins { s with gen := { s.gen with key := k, v := v } }
      { t with gen := { t.gen with key := k', v := v' } } := by
  obtain ⟨ht, hjob, hchain, hout⟩ := h
  rw [ht]
  exact ⟨rfl, hjob, hchain, hout⟩

theorem dceCommit_blind : Blind dceCommit := by
  have hret : Blind fun s => emit (.ret opUpdate .ok) (releaseUpdate s) := .of_frame
  have hcount : Blind fun s =>
      dceGoto .resp { s with gen := { s.gen with reseedCtr := s.gen.reseedCtr + 1 } } := .of_frame
  have hidle : Blind toIdle := .of_frame
  intro s t h
  unfold dceCommit
  simp only [h.ctx]
  split
  · exact reseedReturn_blind _ _ _ (hret _ _ (h.writeKeyV _ _ _ _))
  · exact hcount _ _ (hret _ _ (h.writeKeyV _ _ _ _))
  · exact hidle _ _ (hret _ _ (h.writeKeyV _ _ _ _))

theorem dceRow_blind : Blind dceRow := by
  intro s t h
  unfold dceRow
  rw [h.phase]
  cases s.dce.phase with
  | idle => exact h
  | check => exact dceCheck_blind s t h
  | zero =>
    have hzero : Blind fun s => { s with gen := zeroedGen } := .of_frame
    exact startReseed_blind _ _ (hzero s t h)
  | seed =>
    have hstart : Blind (ecStart (BitVec.ofNat 32 Config.seedLen)) := .of_frame
    exact hstart s t h
  | upd k => exact dceUpd_blind k s t h
  | commit => exact dceCommit_blind s t h
  | reseedTest => exact dceReseedTest_blind s t h
  | out j => exact dceOut_blind s t h
  | final => exact startUpdate_blind false s t h
  | resp => exact respond_blind .ok s t h

/-! ## Where another engine returns to DCE -/

/-- R150: an operation that looks at no secret, where it may stop. -/
def BlindOutcome (f : State → Host.Outcome State Fault Refusal) : Prop :=
  ∀ s t s', Twins s t → f s = .next s' → ∃ t', f t = .next t' ∧ Twins s' t'

theorem BlindOutcome.next {f : State → State} (hf : Blind f) :
    BlindOutcome fun s => .next (f s) := by
  intro s t s' h hs
  cases hs
  exact ⟨_, rfl, hf s t h⟩

theorem BlindOutcome.andThen {f g : State → Host.Outcome State Fault Refusal} (hf : BlindOutcome f)
    (hg : BlindOutcome g) : BlindOutcome fun s => andThen (f s) g := by
  intro s t s' h hs
  obtain ⟨u, hu, hs⟩ := andThen_eq_next.1 hs
  obtain ⟨u', hu', h⟩ := hf s t u h hu
  simp only [hu', andThen_next]
  exact hg u u' s' h hs

theorem BlindOutcome.ite {c : State → Prop} [∀ s, Decidable (c s)]
    {f g : State → Host.Outcome State Fault Refusal} (hc : ∀ s t, Twins s t → (c t ↔ c s))
    (hf : BlindOutcome f) (hg : BlindOutcome g) : BlindOutcome fun s => if c s then f s else g s := by
  intro s t s' h hs
  by_cases hcs : c s
  · have hct : c t := (hc s t h).2 hcs
    simp only [hcs, hct, if_true] at hs ⊢
    exact hf s t s' h hs
  · have hct : ¬ c t := fun hct => hcs ((hc s t h).1 hct)
    simp only [hcs, hct, if_false] at hs ⊢
    exact hg s t s' h hs

theorem refused_blind (r : Refusal) : BlindOutcome fun _ => .refused r := by
  intro s t s' _ hs
  cases hs

/-- Where a byte is written is no secret. -/
theorem offsets_write {m n : List Host.Cell} (h : offsets m = offsets n) (a : Nat) (b c : Byte) :
    offsets (Memory.write m a b) = offsets (Memory.write n a c) := by
  induction m generalizing n with
  | nil =>
    cases n with
    | nil => rfl
    | cons y n => cases h
  | cons x m ih =>
    cases n with
    | nil => cases h
    | cons y n =>
      obtain ⟨hxy, hmn⟩ : x.1 = y.1 ∧ offsets m = offsets n := by simpa [offsets] using h
      have htail := ih hmn
      simp only [Memory.write, hxy]
      split
      · simpa [offsets] using hmn
      · split
        · simpa [offsets] using hmn
        · simpa [offsets] using htail

theorem offsets_writeBytes {m n : List Host.Cell} {bs cs : List Byte} (h : offsets m = offsets n)
    (hlen : bs.length = cs.length) (off : Nat) :
    offsets (Memory.writeBytes m off bs) = offsets (Memory.writeBytes n off cs) := by
  induction bs generalizing m n cs off with
  | nil =>
    cases cs with
    | nil => exact h
    | cons c cs => cases hlen
  | cons b bs ih =>
    cases cs with
    | nil => cases hlen
    | cons c cs => exact ih (offsets_write h off b c) (Nat.succ.inj hlen) (off + 1)

/-- R142: how many bytes of a block go to OUT, and where, is no secret. -/
theorem takeOutBlock_blind (j : Nat) : BlindOutcome (takeOutBlock j) := by
  intro s t s' h hs
  obtain ⟨hin, rfl⟩ := takeOutBlock_next hs
  have hlen : ∀ b b' : Block, ((bytesOf 16 b).take (chunk s.dce.rem)).length =
      ((bytesOf 16 b').take (chunk s.dce.rem)).length := by simp
  have hcur : t.dce.cur = s.dce.cur := by rw [h.eq]; rfl
  have hrem : t.dce.rem = s.dce.rem := by rw [h.eq]; rfl
  have hwritten : Twins
      { s with
        out := Memory.writeBytes s.out s.dce.cur.toNat
          ((bytesOf 16 s.dce.blk).take (chunk s.dce.rem)) }
      { t with
        out := Memory.writeBytes t.out t.dce.cur.toNat
          ((bytesOf 16 t.dce.blk).take (chunk t.dce.rem)) } := by
    rw [hcur, hrem]
    obtain ⟨ht, hjob, hchain, hout⟩ := h
    exact ⟨by rw [ht]; rfl, hjob, hchain, offsets_writeBytes hout (hlen _ _) _⟩
  have hgo : Blind fun s => dceGoto (.out (j + 1)) (releaseBlk { s with
      dce := { s.dce with
        cur := s.dce.cur + BitVec.ofNat 17 (chunk s.dce.rem)
        rem := s.dce.rem - BitVec.ofNat 17 (chunk s.dce.rem) } }) := .of_frame
  refine ⟨_, ?_, hgo _ _ hwritten⟩
  simp only [takeOutBlock]
  rw [outWrite_inside t (by rw [hcur, hrem, ← hlen s.dce.blk]; exact hin)]
  rfl

theorem dceBlock_blind : BlindOutcome dceBlock := by
  intro s t s' h hs
  unfold dceBlock at hs ⊢
  rw [h.phase]
  cases hp : s.dce.phase with
  | upd k =>
    rw [hp] at hs
    exact BlindOutcome.next (f := takeUpdBlock k) .of_frame s t s' h hs
  | out j =>
    rw [hp] at hs
    exact takeOutBlock_blind j s t s' h hs
  | _ =>
    rw [hp] at hs
    cases hs
    exact ⟨t, rfl, h⟩

theorem dceBlockFailed_blind : Blind dceBlockFailed := by
  intro s t h
  unfold dceBlockFailed
  rw [h.phase]
  split
  · exact raise_blind .fail s t h
  · exact raise_blind .fail s t h
  · exact h

theorem dceEntropy_blind (st : Status) : Blind (dceEntropy st) := by
  have hseed : Blind takeSeed := .of_frame
  intro s t h
  unfold dceEntropy
  rw [h.phase]
  split
  · cases st with
    | ok => exact startUpdate_blind true _ _ (hseed s t h)
    | fail | invalid => exact raise_blind .fail s t h
  · exact h

/-! ## The rows of EC -/

/-- R45: the state of EC, NG, the port trace and the environment in `s`, all else as in `o`. -/
def ecSideOf (s o : State) : State :=
  { o with ec := s.ec, ng := s.ng, trace := s.trace, env := s.env }

theorem ngFifoPop_ecSideOf (s o : State) :
    ngFifoPop (ecSideOf s o) = andThen (ngFifoPop s) fun a => .next (a.1, ecSideOf a.2 o) := by
  have hf : (ecSideOf s o).ng.fifo = s.ng.fifo := rfl
  unfold ngFifoPop
  rw [hf]
  cases s.ng.fifo <;> rfl

theorem loadKeyWord_ecSideOf (i : Fin 4) (s o : State) :
    loadKeyWord i (ecSideOf s o) = andThen (loadKeyWord i s) fun a => .next (ecSideOf a o) := by
  unfold loadKeyWord
  rw [ngFifoPop_ecSideOf]
  cases ngFifoPop s <;> rfl

theorem popWords_ecSideOf (n : Nat) (s o : State) :
    popWords n (ecSideOf s o) = andThen (popWords n s) fun a => .next (a.1, ecSideOf a.2 o) := by
  induction n generalizing s with
  | zero => rfl
  | succ n ih =>
    unfold popWords
    rw [ngFifoPop_ecSideOf]
    simp only [andThen_assoc, andThen_next, ih]

theorem ecKeyload_ecSideOf (s o : State) :
    ecKeyload (ecSideOf s o) = andThen (ecKeyload s) fun a => .next (ecSideOf a o) := by
  unfold ecKeyload
  simp only [andThen_assoc, andThen_next, loadKeyWord_ecSideOf]
  rfl

theorem ecDrain_ecSideOf (s o : State) :
    ecDrain (ecSideOf s o) = andThen (ecDrain s) fun a => .next (ecSideOf a o) := by
  have hn : drainCount (ecSideOf s o).ec.need (ecSideOf s o).ec.esize =
      drainCount s.ec.need s.ec.esize := rfl
  unfold ecDrain
  rw [hn, popWords_ecSideOf]
  simp only [andThen_assoc, andThen_next]
  rfl

theorem ecCheck_ecSideOf (s o : State) :
    ecCheck (ecSideOf s o) = ((ecCheck s).1, ecSideOf (ecCheck s).2 o) := by
  have he : (ecSideOf s o).ec.esize = s.ec.esize := rfl
  unfold ecCheck
  rw [he]
  split <;> rfl

theorem ngFsmRead_ecSideOf (s o : State) :
    ngFsmRead (ecSideOf s o) = ((ngFsmRead s).1, ecSideOf (ngFsmRead s).2 o) := by
  have henv : (ecSideOf s o).env = s.env := rfl
  unfold ngFsmRead drawFsm
  rw [henv]
  cases s.env.ngFsmIn <;> rfl

theorem ngLevelRead_ecSideOf (s o : State) :
    ngLevelRead (ecSideOf s o) = ((ngLevelRead s).1, ecSideOf (ngLevelRead s).2 o) := by
  have henv : (ecSideOf s o).env = s.env := rfl
  unfold ngLevelRead drawWords
  rw [henv]
  cases s.env.ngWordsIn <;> rfl

theorem ecPollReady_ecSideOf (s o : State) :
    ecPollReady (ecSideOf s o) = ecSideOf (ecPollReady s) o := by
  unfold ecPollReady
  rw [ngLevelRead_ecSideOf]
  rfl

theorem ecPoll_ecSideOf (s o : State) : ecPoll (ecSideOf s o) = ecSideOf (ecPoll s) o := by
  unfold ecPoll
  rw [ngFsmRead_ecSideOf]
  simp only
  cases (ngFsmRead s).1 with
  | ready =>
    exact ecPollReady_ecSideOf
      { (ngFsmRead s).2 with ec := { (ngFsmRead s).2.ec with obsFsm := .ready } } o
  | reset | startup | error => rfl

/-- R45, R102: a row of EC reads nothing else than EC's side of the state. -/
theorem ecRow_ecSideOf (s o : State) :
    ecRow (ecSideOf s o) = andThen (ecRow s) fun r => .next (r.1, ecSideOf r.2 o) := by
  have hp : (ecSideOf s o).ec.phase = s.ec.phase := rfl
  unfold ecRow
  rw [hp]
  cases s.ec.phase with
  | check => exact congrArg Host.Outcome.next (ecCheck_ecSideOf s o)
  | poll => simp [ecPoll_ecSideOf]
  | keyload => simp only [ecKeyload_ecSideOf, andThen_assoc, andThen_next]
  | drain => simp only [ecDrain_ecSideOf, andThen_assoc, andThen_next]
  | idle | enable | init | disable | resp => rfl

/-- R45, R150: twins stay twins where EC's side alone moves, and in both alike. -/
theorem Twins.ecSide {s t u : State} (h : Twins s t) (hu : u = ecSideOf u s) :
    Twins u (ecSideOf u t) := by
  obtain ⟨ht, hjob, hchain, hout⟩ := h
  rw [hu]
  exact ⟨by rw [ht]; rfl, hjob, hchain, hout⟩

theorem Twins.eq_ecSideOf {s t : State} (h : Twins s t) : t = ecSideOf s t := by
  rw [h.eq]; rfl

/-- R45: a row of EC takes twins to twins and answers the same. -/
theorem Twins.ecRow {s t u : State} {r : Option Status} (h : Twins s t)
    (hr : ecRow s = .next (r, u)) : ∃ u', ecRow t = .next (r, u') ∧ Twins u u' := by
  refine ⟨ecSideOf u t, by rw [h.eq_ecSideOf, ecRow_ecSideOf, hr]; rfl, h.ecSide ?_⟩
  obtain ⟨hgen, hdce, hbce, hacc, hjob, hhost, hout⟩ := ecRow_frame hr
  simp only [ecSideOf, ← hgen, ← hdce, ← hbce, ← hacc, ← hjob, ← hhost, ← hout]

/-- R21: an operation towards NG reads nothing else than EC's side of the state. -/
theorem exec_ngOp_ecSideOf {i : Instr} (hi : isNgOp i = true) (s o : State) :
    exec i (ecSideOf s o) = andThen (exec i s) fun a => .next (ecSideOf a o) := by
  cases i with
  | ngFsmRead => simp [exec, execNgFsmRead, ngFsmRead_ecSideOf]
  | ngLevelRead => simp [exec, execNgLevelRead, ngLevelRead_ecSideOf]
  | ngFifoPop => simp [exec, execNgFifoPop, ngFifoPop_ecSideOf, andThen_assoc]
  | ngEnable | ngDisable | ngReset | ngConfigure _ _ _ _ | ngKeySet _ _ | ngKeyRead _ => rfl
  | _ => cases hi

theorem exec_ngOp_blind {i : Instr} (hi : isNgOp i = true) : BlindOutcome (exec i) := by
  intro s t u h hu
  refine ⟨ecSideOf u t, by rw [h.eq_ecSideOf, exec_ngOp_ecSideOf hi, hu]; rfl, h.ecSide ?_⟩
  obtain ⟨ng, env, e, rfl⟩ := exec_ngOp_frame hi hu
  rfl

/-! ## Every row, every instruction, every step -/

theorem tickAes_blind : BlindOutcome tickAes := by
  intro s t s' h hs
  obtain ⟨hc, hpoll⟩ := h.aesPoll
  unfold tickAes at hs ⊢
  simp only [hc]
  cases hcase : (Machine.aesPoll s).1 with
  | busy => simp only [hcase] at hs; cases hs; exact ⟨_, rfl, hpoll⟩
  | done => simp only [hcase] at hs; exact dceBlock_blind _ _ _ hpoll hs
  | error => simp only [hcase] at hs; cases hs; exact ⟨_, rfl, dceBlockFailed_blind _ _ hpoll⟩

theorem tickEc_blind : BlindOutcome tickEc := by
  intro s t s' h hs
  obtain ⟨⟨r, u⟩, hr, hs⟩ := andThen_eq_next.1 hs
  obtain ⟨u', hu', h⟩ := h.ecRow hr
  simp only [tickEc, hu', andThen_next]
  cases r with
  | none => cases hs; exact ⟨u', rfl, h⟩
  | some st => cases hs; exact ⟨_, rfl, dceEntropy_blind st _ _ h⟩

theorem tick_blind : BlindOutcome tick := by
  intro s t s' h hs
  unfold tick at hs ⊢
  rw [h.bce, h.ec]
  split at hs
  · exact tickAes_blind s t s' h hs
  · split at hs
    · cases hs; exact ⟨_, rfl, dceRow_blind s t h⟩
    · exact tickEc_blind s t s' h hs

theorem Twins.canAdvance {s t : State} (h : Twins s t) : canAdvance t = canAdvance s := by
  simp only [Machine.canAdvance, h.idle, h.bce, h.ec, h.env, accAnswerQueued, h.job_isSome]

theorem drive_blind (n : Nat) : BlindOutcome (drive n) := by
  induction n with
  | zero => exact .next fun _ _ h => h
  | succ n ih =>
    exact .ite (fun _ _ h => by rw [h.canAdvance]) (tick_blind.andThen ih) (.next fun _ _ h => h)

theorem run_blind : BlindOutcome run := by
  intro s t s' h hs
  unfold run budget
  rw [h.env]
  exact drive_blind _ s t s' h hs

theorem whenIdle_blind {start : State → State} (hstart : Blind start) :
    BlindOutcome fun s => whenIdle s start := by
  refine .ite (fun _ _ h => by rw [h.idle]) ?_ (refused_blind _)
  exact fun s t s' h hs => run_blind _ _ s' (hstart s t h) hs

theorem execAccStart_blind : BlindOutcome execAccStart := by
  refine .ite (fun _ _ h => by rw [h.eq]; rfl) (refused_blind _)
    (.ite (fun s t h => ?_) (refused_blind _)
      (.ite (fun _ _ h => by rw [h.eq]; rfl) (refused_blind _) (.next accStart_blind)))
  have hacc : t.acc = { s.acc with job := t.acc.job } := by rw [h.eq]; rfl
  simp only [jobSubmitted, h.chain_isSome]
  rw [hacc]

/-- R150: no instruction looks at a secret. -/
theorem exec_blind (i : Instr) : BlindOutcome (exec i) := by
  cases i with
  | init => exact whenIdle_blind (start := startInit) .of_frame
  | getRandom dstv size => exact whenIdle_blind (start := startGetRandom dstv size) .of_frame
  | reseed => exact whenIdle_blind startReseed_blind
  | update hasExtra => exact whenIdle_blind (startUpdate_blind hasExtra)
  | getEntropy esize => exact whenIdle_blind (start := ecStart esize) .of_frame
  | aesEcbEncrypt keySize =>
    exact .ite (fun _ _ _ => .rfl) (whenIdle_blind (aesStart_blind _)) (refused_blind _)
  | ngEnable | ngDisable | ngReset | ngConfigure _ _ _ _ | ngFsmRead | ngKeySet _ _ | ngKeyRead _
  | ngLevelRead | ngFifoPop => exact exec_ngOp_blind rfl
  | accEnable => exact .next accEnable_blind
  | accDisable => exact .next accDisable_blind
  | accSetFetch addr => cases addr; exact .next accSetFetch_blind
  | accSetPush addr => cases addr; exact .next accSetPush_blind
  | accSetIndirect => exact .next accSetIndirect_blind
  | accStart => exact execAccStart_blind
  | accStatusRead =>
    refine .next fun s t h => ?_
    obtain ⟨_, htwins⟩ := h.accStatusRead
    exact htwins
  | accSoftreset => exact .next accSoftreset_blind
  | barrier => exact .next barrier_blind

theorem issueOne_blind (x : Issue) : BlindOutcome (issueOne x) := by
  cases x with
  | host w =>
    have hcmd : Blind fun s => { s with host := { s.host with cmd := w } } := .of_frame
    intro s t s' h hs
    simp only [issueOne, hostWrite] at hs ⊢
    cases hd : decodeHost w with
    | ok i => simp only [hd] at hs; exact exec_blind i _ _ s' (hcmd s t h) hs
    | error e =>
      simp only [hd] at hs
      exact BlindOutcome.next (f := rejectWord) .of_frame _ _ s' (hcmd s t h) hs
  | engine c =>
    intro s t s' h hs
    simp only [issueOne, engineIssue] at hs ⊢
    cases hd : decode c with
    | ok i => simp only [hd] at hs; exact exec_blind i _ _ s' h hs
    | error e => simp only [hd] at hs; cases hs

theorem step_blind : BlindOutcome step := by
  refine .ite (fun _ _ h => by rw [h.idle]) ?_ (tick_blind.andThen run_blind)
  intro s t s' h hs
  unfold issueNext at hs ⊢
  cases hq : s.host.issue with
  | nil =>
    have hqt : t.host.issue = [] := by rw [h.host, hq]
    simp only [hq, hqt] at hs ⊢
    cases hs; exact ⟨t, rfl, h⟩
  | cons x rest =>
    have hqt : t.host.issue = x :: rest := by rw [h.host, hq]
    have htake : Blind fun s => { s with host := { s.host with issue := rest } } := .of_frame
    simp only [hq, hqt] at hs ⊢
    exact issueOne_blind x _ _ s' (htake s t h) hs

/-- Settles O60: states with the same public part are twins, and the step takes twins to twins. -/
theorem secretsStayInside : Obligations.SecretsStayInside := by
  intro s t s' h hs
  obtain ⟨t', ht', h'⟩ := step_blind s t s' (publicPart_eq_iff.1 h) hs
  exact ⟨t', ht', publicPart_eq_iff.2 h'⟩

end Sys2Proof.Machine

namespace Sys2Proof.Machine

open Sys2Proof.Claims

/-! # The bytes of V, KEY and SEED (R47, R49, R131, R134) -/

/-- R8: byte i of an n-byte string. -/
theorem bytesOf_getElem? {n i : Nat} (b : BitVec w) (hi : i < n) :
    (bytesOf n b)[i]? = some (b.extractLsb' (8 * (n - 1 - i)) 8) := by
  simp [bytesOf, hi]

theorem bytesOf_getD {n i : Nat} (b : BitVec w) (hi : i < n) :
    (bytesOf n b).getD i 0 = b.extractLsb' (8 * (n - 1 - i)) 8 := by
  simp [List.getD_eq_getElem?_getD, bytesOf_getElem? b hi]

/-- One byte more at the end of a byte string. -/
theorem beValue_concat (bs : List Byte) (b : Byte) :
    beValue (bs ++ [b]) = beValue bs * 256 + b.toNat := by
  simp [beValue]

/-- R8: the first k of n bytes are the number without its n - k low bytes. -/
theorem beValue_take_bytesOf {n k : Nat} (b : BitVec w) (hw : w ≤ 8 * n) (hk : k ≤ n) :
    beValue ((bytesOf n b).take k) = b.toNat / 2 ^ (8 * (n - k)) := by
  induction k with
  | zero =>
    have hlt : b.toNat < 2 ^ (8 * n) := Nat.lt_of_lt_of_le b.isLt (Nat.pow_le_pow_right (by omega) hw)
    simp [beValue, Nat.div_eq_of_lt hlt]
  | succ k ih =>
    have hlast : b.toNat / 2 ^ (8 * (n - k)) = b.toNat / 2 ^ (8 * (n - (k + 1))) / 256 := by
      rw [Nat.div_div_eq_div_mul, show 8 * (n - k) = 8 * (n - (k + 1)) + 8 by omega, Nat.pow_add]
    rw [List.take_add_one, bytesOf_getElem? b (by omega), Option.toList_some, beValue_concat,
      ih (by omega), hlast, BitVec.extractLsb'_toNat, Nat.shiftRight_eq_div_pow,
      show n - 1 - k = n - (k + 1) by omega]
    exact Nat.div_add_mod' _ 256

theorem beValue_bytesOf {n : Nat} (b : BitVec (8 * n)) : beValue (bytesOf n b) = b.toNat := by
  have h := beValue_take_bytesOf b (Nat.le_refl _) (Nat.le_refl n)
  rw [List.take_of_length_le (by simp)] at h
  simpa using h

/-- Settles O32: the 16 bytes of V, byte 0 first, are its number. -/
theorem counterIncrementIsBigEndian : Obligations.CounterIncrementIsBigEndian := by
  intro v
  have hv : ∀ b : Block, beValue (bytesOf 16 b) = b.toNat := beValue_bytesOf (n := 16)
  rw [hv, hv, inc128, BitVec.toNat_add]
  rfl

/-- R49: n bytes of a byte string, with m bytes before them and k bytes after. -/
theorem bytesOf_extractLsb' (m n k : Nat) (b : BitVec w) :
    bytesOf n (b.extractLsb' (8 * k) (8 * n)) = ((bytesOf (m + n + k) b).drop m).take n := by
  apply List.ext_getElem?
  intro i
  by_cases hi : i < n
  · rw [List.getElem?_take_of_lt hi, List.getElem?_drop, bytesOf_getElem? _ hi,
      bytesOf_getElem? _ (by omega)]
    congr 1
    apply BitVec.eq_of_getLsbD_eq
    intro j hj
    simp only [BitVec.getLsbD_extractLsb', hj, decide_true, Bool.true_and,
      show 8 * (n - 1 - i) + j < 8 * n by omega]
    congr 1
    omega
  · rw [List.getElem?_eq_none (by simp; omega), List.getElem?_eq_none (by simp; omega)]

/-- Settles O35: a byte of an exclusive or, and the two slices of the 48 bytes. -/
theorem exclusiveOrByBytes : Obligations.ExclusiveOrByBytes := by
  refine fun temp extra => ⟨fun i hi => ?_, bytesOf_extractLsb' 0 32 16 temp, ?_⟩
  · rw [bytesOf_getElem? _ hi, bytesOf_getD _ hi, bytesOf_getD _ hi, updateValue, if_pos rfl,
      BitVec.extractLsb'_xor]
  · have h : bytesOf 16 (vPart temp) = ((bytesOf 48 temp).drop 32).take 16 :=
      bytesOf_extractLsb' 32 16 0 temp
    rw [h, List.take_of_length_le (by simp)]

end Sys2Proof.Machine

namespace Sys2Proof.Machine

open Sys2Proof.Claims

/-! # UPDATE and RESEED (R132 to R135) -/

/-! ## Runs that end, and the failure path -/

/-- Wherever a run has come to wait or to end, after however many rows, there `run` comes too. -/
theorem run_of_ended {s t : State} {n : Nat} (h : drive n s = .next t) (ht : canAdvance t = false) :
    run s = .next t := by
  rcases Nat.le_total n (budget s) with hn | hn
  · exact run_of_drive h ht hn
  · obtain ⟨k, rfl⟩ := Nat.le.dest hn
    rw [drive_add] at h
    obtain ⟨u, hu, hk⟩ := andThen_eq_next.1 h
    have hwaits : canAdvance u = false := runEndsOrWaits s u hu
    rw [drive_of_waiting hwaits] at hk
    cases hk
    exact hu

/-- An operation on an idle machine answers the idle state its rows lead to. -/
theorem whenIdle_of_drive {start : State → State} {s t : State} {n : Nat} (hs : Quiet s)
    (h : drive n (start s) = .next t) (ht : idle t = true) : whenIdle s start = .next t := by
  obtain ⟨hidle, _⟩ := hs
  rw [whenIdle, if_pos hidle, run_of_ended h (canAdvance_of_idle ht)]

theorem raise_idle (st : Status) {s : State} (hb : s.bce = .idle) (he : s.ec.phase = .idle) :
    idle (raise st s) = true := by
  obtain ⟨_, hp, _, hb', he', _⟩ := raise_frame st s
  exact idle_of hp (he'.trans he) (hb'.trans hb)

/-- R170: a host command that fails writes its status. -/
theorem raise_host_of_command (st : Status) {s : State} (h : ofHostCommand s.dce.ctx = true) :
    (raise st s).host = { s.host with status := statusWord st } := by
  simp [raise, h]

/-- R170: an operation issued by itself writes no status. -/
theorem raise_host_of_internal (st : Status) {s : State} (h : ofHostCommand s.dce.ctx = false) :
    (raise st s).host = s.host := by
  simp [raise, h]

@[simp] theorem raise_acc (st : Status) (s : State) : (raise st s).acc = s.acc := by
  obtain ⟨_, _, _, _, _, _, h, _⟩ := raise_frame st s
  exact h

@[simp] theorem raise_ng (st : Status) (s : State) : (raise st s).ng = s.ng := by
  obtain ⟨_, _, _, _, _, h, _⟩ := raise_frame st s
  exact h

@[simp] theorem raise_accStatusIn (st : Status) (s : State) :
    (raise st s).env.accStatusIn = s.env.accStatusIn := by
  unfold raise
  simp only
  split <;> simp

/-! R62: calls of RESEED and UPDATE count neither as calls of the cipher nor as calls of GET_ENTROPY. -/

@[simp] theorem opReseed_ne_opAes : opReseed ≠ opAes := by decide
@[simp] theorem opReseed_ne_opGetEntropy : opReseed ≠ opGetEntropy := by decide
@[simp] theorem opUpdate_ne_opAes : opUpdate ≠ opAes := by decide
@[simp] theorem opUpdate_ne_opGetEntropy : opUpdate ≠ opGetEntropy := by decide

/-! ## UPDATE issued by itself -/

/-- R132: the commit of an UPDATE that nothing has called ends it. -/
theorem dceCommit_gen_uncalled {s : State} {extra : Seed48} (h : s.dce.ctx = [])
    (hval : updateValue (tempBytes s.dce.temp) s.dce.seed s.dce.hasExtra =
      tempOf s.gen.key s.gen.v ^^^ extra) : (dceCommit s).gen = updated s.gen extra := by
  simp [dceCommit, h, hval, updated]

/-- Settles O33: three blocks, the commit, and no caller. -/
theorem updateReplacesKeyAndV : Obligations.UpdateReplacesKeyAndV := by
  intro s x as rest hs hd hq
  obtain ⟨_, he, hb, hctx⟩ := quiet_phase hs
  obtain ⟨u, tr, hu, hgen, hcu, _, _, hval, hbu, _, _, _, hrest, htr, hcalls, hec, _⟩ :=
    drive_update (s := startUpdate x s) hb he rfl hd hq
  have hcu' : u.dce.ctx = [] := by simpa [hctx] using hcu
  have hidle : idle (dceCommit u) = true :=
    idle_of (by simp [dceCommit, hcu']) (by simp [dceCommit, hcu', hec, he])
      (by simp [dceCommit, hcu', hbu])
  refine ⟨dceCommit u, whenIdle_of_drive hs hu hidle, hidle, ?_, ?_, ?_⟩
  · rw [dceCommit_gen_uncalled hcu' (by rw [hgen]; exact hval), hgen]
    rfl
  · simpa [dceCommit, hcu'] using hrest
  · simp [callCount_eq, dceCommit, hcu', htr, hcalls]

/-- R132, R133: whoever called UPDATE, its commit leaves the 48 bytes in KEY and V. -/
theorem dceCommit_keyV (s : State) :
    (dceCommit s).gen.key =
        keyPart (updateValue (tempBytes s.dce.temp) s.dce.seed s.dce.hasExtra) ∧
      (dceCommit s).gen.v =
        vPart (updateValue (tempBytes s.dce.temp) s.dce.seed s.dce.hasExtra) := by
  have hret : ∀ callers u, (reseedReturn callers u).gen.key = u.gen.key ∧
      (reseedReturn callers u).gen.v = u.gen.v := by
    intro callers u
    unfold reseedReturn
    simp only
    split
    · split <;> simp
    · simp
    · simp
  unfold dceCommit
  simp only
  split
  · exact hret _ _
  · simp
  · simp

/-- Settles O34: the failing call takes the failure path, which writes nothing of GeneratorState. -/
theorem updateFailureChangesNothing : Obligations.UpdateFailureChangesNothing := by
  refine ⟨fun s x k as er rest hs hk hd hr hq => ?_, fun s hb he hp => ?_⟩
  · obtain ⟨_, he, hb, hctx⟩ := quiet_phase hs
    obtain ⟨u, tr, j, hu, hgen, hpu, hcu, hbu, _, hacc, _, hrest, htr, hcalls, hec, _⟩ :=
      drive_update_failed (s := startUpdate x s) hb he rfl hk hd hr hq
    have hidle : idle (raise .fail u) = true := raise_idle _ hbu (by rw [hec]; exact he)
    have hcu' : u.dce.ctx = [] := by simpa [hctx] using hcu
    have hfail : failEvents u = [.ret opUpdate .fail] := by simp [failEvents, hpu, hcu']
    refine ⟨raise .fail u, whenIdle_of_drive hs hu hidle, hidle, by simpa using hgen,
      by simpa using hacc, by simpa using hrest, ?_, (startUpdate x s).trace ++ tr, ?_⟩
    · simp [callCount_eq, htr, hfail, hcalls]
    · rw [raise_trace, htr, hfail, List.append_assoc]; rfl
  · refine ⟨dceCommit s, ?_, dceCommit_keyV s⟩
    rw [tick_dce hb he, dceRow, hp]

/-! ## The frame of UPDATE -/

/-- R132: an UPDATE that nothing has called was issued in `s` and runs, or has ended, in `t`; this is what it
leaves alone. -/
def UpdateRuns (s t : State) : Prop :=
  (t.dce.phase = .idle ∨ t.dce.phase = .commit ∨ ∃ k, t.dce.phase = .upd k) ∧ t.dce.ctx = [] ∧
    t.gen.reseedCtr = s.gen.reseedCtr ∧ t.gen.initialized = s.gen.initialized ∧ t.ng = s.ng ∧
    t.ec = { s.ec with ebuf := t.ec.ebuf, estatus := t.ec.estatus } ∧ t.host = s.host ∧ t.out = s.out

theorem raise_updateRuns (st : Status) {s t : State} (h : UpdateRuns s t) :
    UpdateRuns s (raise st t) := by
  obtain ⟨_, hctx, hctr, hinit, hng, hec, hhost, hout⟩ := h
  have hraise : raise st t = toIdle { t with trace := t.trace ++ failEvents t } := by
    simp [raise, hctx, ofHostCommand]
  rw [hraise]
  refine ⟨.inl (by simp), by simp, hctr, hinit, hng, ?_, hhost, hout⟩
  rw [toIdle_ec, hec]
  rfl

theorem dceRow_updateRuns {s t : State} (h : UpdateRuns s t) : UpdateRuns s (dceRow t) := by
  have ⟨hp, hctx, hctr, hinit, hng, hec, hhost, hout⟩ := h
  rcases hp with hp | hp | ⟨k, hp⟩
  · simp only [dceRow, hp]; exact h
  · simp only [dceRow, hp, dceCommit, hctx]
    refine ⟨.inl (by simp), by simp, hctr, hinit, hng, ?_, hhost, hout⟩
    rw [toIdle_ec, emit_ec, releaseUpdate_ec, hec]
    rfl
  · simp only [dceRow, hp, dceUpd]
    exact ⟨.inr (.inr ⟨k, by simp⟩), by simpa using hctx, by simpa using hctr,
      by simpa using hinit, by simpa using hng, hec, by simpa using hhost, by simpa using hout⟩

theorem dceBlock_updateRuns {s t u : State} (h : UpdateRuns s t) (hu : dceBlock t = .next u) :
    UpdateRuns s u := by
  have ⟨hp, hctx, hctr, hinit, hng, hec, hhost, hout⟩ := h
  rcases dceBlock_cases hu with ⟨k, _, rfl⟩ | ⟨j, hj, _⟩ | rfl
  · refine ⟨.inr ?_, by simpa using hctx, by simpa using hctr, by simpa using hinit, by simpa using hng,
      by simpa using hec, by simpa using hhost, by simpa using hout⟩
    rcases afterUpd_cases k with ⟨k', hk⟩ | hk
    · exact .inr ⟨k', by simpa using hk⟩
    · exact .inl (by simpa using hk)
  · simp [hj] at hp
  · exact h

theorem tick_updateRuns {s t u : State} (he : s.ec.phase = .idle) (h : UpdateRuns s t)
    (hu : tick t = .next u) : UpdateRuns s u := by
  have ⟨hp, hctx, hctr, hinit, hng, hec, hhost, hout⟩ := h
  have het : t.ec.phase = .idle := by rw [hec]; exact he
  have polled : ∀ {v}, AesPolled t v → UpdateRuns s v := by
    rintro v ⟨hgv, ⟨b, hdv⟩, hecv, hngv, hhv, hov, _⟩
    unfold UpdateRuns
    rw [hgv, hdv, hecv, hngv, hhv, hov]
    exact h
  rcases tick_rows hu with ⟨_, hv, _⟩ | ⟨_, v, hv, _, _, hret | rfl⟩ | ⟨_, _, rfl⟩ | ⟨_, hne, _⟩ |
    ⟨_, hne, _⟩
  · exact polled hv
  · exact dceBlock_updateRuns (polled hv) hret
  · rcases dceBlockFailed_cases v with hf | hf <;> rw [hf]
    · exact raise_updateRuns _ (polled hv)
    · exact polled hv
  · exact dceRow_updateRuns h
  · exact absurd het hne
  · exact absurd het hne

/-- Settles O36: the start and every row of an UPDATE that nothing has called keep the frame. -/
theorem updateFrame : Obligations.UpdateFrame := by
  intro s t x hs h
  obtain ⟨_, he, _, hctx⟩ := quiet_phase hs
  obtain ⟨_, hrun⟩ := whenIdle_next h
  have hstart : UpdateRuns s (startUpdate x s) :=
    ⟨.inr (.inr ⟨0, rfl⟩), hctx, rfl, rfl, rfl, rfl, rfl, rfl⟩
  obtain ⟨_, _, hframe⟩ : UpdateRuns s t :=
    drive_keeps (fun _ _ hu hv => tick_updateRuns he hu hv) hstart hrun
  exact hframe

/-! ## RESEED issued by itself -/

/-- R135: the commit of the UPDATE of a RESEED that nothing has called ends both. -/
theorem dceCommit_gen_reseed {s : State} {seed : Seed48} (h : s.dce.ctx = [.cReseed])
    (hval : updateValue (tempBytes s.dce.temp) s.dce.seed s.dce.hasExtra =
      tempOf s.gen.key s.gen.v ^^^ seed) : (dceCommit s).gen = reseeded s.gen seed := by
  simp [dceCommit, reseedReturn, h, hval, updated, reseeded]

/-- Settles O37: the entropy, three blocks, the commit, and no caller. -/
theorem reseedMixesFreshEntropy : Obligations.ReseedMixesFreshEntropy := by
  intro s ks ws as rest hs ha hd hq
  obtain ⟨_, he, hb, hctx⟩ := quiet_phase hs
  obtain ⟨u, tr, hu, hgen, hcu, _, _, hval, hbu, heu, _, _, _, _, _, hrest, htr, hent, haes⟩ :=
    drive_reseed (s := startReseed s) hb he rfl ha hd hq
  have hcu' : u.dce.ctx = [.cReseed] := by simpa [hctx] using hcu
  have hidle : idle (dceCommit u) = true :=
    idle_of (by simp [dceCommit, reseedReturn, hcu']) (by simp [dceCommit, reseedReturn, hcu', heu])
      (by simp [dceCommit, reseedReturn, hcu', hbu])
  refine ⟨dceCommit u, whenIdle_of_drive hs hu hidle, hidle, ?_, ?_, ?_, ?_⟩
  · rw [dceCommit_gen_reseed hcu' (by rw [hgen]; exact hval), hgen]
    rfl
  · simpa [dceCommit, reseedReturn, hcu'] using hrest
  · simp [callCount_eq, dceCommit, reseedReturn, hcu', htr, hent]
  · simp [callCount_eq, dceCommit, reseedReturn, hcu', htr, haes]

/-- Settles O38: the failing call ends UPDATE and RESEED, and no status is written for either. -/
theorem reseedFailureKeepsGenerator : Obligations.ReseedFailureKeepsGenerator := by
  intro s ks ws k as er rest hs ha hk hd hr hq
  obtain ⟨_, he, hb, hctx⟩ := quiet_phase hs
  obtain ⟨u, tr, j, hu, hgen, hpu, hcu, hbu, heu, _, hhost, _, _, _, _, htr, hent⟩ :=
    drive_reseed_failed (s := startReseed s) hb he rfl ha hk hd hr hq
  have hcu' : u.dce.ctx = [.cReseed] := by simpa [hctx] using hcu
  have hidle : idle (raise .fail u) = true := raise_idle _ hbu heu
  have hfail : failEvents u = [.ret opUpdate .fail, .ret opReseed .fail] := by
    simp [failEvents, hpu, hcu']
  refine ⟨raise .fail u, whenIdle_of_drive hs hu hidle, hidle, by simpa using hgen, ?_, ?_,
    (startReseed s).trace ++ tr, ?_⟩
  · rw [raise_host_of_internal _ (by rw [hcu']; rfl), hhost]
    rfl
  · simp [callCount_eq, htr, hfail, hent]
  · rw [raise_trace, htr, hfail, List.append_assoc]; rfl

/-! ## The frames of RESEED and INIT -/

/-- R16, R135, R136: the phases and contexts of a RESEED with no caller, or with INIT as its only one. -/
def SeedPhase (callers : List Ctx) (s : State) : Prop :=
  match s.dce.phase with
  | .idle => s.dce.ctx = []
  | .zero => s.dce.ctx = callers ∧ callers = [.cInit]
  | .seed | .upd _ | .commit =>
    s.dce.ctx = .cReseed :: callers ∧ (callers = [] ∨ callers = [.cInit])
  | .resp => callers = [.cInit]
  | .check | .reseedTest | .out _ | .final => False

/-- R130, R135, R136: from `s` such an operation runs, or has ended, in `t`; this is what it leaves alone. -/
def SeedRuns (callers : List Ctx) (s t : State) : Prop :=
  SeedPhase callers t ∧ t.out = s.out ∧
    (callers = [] → t.gen.initialized = s.gen.initialized ∧ t.host = s.host)

/-- R135: a RESEED with no caller runs for no host command. -/
theorem SeedPhase.internal {s : State} (h : SeedPhase [] s) : ofHostCommand s.dce.ctx = false := by
  cases hp : s.dce.phase <;> simp [SeedPhase, hp] at h <;> simp [h, ofHostCommand]

theorem raise_seedRuns (st : Status) {callers : List Ctx} {s t : State} (h : SeedRuns callers s t) :
    SeedRuns callers s (raise st t) := by
  obtain ⟨hphase, hout, hkept⟩ := h
  obtain ⟨_, hp, hctx, _⟩ := raise_frame st t
  refine ⟨by simp [SeedPhase, hp, hctx], by simpa using hout, ?_⟩
  rintro rfl
  obtain ⟨hinit, hhost⟩ := hkept rfl
  exact ⟨by simpa using hinit, (raise_host_of_internal st hphase.internal).trans hhost⟩

/-- R135, R136: RESEED returns to INIT, or to nobody. -/
theorem dceCommit_seedRuns {callers : List Ctx} {s t : State} (hp : t.dce.phase = .commit)
    (h : SeedRuns callers s t) : SeedRuns callers s (dceCommit t) := by
  obtain ⟨hphase, hout, hkept⟩ := h
  obtain ⟨hctx, hcallers⟩ : t.dce.ctx = .cReseed :: callers ∧ _ := by simpa [SeedPhase, hp] using hphase
  refine ⟨?_, (dceCommit_out t).trans hout, ?_⟩
  · rcases hcallers with rfl | rfl <;> simp [dceCommit, hctx, reseedReturn, SeedPhase]
  · rintro rfl
    simpa [dceCommit, hctx, reseedReturn] using hkept rfl

theorem dceRow_seedRuns {callers : List Ctx} {s t : State} (h : SeedRuns callers s t) :
    SeedRuns callers s (dceRow t) := by
  have ⟨hphase, hout, hkept⟩ := h
  unfold dceRow
  unfold SeedPhase at hphase
  cases hp : t.dce.phase <;> rw [hp] at hphase <;> simp only at hphase
  case idle => exact h
  case zero =>
    obtain ⟨hctx, rfl⟩ := hphase
    exact ⟨by simp [SeedPhase, hctx], by simpa using hout, by simp⟩
  case seed => exact ⟨by simpa [SeedPhase, hp] using hphase, by simpa using hout, by simpa using hkept⟩
  case upd k =>
    exact ⟨by simpa [SeedPhase, hp, dceUpd] using hphase, by simpa [dceUpd] using hout,
      by simpa [dceUpd] using hkept⟩
  case commit => exact dceCommit_seedRuns hp h
  case resp =>
    subst hphase
    exact ⟨by simp [SeedPhase], by simpa using hout, by simp⟩

theorem dceBlock_seedRuns {callers : List Ctx} {s t u : State} (h : SeedRuns callers s t)
    (hu : dceBlock t = .next u) : SeedRuns callers s u := by
  have ⟨hphase, hout, hkept⟩ := h
  rcases dceBlock_cases hu with ⟨k, hp, rfl⟩ | ⟨j, hp, _⟩ | rfl
  · refine ⟨?_, by simpa using hout, by simpa using hkept⟩
    rcases afterUpd_cases k with ⟨k', hk⟩ | hk <;> simpa [SeedPhase, hp, hk] using hphase
  · simp [SeedPhase, hp] at hphase
  · exact h

theorem dceEntropy_seedRuns (st : Status) {callers : List Ctx} {s t : State}
    (h : SeedRuns callers s t) : SeedRuns callers s (dceEntropy st t) := by
  have ⟨hphase, hout, hkept⟩ := h
  rcases dceEntropy_cases st t with ⟨hp, hcall | hcall⟩ | hcall <;> rw [hcall]
  · exact ⟨by simpa [SeedPhase, hp] using hphase, by simpa using hout, by simpa using hkept⟩
  · exact raise_seedRuns _ h
  · exact h

theorem tick_seedRuns {callers : List Ctx} {s t u : State} (h : SeedRuns callers s t)
    (hu : tick t = .next u) : SeedRuns callers s u := by
  have polled : ∀ {v}, AesPolled t v → SeedRuns callers s v := by
    rintro v ⟨hgen, ⟨b, hdce⟩, _, _, hhost, hout, _⟩
    unfold SeedRuns SeedPhase
    rw [hgen, hdce, hhost, hout]
    exact h
  have ecRun : ∀ {r v}, ecRow t = .next (r, v) → SeedRuns callers s v := by
    intro r v hr
    obtain ⟨hgen, hdce, _, _, _, hhost, hout⟩ := ecRow_frame hr
    unfold SeedRuns SeedPhase
    rw [hgen, hdce, hhost, hout]
    exact h
  rcases tick_rows hu with ⟨_, hv, _⟩ | ⟨_, v, hv, _, _, hret | rfl⟩ | ⟨_, _, rfl⟩ | ⟨_, _, hr⟩ |
    ⟨_, _, st, v, hr, rfl⟩
  · exact polled hv
  · exact dceBlock_seedRuns (polled hv) hret
  · rcases dceBlockFailed_cases v with hf | hf <;> rw [hf]
    · exact raise_seedRuns _ (polled hv)
    · exact polled hv
  · exact dceRow_seedRuns h
  · exact ecRun hr
  · exact dceEntropy_seedRuns st (ecRun hr)

/-- Settles O39: with no caller, every row of the run keeps the frame. -/
theorem reseedFrame : Obligations.ReseedFrame := by
  intro s t hs h
  obtain ⟨_, _, _, hctx⟩ := quiet_phase hs
  obtain ⟨_, hrun⟩ := whenIdle_next h
  have hstart : SeedRuns [] s (startReseed s) := ⟨by simp [SeedPhase, hctx], rfl, fun _ => ⟨rfl, rfl⟩⟩
  obtain ⟨_, hout, hkept⟩ : SeedRuns [] s t :=
    drive_keeps (fun _ _ => tick_seedRuns) hstart hrun
  obtain ⟨hinit, hhost⟩ := hkept rfl
  exact ⟨hinit, hhost, hout⟩

/-- Settles O42: every row of the run leaves OUT, the host port, and until the end STATUS. -/
theorem initFrame : Obligations.InitFrame := by
  intro s t hs h
  obtain ⟨_, he, _⟩ := quiet_phase hs
  obtain ⟨_, hrun⟩ := whenIdle_next h
  have hstart : SeedRuns [.cInit] s (startInit s) := ⟨by simp [SeedPhase], rfl, by simp⟩
  obtain ⟨_, hout, _⟩ : SeedRuns [.cInit] s t :=
    drive_keeps (fun _ _ => tick_seedRuns) hstart hrun
  obtain ⟨hissue, hcmd⟩ : HostKept s t := drive_keeps (fun _ _ hu hv => hu.trans (tick_host hv))
    (show HostKept s (startInit s) from ⟨rfl, rfl⟩) hrun
  obtain ⟨_, hst⟩ : StatusKept s t := drive_keeps (fun _ _ => StatusKept.tick)
    (show StatusKept s (startInit s) from ⟨fun _ => he, .inr rfl⟩) hrun
  exact ⟨hcmd, hissue, hout, fun hbusy => hst.resolve_left (by simp [hbusy])⟩

end Sys2Proof.Machine

namespace Sys2Proof.Machine

open Sys2Proof.Claims

/-! # INIT and GET_RANDOM (R136 to R146) -/

/-! ## INIT -/

/-- R136: the first row of INIT zeroes GeneratorState and calls RESEED. -/
theorem drive_startInit {s : State} (hs : Quiet s) (n : Nat) :
    drive (n + 1) (startInit s) = drive n (dceZero (startInit s)) := by
  obtain ⟨_, he, hb, _⟩ := quiet_phase hs
  exact drive_dce (s := startInit s) hb he (by simp) (by simp [dceRow]) n

/-- R136: the commit of the UPDATE of an INIT of its own seeds the generator, and INIT ends with success. -/
theorem dceCommit_init {s : State} {seed : Seed48} (h : s.dce.ctx = [.cReseed, .cInit])
    (hval : updateValue (tempBytes s.dce.temp) s.dce.seed s.dce.hasExtra =
      tempOf s.gen.key s.gen.v ^^^ seed) :
    (dceCommit s).gen = { reseeded s.gen seed with initialized := true } ∧
      (dceCommit s).dce.phase = .resp := by
  simp [dceCommit, reseedReturn, h, hval, updated, reseeded]

/-- Settles O40: INIT zeroes, reseeds and responds. -/
theorem initSeedsFromZero : Obligations.InitSeedsFromZero := by
  intro s ks ws as rest hs ha hd hq
  obtain ⟨_, he, hb, hctx⟩ := quiet_phase hs
  obtain ⟨u, tr, hu, hgen, hcu, _, _, hval, hbu, heu, _, _, _, _, _, hrest, htr, hent, haes⟩ :=
    drive_reseed (s := dceZero (startInit s)) hb he rfl ha hd hq
  rw [← hgen] at hval
  obtain ⟨hg, hp⟩ := dceCommit_init hcu hval
  have hcu' : u.dce.ctx = [.cReseed, .cInit] := hcu
  obtain ⟨w, hw⟩ : ∃ w, w = dceCommit u := ⟨_, rfl⟩
  have hbw : w.bce = .idle := by simp [hw, dceCommit, reseedReturn, hcu', hbu]
  have hew : w.ec.phase = .idle := by simp [hw, dceCommit, reseedReturn, hcu', heu]
  rw [← hw] at hg hp hu
  have hrun : drive (as.length + 14 + 1 + 1) (startInit s) = .next (respond .ok w) := by
    rw [drive_startInit hs, drive_add (as.length + 14) 1, hu, andThen_next,
      drive_dce hbw hew (by simp [hp]) (t := respond .ok w) (by simp [dceRow, hp])]
    rfl
  have hidle : idle (respond .ok w) = true :=
    idle_of (by simp) (by simpa using hew) (by simpa using hbw)
  refine ⟨_, whenIdle_of_drive hs hrun hidle, hidle, ?_, by simp [statusWord], ?_, ?_, ?_⟩
  · rw [respond_gen, hg, hgen]; rfl
  · simpa [hw, dceCommit, reseedReturn, hcu'] using hrest
  · simp [callCount_eq, hw, dceCommit, reseedReturn, hcu', htr, hent]
  · simp [callCount_eq, hw, dceCommit, reseedReturn, hcu', htr, haes]

/-- R136, R180: an INIT whose seeding fails, whoever called it: the failure path of the host command leaves
the zeroed generator. -/
theorem drive_zero_failed {s : State} {ks ws : List Word} {k : Nat} {as er rest : List AccStatus}
    (hb : s.bce = .idle) (he : s.ec.phase = .idle) (hp : s.dce.phase = .zero)
    (hctx : ofHostCommand s.dce.ctx = true) (ha : EntropyAnswers s.env 48 ks ws) (hk : k < 3)
    (hd : JobsDone k as) (hr : JobError er) (hq : s.env.accStatusIn = as ++ er ++ rest) :
    ∃ t n, drive n s = .next t ∧ idle t = true ∧ t.gen = zeroedGen ∧ t.host.status = 0xFFFFFFFF ∧
      t.out = s.out ∧ ModulesOff t := by
  obtain ⟨u, tr, j, hu, hgen, _, hcu, hbu, heu, hng, _, hout, hacc, _⟩ :=
    drive_reseed_failed (s := dceZero s) hb he rfl ha hk hd hr hq
  have hcmd : ofHostCommand u.dce.ctx = true := by
    rw [hcu]; simpa [ofHostCommand] using hctx
  have hrun : drive (as.length + k + er.length + 11 + 1) s = .next (raise .fail u) := by
    rw [drive_dce hb he (by simp [hp]) (t := dceZero s) (by simp [dceRow, hp]), hu]
  exact ⟨raise .fail u, _, hrun, raise_idle _ hbu heu, by rw [raise_gen, hgen]; rfl,
    by simp [raise_host_of_command _ hcmd, statusWord], by rw [raise_out, hout]; rfl,
    by simpa using hacc, by simpa using hng⟩

/-- R140: the check of a request with output on a generator that is not initialized calls INIT. -/
def lazyInit (size : BitVec 32) (s : State) : State :=
  { startGetRandom true size s with
    dce := { (startGetRandom true size s).dce with phase := .zero, ctx := [.cInit, .cGen] } }

theorem drive_lazyInit {s : State} {size : BitVec 32} (hs : Quiet s) (hi : s.gen.initialized = false)
    (h0 : 0 < size.toNat) (hsz : size.toNat ≤ 65536) (n : Nat) :
    drive (n + 1) (startGetRandom true size s) = drive n (lazyInit size s) := by
  obtain ⟨_, he, hb, _⟩ := quiet_phase hs
  have hne : size ≠ 0#32 := by rintro rfl; simp at h0
  refine drive_dce (s := startGetRandom true size s) hb he (by simp) ?_ n
  simp [dceRow, dceCheck, startGetRandom, dceGoto, lazyInit, hne, hi, invalidRequest_of_le hsz]

/-- Settles O41: both forms of INIT reach D_ZERO, and RESEED fails from there. -/
theorem initFailureLeavesZero : Obligations.InitFailureLeavesZero := by
  intro s ks ws k as er rest hs ha hk hd hr hq
  obtain ⟨_, he, hb, _⟩ := quiet_phase hs
  refine ⟨?_, fun size hi h0 hsz => ?_⟩
  · obtain ⟨t, n, hrun, hidle, hend⟩ :=
      drive_zero_failed (s := startInit s) hb he rfl rfl ha hk hd hr hq
    exact ⟨t, whenIdle_of_drive hs hrun hidle, hidle, hend⟩
  · obtain ⟨t, n, hrun, hidle, hend⟩ :=
      drive_zero_failed (s := lazyInit size s) hb he rfl rfl ha hk hd hr hq
    rw [← drive_lazyInit hs hi h0 hsz] at hrun
    exact ⟨t, whenIdle_of_drive hs hrun hidle, hidle, hend⟩

/-! ## Requests that end at their check (R138, R139) -/

/-- R138, R139: a request that its check answers ends there, and nothing but STATUS and the working registers
has changed. -/
theorem exec_getRandom_checked {s t : State} {dstv : Bool} {size : BitVec 32} (hs : Quiet s)
    (h : dceCheck (startGetRandom dstv size s) = t) (ht : t.dce.phase = .idle)
    (he : t.ec.phase = s.ec.phase) (hb : t.bce = s.bce) :
    exec (.getRandom dstv size) s = .next t ∧ idle t = true := by
  obtain ⟨_, hes, hbs, _⟩ := quiet_phase hs
  have hidle : idle t = true := idle_of ht (he.trans hes) (hb.trans hbs)
  have hrun : drive 1 (startGetRandom dstv size s) = .next t := by
    exact drive_dce (s := startGetRandom dstv size s) hbs hes (by simp) (by simp [dceRow, h]) 0
  exact ⟨whenIdle_of_drive hs hrun hidle, hidle⟩

/-- Settles O43: the check raises invalid input, which the failure path of a host command answers. -/
theorem invalidRequestTouchesNothing : Obligations.InvalidRequestTouchesNothing := by
  refine ⟨fun s dstv size hs hbad => ?_, by decide, by decide⟩
  have hinvalid : invalidRequest dstv size = true := by
    rcases hbad with ⟨h0, hd⟩ | hbig
    · simp [invalidRequest, h0, hd]
    · simp [invalidRequest, Config.maxRequestBytes, hbig]
  have hcheck : dceCheck (startGetRandom dstv size s) =
      respond .invalid (startGetRandom dstv size s) := by
    simp [dceCheck, hinvalid, raise, ofHostCommand, failEvents]
    rfl
  obtain ⟨hexec, hidle⟩ := exec_getRandom_checked hs hcheck (by simp) (by simp) (by simp)
  exact ⟨_, hexec, hidle, by simp [statusWord]⟩

/-- Settles O44: the check answers a request of size 0 with success. -/
theorem zeroSizeRequestSucceeds : Obligations.ZeroSizeRequestSucceeds := by
  intro s dstv hs
  have hvalid : invalidRequest dstv 0#32 = false := by simp [invalidRequest]
  have hcheck : dceCheck (startGetRandom dstv 0 s) = respond .ok (startGetRandom dstv 0 s) := by
    simp [dceCheck, hvalid]
  obtain ⟨hexec, hidle⟩ := exec_getRandom_checked hs hcheck (by simp) (by simp) (by simp)
  exact ⟨_, hexec, hidle, by simp [statusWord]⟩

end Sys2Proof.Machine

namespace Sys2Proof.Machine

open Sys2Proof.Claims

/-! # Requests with output (R137, R141 to R146) -/

/-- The rows of a run, and then those that follow. -/
theorem drive_trans {m n : Nat} {s u : State} {o : Host.Outcome State Fault Refusal}
    (h : drive m s = .next u) (h' : drive n u = o) : drive (m + n) s = o := by
  rw [drive_add, h, andThen_next, h']

/-! ## How a request comes to its output loop -/

/-- R142: the request of `size` bytes that was issued in `s` has come to the start of its output loop in `v`. -/
def ReachesOutput (size : BitVec 32) (s v : State) : Prop :=
  (∃ n, drive n (startGetRandom true size s) = .next v) ∧ v.bce = .idle ∧ v.ec.phase = .idle ∧
    v.dce.phase = .out 0 ∧ v.dce.ctx = [.cGen] ∧ v.dce.cur.toNat = 0 ∧ v.dce.rem.toNat = size.toNat

/-- R142: REM holds the size of any request that is no violation. -/
theorem rem_of_size {size : BitVec 32} (hsz : size.toNat ≤ 65536) :
    (size.setWidth 17).toNat = size.toNat := by
  rw [BitVec.toNat_setWidth]
  omega

/-- R141: below the threshold an initialized generator goes there at once. -/
theorem reachesOutput_plain {s : State} {size : BitVec 32} (hs : Quiet s)
    (hi : s.gen.initialized = true) (hctr : s.gen.reseedCtr.toNat + 1 < 2 ^ 48)
    (h0 : 0 < size.toNat) (hsz : size.toNat ≤ 65536) :
    ∃ v, ReachesOutput size s v ∧ v.gen = s.gen ∧ v.out = s.out ∧ v.env = s.env ∧ v.ng = s.ng ∧
      v.trace = s.trace := by
  obtain ⟨_, he, hb, _⟩ := quiet_phase hs
  exact ⟨startOutput (dceGoto .reseedTest (startGetRandom true size s)),
    ⟨⟨2, drive_startOutput hb he hi hctr h0 hsz 0⟩, hb, he, rfl, rfl, rfl, rem_of_size hsz⟩,
    rfl, rfl, rfl, rfl, rfl⟩

/-- R140, R141: a request that seeds first goes there with the generator its seeding left. -/
theorem reachesOutput_seeded {s : State} {size : BitVec 32} {ks ws : List Word}
    {as rest : List AccStatus} (hs : Quiet s) (hseeds : SeedsFirst s.gen) (h0 : 0 < size.toNat)
    (hsz : size.toNat ≤ 65536) (ha : EntropyAnswers s.env 48 ks ws) (hd : JobsDone 3 as)
    (hq : s.env.accStatusIn = as ++ rest) :
    ∃ v, ReachesOutput size s v ∧ v.gen = seededFirst s.gen (seedOf ws) ∧ v.out = s.out ∧
      v.env.accStatusIn = rest ∧ v.ng.enabled = false := by
  obtain ⟨_, he, hb, _⟩ := quiet_phase hs
  obtain ⟨v, n, _, hv, hgen, hp, hctx, hcur, hrem, hbv, hev, hng, hout, hrest⟩ :=
    drive_seeds_first hb he hseeds h0 hsz ha hd hq
  exact ⟨v, ⟨⟨n, hv⟩, hbv, hev, hp, hctx, hcur, hrem⟩, hgen, hout, hrest, hng⟩

/-- R141: the reseed test of a request at the threshold calls RESEED. -/
theorem drive_threshold {s : State} {size : BitVec 32} (hs : Quiet s)
    (hi : s.gen.initialized = true) (hctr : 2 ^ 48 ≤ s.gen.reseedCtr.toNat + 1) (h0 : 0 < size.toNat)
    (hsz : size.toNat ≤ 65536) (n : Nat) :
    drive (n + 2) (startGetRandom true size s) =
      drive n (startReseed (dceGoto .reseedTest (startGetRandom true size s))) := by
  obtain ⟨_, he, hb, _⟩ := quiet_phase hs
  have hdue : reseedDue s.gen.reseedCtr = true := decide_eq_true hctr
  rw [drive_dce (n := n + 1) (s := startGetRandom true size s) hb he (by simp)
      (dceCheck_startGetRandom hi h0 hsz)]
  exact drive_dce (s := dceGoto .reseedTest (startGetRandom true size s)) hb he (by simp)
    (by simp [dceRow, dceReseedTest, hdue]) n

/-- R141, R146: a request at the threshold goes to its output loop through one RESEED. -/
theorem reachesOutput_threshold {s : State} {size : BitVec 32} {ks ws : List Word}
    {as rest : List AccStatus} (hs : Quiet s) (hi : s.gen.initialized = true)
    (hctr : 2 ^ 48 ≤ s.gen.reseedCtr.toNat + 1) (h0 : 0 < size.toNat) (hsz : size.toNat ≤ 65536)
    (ha : EntropyAnswers s.env 48 ks ws) (hd : JobsDone 3 as) (hq : s.env.accStatusIn = as ++ rest) :
    ∃ v, ReachesOutput size s v ∧ v.gen = reseeded s.gen (seedOf ws) ∧ v.env.accStatusIn = rest ∧
      callCount opGetEntropy v = callCount opGetEntropy s + 1 ∧
      callCount opAes v = callCount opAes s + 3 := by
  obtain ⟨_, he, hb, _⟩ := quiet_phase hs
  obtain ⟨u, tr, hu, hgen, hcu, hsize, _, hval, hbu, heu, _, _, _, _, _, hrest, htr, hent, haes⟩ :=
    drive_reseed (s := startReseed (dceGoto .reseedTest (startGetRandom true size s))) hb he rfl ha hd hq
  have hcu' : u.dce.ctx = [.cReseed, .cGen] := hcu
  have hsize' : u.dce.size = size := hsize
  rw [← hgen] at hval
  refine ⟨dceCommit u, ⟨⟨_, (drive_threshold hs hi hctr h0 hsz _).trans hu⟩, ?_, ?_, ?_, ?_, ?_, ?_⟩,
    ?_, ?_, ?_, ?_⟩
  · simp [dceCommit, reseedReturn, hcu', hbu]
  · simp [dceCommit, reseedReturn, hcu', heu]
  · simp [dceCommit, reseedReturn, hcu']
  · simp [dceCommit, reseedReturn, hcu']
  · simp [dceCommit, reseedReturn, hcu']
  · simpa [dceCommit, reseedReturn, hcu', hsize'] using rem_of_size hsz
  · simp [dceCommit, reseedReturn, hcu', hval, hgen, updated, reseeded]
  · simpa [dceCommit, reseedReturn, hcu'] using hrest
  · simp [callCount_eq, dceCommit, reseedReturn, hcu', htr, hent]
  · simp [callCount_eq, dceCommit, reseedReturn, hcu', htr, haes]

/-! ## How it ends -/

/-- R142, R143: on jobs that all end done the request succeeds. -/
theorem ReachesOutput.delivers {size : BitVec 32} {s v : State} {as rest : List AccStatus}
    (hv : ReachesOutput size s v) (hs : Quiet s) (hsz : size.toNat ≤ 65536)
    (hd : JobsDone (blocks size + 3) as) (hq : v.env.accStatusIn = as ++ rest) :
    ∃ t, exec (.getRandom true size) s = .next t ∧ idle t = true ∧ t.host.status = 0 ∧
      t.gen = generated v.gen (blocks size) ∧
      (∀ i, i < size.toNat → Memory.read t.out i = some (streamByte v.gen.key v.gen.v i)) ∧
      (∀ i, size.toNat ≤ i → Memory.read t.out i = Memory.read v.out i) ∧
      t.env.accStatusIn = rest ∧ t.ng = v.ng ∧
      callCount opAes t = callCount opAes v + (blocks size + 3) ∧
      callCount opGetEntropy t = callCount opGetEntropy v := by
  obtain ⟨⟨n, hn⟩, hb, he, hp, hctx, hcur, hrem⟩ := hv
  obtain ⟨t, tr, ht, hidle, hhost, hgen, hbytes, hkept, hrest, hng, htr, haes, hent⟩ :=
    drive_generate hb he hp hcur hrem hsz hctx hd hq
  refine ⟨t, whenIdle_of_drive hs (drive_trans hn ht) hidle, hidle, by rw [hhost], hgen, hbytes, hkept,
    hrest, hng, ?_, ?_⟩
  · rw [callCount_eq, htr, callsIn_append, haes]; rfl
  · rw [callCount_eq, htr, callsIn_append, hent]; rfl

/-- R144, R175: a request whose rows lead to the failure path ends with STATUS -1. -/
theorem exec_getRandom_failed {size : BitVec 32} {s u : State} {n : Nat} (hs : Quiet s)
    (h : drive n (startGetRandom true size s) = .next (raise .fail u)) (hb : u.bce = .idle)
    (he : u.ec.phase = .idle) (hctx : ofHostCommand u.dce.ctx = true) :
    exec (.getRandom true size) s = .next (raise .fail u) ∧ idle (raise .fail u) = true ∧
      (raise .fail u).host.status = 0xFFFFFFFF := by
  have hidle : idle (raise .fail u) = true := raise_idle _ hb he
  exact ⟨whenIdle_of_drive hs h hidle, hidle, by simp [raise_host_of_command _ hctx, statusWord]⟩

/-- R144: the cipher call of output block j fails. -/
theorem ReachesOutput.block_fails {size : BitVec 32} {s v : State} {j : Nat}
    {as er rest : List AccStatus} (hv : ReachesOutput size s v) (hs : Quiet s)
    (hsz : size.toNat ≤ 65536) (hj : j < blocks size) (hd : JobsDone j as) (hr : JobError er)
    (hq : v.env.accStatusIn = as ++ er ++ rest) :
    ∃ t, exec (.getRandom true size) s = .next t ∧ idle t = true ∧ t.host.status = 0xFFFFFFFF ∧
      t.gen = { v.gen with v := v.gen.v + BitVec.ofNat 128 (j + 1) } ∧
      (∀ i, i < 16 * j → Memory.read t.out i = some (streamByte v.gen.key v.gen.v i)) ∧
      (∀ i, 16 * j ≤ i → Memory.read t.out i = Memory.read v.out i) ∧
      t.acc.enabled = false ∧ t.acc.job = none ∧ t.ng = v.ng := by
  obtain ⟨⟨n, hn⟩, hb, he, hp, hctx, hcur, hrem⟩ := hv
  obtain ⟨u, hu, hgen, hcu, hbu, hen, hjob, hbytes, hkept, hec, hng, _⟩ :=
    drive_output_failed hb he hp hcur hrem hsz hj hd hr hq
  obtain ⟨hexec, hidle, hst⟩ :=
    exec_getRandom_failed hs (drive_trans hn hu) hbu (by rw [hec]; exact he) (by rw [hcu, hctx]; rfl)
  exact ⟨_, hexec, hidle, hst, by simpa using hgen, by simpa using hbytes, by simpa using hkept,
    by simpa using hen, by simpa using hjob, by simpa using hng⟩

/-- R144: the cipher call k of the trailing UPDATE fails. -/
theorem ReachesOutput.update_fails {size : BitVec 32} {s v : State} {k : Nat}
    {as er rest : List AccStatus} (hv : ReachesOutput size s v) (hs : Quiet s)
    (hsz : size.toNat ≤ 65536) (hk : k < 3) (hd : JobsDone (blocks size + k) as) (hr : JobError er)
    (hq : v.env.accStatusIn = as ++ er ++ rest) :
    ∃ t, exec (.getRandom true size) s = .next t ∧ idle t = true ∧ t.host.status = 0xFFFFFFFF ∧
      t.gen = { v.gen with v := v.gen.v + BitVec.ofNat 128 (blocks size) } ∧
      (∀ i, i < size.toNat → Memory.read t.out i = some (streamByte v.gen.key v.gen.v i)) ∧
      (∀ i, size.toNat ≤ i → Memory.read t.out i = Memory.read v.out i) ∧
      t.acc.enabled = false ∧ t.ng = v.ng := by
  obtain ⟨⟨n, hn⟩, hb, he, hp, hctx, hcur, hrem⟩ := hv
  obtain ⟨u, hu, hgen, hcu, hbu, hen, _, hbytes, hkept, hec, hng, _⟩ :=
    drive_trailing_failed hb he hp hcur hrem hsz hk hd hr hq
  obtain ⟨hexec, hidle, hst⟩ :=
    exec_getRandom_failed hs (drive_trans hn hu) hbu (by rw [hec]; exact he) (by rw [hcu, hctx]; rfl)
  exact ⟨_, hexec, hidle, hst, by rw [raise_gen, hgen]; rfl, by simpa using hbytes, by simpa using hkept,
    by simpa using hen, by simpa using hng⟩

/-! ## The statements -/

/-- Settles O45: the loop begins at once, and all its jobs end done. -/
theorem getRandomDelivers : Obligations.GetRandomDelivers := by
  intro s size as rest hs hi hctr h0 hsz hd hq
  obtain ⟨v, hv, hgen, hout, henv, hng, htr⟩ := reachesOutput_plain hs hi hctr h0 hsz
  have h := hv.delivers hs hsz hd (by rw [henv]; exact hq)
  simpa only [hgen, hout, hng, callCount_eq, htr] using h

theorem size_pos_of_block {size : BitVec 32} {j : Nat} (hj : j < blocks size) : 0 < size.toNat := by
  simp only [blocks, ceilDiv] at hj
  omega

/-- Settles O46: from the start of the loop, which the request reaches with or without seeding, j blocks are
delivered and the next job fails. -/
theorem outputBlockFailure : Obligations.OutputBlockFailure := by
  refine ⟨fun s size j as er rest hs hi hctr hsz hj hd hr hq => ?_,
    fun s size j ks ws as er rest g hs hseeds hg hsz hj ha hd hr hq => ?_⟩
  · obtain ⟨v, hv, hgen, hout, henv, _⟩ := reachesOutput_plain hs hi hctr (size_pos_of_block hj) hsz
    obtain ⟨t, hexec, hidle, hst, htg, hbytes, hkept, hen, hjob, _⟩ :=
      hv.block_fails hs hsz hj hd hr (by rw [henv]; exact hq)
    rw [hgen] at htg hbytes
    rw [hout] at hkept
    exact ⟨t, hexec, hidle, hst, htg, hbytes, hkept, hen, hjob⟩
  · obtain ⟨bs, cs, hbs, hcs, rfl⟩ := jobsDone_add hd
    obtain ⟨v, hv, hgen, hout, hrest, hng⟩ := reachesOutput_seeded hs hseeds (size_pos_of_block hj) hsz ha
      hbs (rest := cs ++ er ++ rest) (by simpa using hq)
    obtain ⟨t, hexec, hidle, hst, htg, hbytes, hkept, hen, hjob, hngt⟩ :=
      hv.block_fails hs hsz hj hcs hr hrest
    rw [hgen, ← hg] at htg hbytes
    rw [hout] at hkept
    exact ⟨t, hexec, hidle, hst, htg, hbytes, hkept, ⟨hen, by rw [hngt]; exact hng⟩, hjob⟩

/-- Settles O47: from the start of the loop, which the request reaches with or without seeding, all blocks
are delivered and a job of the trailing UPDATE fails. -/
theorem trailingUpdateFailure : Obligations.TrailingUpdateFailure := by
  refine ⟨fun s size k as er rest hs hi hctr h0 hsz hk hd hr hq => ?_,
    fun s size k ks ws as er rest g hs hseeds hg h0 hsz hk ha hd hr hq => ?_⟩
  · obtain ⟨v, hv, hgen, hout, henv, _⟩ := reachesOutput_plain hs hi hctr h0 hsz
    obtain ⟨t, hexec, hidle, hst, htg, hbytes, hkept, _⟩ :=
      hv.update_fails hs hsz hk hd hr (by rw [henv]; exact hq)
    rw [hgen] at htg hbytes
    rw [hout] at hkept
    exact ⟨t, hexec, hidle, hst, htg, hbytes, hkept⟩
  · rw [Nat.add_assoc] at hd
    obtain ⟨bs, cs, hbs, hcs, rfl⟩ := jobsDone_add hd
    obtain ⟨v, hv, hgen, hout, hrest, hng⟩ := reachesOutput_seeded hs hseeds h0 hsz ha
      hbs (rest := cs ++ er ++ rest) (by simpa using hq)
    obtain ⟨t, hexec, hidle, hst, htg, hbytes, hkept, hen, hngt⟩ :=
      hv.update_fails hs hsz hk hcs hr hrest
    rw [hgen, ← hg] at htg hbytes
    rw [hout] at hkept
    exact ⟨t, hexec, hidle, hst, htg, hbytes, hkept, hen, by rw [hngt]; exact hng⟩

/-- Settles O48: the request goes to its loop through one RESEED, or RESEED fails before it. -/
theorem thresholdRequestReseedsFirst : Obligations.ThresholdRequestReseedsFirst := by
  intro s size ks ws hs hi hctr h0 hsz ha
  refine ⟨fun as rest hd hq => ?_, fun k as er rest hk hd hr hq => ?_⟩
  · rw [show blocks size + 6 = 3 + (blocks size + 3) by omega] at hd
    obtain ⟨bs, cs, hbs, hcs, rfl⟩ := jobsDone_add hd
    obtain ⟨v, hv, hgen, hrest, hent, haes⟩ := reachesOutput_threshold hs hi hctr h0 hsz ha hbs
      (rest := cs ++ rest) (by simpa using hq)
    obtain ⟨t, hexec, hidle, hst, htg, hbytes, _, _, _, haest, hentt⟩ := hv.delivers hs hsz hcs hrest
    rw [hgen] at htg hbytes
    exact ⟨t, hexec, hidle, hst, htg, by rw [htg]; rfl, hbytes, hentt.trans hent, by omega⟩
  · obtain ⟨_, he, hb, _⟩ := quiet_phase hs
    obtain ⟨u, tr, j, hu, hgen, _, hcu, hbu, heu, hng, _, hout, hen, _⟩ :=
      drive_reseed_failed (s := startReseed (dceGoto .reseedTest (startGetRandom true size s))) hb he rfl
        ha hk hd hr hq
    obtain ⟨hexec, hidle, hst⟩ := exec_getRandom_failed hs
      ((drive_threshold hs hi hctr h0 hsz _).trans hu) hbu heu (by rw [hcu]; rfl)
    exact ⟨_, hexec, hidle, hst, by simpa using hgen, by simpa using hout, by simpa using hen,
      by simpa using hng⟩

end Sys2Proof.Machine

namespace Sys2Proof.Machine

open Sys2Proof.Claims

/-! # A request that initializes the generator, and INIT before the request (R140)

Two simulations in sequence. While the seeding runs, the INIT inside the request is the explicit INIT with the
request behind it in its context (`asRequest`). Once it has returned, the two requests agree on all that their
phases still read (`SameRequest`): explicit INIT has drawn more free values, and none of them is read. -/

/-! ## Runs that follow one another -/

/-- Where every row of one run is followed by rows of another, the runs stay related. -/
theorem drive_follows {R : State → State → Prop}
    (hR : ∀ a b a', R a b → canAdvance a = true → tick a = .next a' →
      ∃ m b', drive m b = .next b' ∧ R a' b') {n : Nat} {a b a' : State} (h : R a b)
    (hn : drive n a = .next a') : ∃ m b', drive m b = .next b' ∧ R a' b' := by
  induction n generalizing a b with
  | zero => cases hn; exact ⟨0, b, rfl, h⟩
  | succ n ih =>
    unfold drive at hn
    split at hn
    · next hc =>
      obtain ⟨u, hu, hn⟩ := andThen_eq_next.1 hn
      obtain ⟨m, v, hv, huv⟩ := hR a b u h hc hu
      obtain ⟨k, b', hb', h'⟩ := ih huv hn
      exact ⟨m + k, b', drive_trans hv hb', h'⟩
    · cases hn; exact ⟨0, b, rfl, h⟩

/-- One row of a run. -/
theorem drive_one {s t : State} (hc : canAdvance s = true) (h : tick s = .next t) :
    drive 1 s = .next t := drive_succ hc h 0

/-! ## The seeding -/

/-- R140: `s` with a GET_RANDOM of `size` bytes as the outermost caller. -/
def asRequest (size : BitVec 32) (s : State) : State :=
  { s with dce := { s.dce with ctx := s.dce.ctx ++ [.cGen], size := size, dstv := true } }

theorem asRequest_startInit (size : BitVec 32) (s : State) :
    asRequest size (startInit s) = lazyInit size s := rfl

/-- R136: an INIT is seeding the generator, which is not initialized before its commit. -/
def Initializes (s : State) : Prop :=
  match s.dce.phase with
  | .zero => s.dce.ctx = [.cInit]
  | .seed | .upd _ | .commit => s.dce.ctx = [.cReseed, .cInit] ∧ s.gen.initialized = false
  | .idle | .check | .reseedTest | .out _ | .final | .resp => False

/-! ## Requests that agree on all that is still read -/

/-- R142, R143: two requests agree on what every phase reads. -/
def SameRun (a b : State) : Prop :=
  b.gen = a.gen ∧ b.acc = a.acc ∧ b.out = a.out ∧ b.trace = a.trace ∧
    b.env.accStatusIn = a.env.accStatusIn ∧ b.bce = a.bce ∧ a.ec.phase = .idle ∧ b.ec.phase = .idle ∧
    b.dce.phase = a.dce.phase ∧ b.dce.ctx = a.dce.ctx

/-- R132: the first k blocks of TEMP. -/
def TempAgrees (k : Nat) (a b : State) : Prop :=
  ∀ i (hi : i < 3), i < k → b.dce.temp[i] = a.dce.temp[i]

/-- R142, R143: two requests that need not reseed agree on the working registers their phase still reads. -/
def SameScratch (a b : State) : Prop :=
  match a.dce.phase with
  | .idle => a.bce = .idle ∧ b.host.status = a.host.status
  | .reseedTest =>
    a.bce = .idle ∧ a.dce.ctx = [.cGen] ∧ b.dce.size = a.dce.size ∧ reseedDue a.gen.reseedCtr = false
  | .out _ => a.dce.ctx = [.cGen] ∧ b.dce.cur = a.dce.cur ∧ b.dce.rem = a.dce.rem
  | .final | .resp => a.bce = .idle ∧ a.dce.ctx = [.cGen]
  | .upd k =>
    a.dce.ctx = [.cGen] ∧ a.dce.hasExtra = false ∧ b.dce.hasExtra = false ∧ TempAgrees k a b ∧
      (0 < k.val ∨ a.bce = .poll → b.dce.vw = a.dce.vw)
  | .commit =>
    a.bce = .idle ∧ a.dce.ctx = [.cGen] ∧ a.dce.hasExtra = false ∧ b.dce.hasExtra = false ∧
      TempAgrees 3 a b
  | .check | .zero | .seed => False

/-- R142, R143: two requests that need not reseed agree on all that they still read. -/
def SameRequest (a b : State) : Prop := SameRun a b ∧ SameScratch a b

theorem SameRequest.canAdvance {a b : State} (h : SameRequest a b) : canAdvance b = canAdvance a := by
  obtain ⟨⟨_, hacc, _, _, hq, hb, he, he', hp, _⟩, _⟩ := h
  simp [Machine.canAdvance, idle, accAnswerQueued, hacc, hq, hb, he, he', hp]

/-! ### The rows of DCE -/

/-- R28: both end with the same status. -/
theorem respond_sameRequest (st : Status) {a b : State} (h : SameRun a b) (hbce : a.bce = .idle) :
    SameRequest (respond st a) (respond st b) := by
  obtain ⟨hgen, hacc, hout, htr, hq, hb, he, he', hp, hc⟩ := h
  simp [SameRequest, SameRun, SameScratch, hgen, hacc, hout, htr, hq, hb, he, he', hbce]

/-- R144, R170: both fail alike. -/
theorem raise_sameRequest {a b : State} (h : SameRun a b) (hbce : a.bce = .idle)
    (hctx : a.dce.ctx = [.cGen]) :
    SameRequest (raise .fail a) (raise .fail b) := by
  have ⟨hgen, hacc, hout, htr, hq, hb, he, he', hp, hc⟩ := h
  have hcb : b.dce.ctx = [.cGen] := hc.trans hctx
  have hfail : failEvents b = failEvents a := by simp only [failEvents, hp, hc]
  have hraise : ∀ s : State, s.dce.ctx = [.cGen] →
      raise .fail s = respond .fail { s with trace := s.trace ++ failEvents s } := fun s hs => by
    simp [raise, hs, ofHostCommand]
  rw [hraise a hctx, hraise b hcb]
  exact respond_sameRequest _
    ⟨hgen, hacc, hout, by simp only [htr, hfail], hq, hb, he, he', hp, hc⟩ hbce

/-- R147: a row of DCE, in both. -/
theorem dceRow_sameRequest {a b : State} (h : SameRequest a b) (hb : a.bce = .idle) :
    SameRequest (dceRow a) (dceRow b) := by
  obtain ⟨hrun, hscratch⟩ := h
  have ⟨hgen, hacc, hout, htr, hq, hbce, he, he', hp, hc⟩ := hrun
  unfold dceRow
  rw [hp]
  unfold SameScratch at hscratch
  cases hpa : a.dce.phase <;> rw [hpa] at hscratch <;> simp only at hscratch
  case idle => exact ⟨hrun, by simpa [SameScratch, hpa] using hscratch⟩
  case reseedTest =>
    obtain ⟨_, hctx, hsize, hdue⟩ := hscratch
    simp [SameRequest, SameRun, SameScratch, dceReseedTest, hgen, hacc, hout, htr, hq, hbce, he, he', hc,
      hctx, hsize, hdue]
  case out j =>
    obtain ⟨hctx, hcur, hrem⟩ := hscratch
    simp only [dceOut, hrem]
    split
    · simp [SameRequest, SameRun, SameScratch, hgen, hacc, hout, htr, hq, hbce, he, he', hc, hctx, hb]
    · simp [SameRequest, SameRun, SameScratch, hgen, hacc, hout, htr, hq, he, he', hc, hctx, hpa, hp, hcur,
        hrem, blockOperand]
  case final =>
    obtain ⟨_, hctx⟩ := hscratch
    simp [SameRequest, SameRun, SameScratch, TempAgrees, hgen, hacc, hout, htr, hq, hbce, he, he', hc, hctx,
      hb]
  case upd k =>
    obtain ⟨hctx, hx, hx', htemp, hvw⟩ := hscratch
    have hv : (if k = 0 then b.gen.v else b.dce.vw) = if k = 0 then a.gen.v else a.dce.vw := by
      split
      · rw [hgen]
      · exact hvw (.inl (by omega))
    simp only [dceUpd, hv]
    simp [SameRequest, SameRun, SameScratch, TempAgrees, hgen, hacc, hout, htr, hq, he, he', hc, hctx, hpa,
      hp, blockOperand, hx, hx']
    exact htemp
  case commit =>
    obtain ⟨_, hctx, hx, hx', htemp⟩ := hscratch
    have ht : b.dce.temp = a.dce.temp := Vector.ext fun i hi => htemp i hi hi
    simp [SameRequest, SameRun, SameScratch, dceCommit, updateValue, hgen, hacc, hout, htr, hq, hbce, he,
      he', hc, hctx, hb, hx, hx', ht]
  case resp => exact respond_sameRequest _ hrun hb

/-! ### The rows that read a status -/

/-- R115: a row that finds its status answer queued is a status read that goes on, or it hands DCE the cipher
output of the job, or its failure. -/
theorem tick_polled {s : State} {j : Job} {st : AccStatus} {rest : List AccStatus} (hb : s.bce = .poll)
    (hj : s.acc.job = some j) (hq : s.env.accStatusIn = st :: rest) :
    tick s = match classify st with
      | .busy => .next (accStatusRead s).2
      | .done => dceBlock (aesReturn .ok (jobResult j) (accStatusRead s).2)
      | .error => .next (dceBlockFailed (aesReturn .fail (drawBlock (accStatusRead s).2).1
          (drawBlock (accStatusRead s).2).2)) := by
  have hread := accStatusRead_cons hj hq
  unfold tick
  rw [hb]
  simp only [tickAes, aesPoll, hread]
  cases classify st <;> simp [pushedBlock]

/-- A status read of the same job on the same answers. -/
theorem SameRun.read {a b : State} {j : Job} {st : AccStatus} {rest : List AccStatus} (h : SameRun a b)
    (hj : a.acc.job = some j) (hq : a.env.accStatusIn = st :: rest) :
    SameRun (accStatusRead a).2 (accStatusRead b).2 := by
  obtain ⟨hgen, hacc, hout, htr, hqb, hb, he, he', hp, hc⟩ := h
  rw [accStatusRead_cons hj hq, accStatusRead_cons (by rw [hacc]; exact hj) (hqb.trans hq)]
  simp [SameRun, hgen, hacc, hout, htr, hb, he, he', hp, hc]

theorem SameRun.drawn {a b : State} (h : SameRun a b) : SameRun (drawBlock a).2 (drawBlock b).2 := h

/-- The release of the job, whatever BLK is left to hold. -/
theorem SameRun.aesReturn {a b : State} (h : SameRun a b) (st : Status) (x y : Block) :
    SameRun (aesReturn st x a) (aesReturn st y b) := by
  obtain ⟨hgen, hacc, hout, htr, hqb, hb, he, he', hp, hc⟩ := h
  simp [SameRun, hgen, hacc, hout, htr, hqb, he, he', hp, hc]

/-- R132: the same cipher block goes to TEMP. -/
theorem takeUpdBlock_sameRequest {a b : State} {k : Fin 3} (h : SameRun a b)
    (hctx : a.dce.ctx = [.cGen]) (hbce : a.bce = .idle) (hx : a.dce.hasExtra = false)
    (hx' : b.dce.hasExtra = false) (htemp : TempAgrees k a b) (hvw : b.dce.vw = a.dce.vw) (hblk : b.dce.blk = a.dce.blk) :
    SameRequest (takeUpdBlock k a) (takeUpdBlock k b) := by
  obtain ⟨hgen, hacc, hout, htr, hqb, hb, he, he', hp, hc⟩ := h
  have htemp' : TempAgrees (k + 1) (takeUpdBlock k a) (takeUpdBlock k b) := by
    intro i hi hik
    simp only [takeUpdBlock_dce, putBlock, hblk, Vector.getElem_set]
    split
    · rfl
    · exact htemp i hi (by omega)
  have hrun : SameRun (takeUpdBlock k a) (takeUpdBlock k b) := by
    simp [SameRun, hgen, hacc, hout, htr, hqb, hb, he, he', hc]
  refine ⟨hrun, ?_⟩
  unfold SameScratch
  match k with
  | 0 => exact ⟨hctx, hx, hx', htemp', fun _ => hvw⟩
  | 1 => exact ⟨hctx, hx, hx', htemp', fun _ => hvw⟩
  | 2 => exact ⟨hbce, hctx, hx, hx', htemp'⟩

/-- R142: the same bytes go to OUT. -/
theorem takeOutBlock_sameRequest {a b a' : State} {j : Nat} (h : SameRun a b)
    (hctx : a.dce.ctx = [.cGen]) (hcur : b.dce.cur = a.dce.cur) (hrem : b.dce.rem = a.dce.rem)
    (hblk : b.dce.blk = a.dce.blk) (ha : takeOutBlock j a = .next a') :
    ∃ b', takeOutBlock j b = .next b' ∧ SameRequest a' b' := by
  obtain ⟨hgen, hacc, hout, htr, hqb, hb, he, he', hp, hc⟩ := h
  obtain ⟨hin, rfl⟩ := takeOutBlock_next ha
  have hlen : ∀ x : Block, ((bytesOf 16 x).take (chunk a.dce.rem)).length = chunk a.dce.rem := by
    simp [chunk]
  rw [hlen] at hin
  refine ⟨_, takeOutBlock_inside j (by rw [hcur, hrem]; exact hin), ?_⟩
  simp [SameRequest, SameRun, SameScratch, hgen, hacc, hout, htr, hqb, hb, he, he', hc, hctx, hcur, hrem,
    hblk]

/-- R16: the phases in which the cipher runs for a request that need not reseed. -/
theorem SameScratch.polls {a b : State} (h : SameScratch a b) (hb : a.bce = .poll) :
    a.dce.ctx = [.cGen] ∧
      ((∃ k, a.dce.phase = .upd k ∧ a.dce.hasExtra = false ∧ b.dce.hasExtra = false ∧
          TempAgrees k a b ∧ b.dce.vw = a.dce.vw) ∨
        ∃ j, a.dce.phase = .out j ∧ b.dce.cur = a.dce.cur ∧ b.dce.rem = a.dce.rem) := by
  unfold SameScratch at h
  cases hp : a.dce.phase <;> rw [hp] at h <;> simp only [hb, reduceCtorEq, false_and] at h
  case upd k =>
    obtain ⟨hctx, hx, hx', htemp, hvw⟩ := h
    exact ⟨hctx, .inl ⟨k, rfl, hx, hx', htemp, hvw (.inr trivial)⟩⟩
  case out j =>
    obtain ⟨hctx, hcur, hrem⟩ := h
    exact ⟨hctx, .inr ⟨j, rfl, hcur, hrem⟩⟩

/-- R132, R142: the cipher has returned the same block to both. -/
theorem dceBlock_sameRequest {a b u v a' : State} (h : SameScratch a b) (hb : a.bce = .poll)
    (huv : SameRun u v) (hub : u.bce = .idle) {x : Block} (hu : u.dce = { a.dce with blk := x })
    (hv : v.dce = { b.dce with blk := x }) (ha : dceBlock u = .next a') :
    ∃ b', dceBlock v = .next b' ∧ SameRequest a' b' := by
  have ⟨_, _, _, _, _, _, _, _, hp, _⟩ := huv
  obtain ⟨hctx, ⟨k, hk, hx, hx', htemp, hvw⟩ | ⟨j, hj, hcur, hrem⟩⟩ := h.polls hb
  · have hku : u.dce.phase = .upd k := by rw [hu]; exact hk
    have hkv : v.dce.phase = .upd k := hp.trans hku
    simp only [dceBlock, hku, hkv] at ha ⊢
    cases ha
    refine ⟨_, rfl, takeUpdBlock_sameRequest huv (by rw [hu]; exact hctx) hub (by rw [hu]; exact hx)
      (by rw [hv]; exact hx') ?_ (by rw [hu, hv]; exact hvw) (by rw [hu, hv])⟩
    intro i hi hik
    simp only [hu, hv]
    exact htemp i hi hik
  · have hju : u.dce.phase = .out j := by rw [hu]; exact hj
    have hjv : v.dce.phase = .out j := hp.trans hju
    simp only [dceBlock, hju, hjv] at ha ⊢
    exact takeOutBlock_sameRequest huv (by rw [hu]; exact hctx) (by rw [hu, hv]; exact hcur)
      (by rw [hu, hv]; exact hrem) (by rw [hu, hv]) ha

/-- R133, R144: the cipher has failed in both. -/
theorem dceBlockFailed_sameRequest {a b u v : State} (h : SameScratch a b) (hb : a.bce = .poll)
    (huv : SameRun u v) (hub : u.bce = .idle) {x : Block} (hu : u.dce = { a.dce with blk := x }) :
    SameRequest (dceBlockFailed u) (dceBlockFailed v) := by
  have ⟨_, _, _, _, _, _, _, _, hp, _⟩ := huv
  obtain ⟨hctx, hphase⟩ := h.polls hb
  have hfailed : ∀ s : State, s.dce.phase = a.dce.phase → dceBlockFailed s = raise .fail s := by
    intro s hs
    rcases hphase with ⟨k, hk, _⟩ | ⟨j, hj, _⟩
    · simp only [dceBlockFailed, hs, hk]
    · simp only [dceBlockFailed, hs, hj]
  have hpu : u.dce.phase = a.dce.phase := by rw [hu]
  rw [hfailed u hpu, hfailed v (hp.trans hpu)]
  exact raise_sameRequest huv hub (by rw [hu]; exact hctx)

/-- R115: a row that finds its status answer queued, in both. -/
theorem tickPolled_sameRequest {a b a' : State} (h : SameRequest a b) (hb : a.bce = .poll)
    (hc : accAnswerQueued a = true) (ha : tick a = .next a') :
    ∃ b', tick b = .next b' ∧ SameRequest a' b' := by
  obtain ⟨hjob, hqueue⟩ : a.acc.job.isSome = true ∧ a.env.accStatusIn ≠ [] := by
    simpa [accAnswerQueued] using hc
  obtain ⟨j, hj⟩ := Option.isSome_iff_exists.1 hjob
  obtain ⟨st, rest, hq⟩ := List.exists_cons_of_ne_nil hqueue
  obtain ⟨hrun, hscratch⟩ := h
  have ⟨_, hacc, _, _, hqb, hbb, _⟩ := hrun
  have hread := hrun.read hj hq
  obtain ⟨hga, hda, _, hba, _, hha, _⟩ := accStatusRead_frame a
  obtain ⟨_, hdb, _, _, _, hhb, _⟩ := accStatusRead_frame b
  rw [tick_polled hb hj hq] at ha
  rw [tick_polled (hbb.trans hb) (by rw [hacc]; exact hj) (hqb.trans hq)]
  cases hst : classify st <;> simp only [hst] at ha ⊢
  case busy =>
    cases ha
    refine ⟨_, rfl, hread, ?_⟩
    unfold SameScratch TempAgrees
    rw [hga, hda, hdb, hba, hha, hhb]
    exact hscratch
  case done =>
    exact dceBlock_sameRequest hscratch hb (hread.aesReturn _ _ _) (by simp) (x := jobResult j)
      (by simp [hda]) (by simp [hdb]) ha
  case error =>
    cases ha
    exact ⟨_, rfl, dceBlockFailed_sameRequest hscratch hb (hread.drawn.aesReturn _ _ _) (by simp)
      (by simp [hda]; rfl)⟩

/-- Every row of one request that reads no answer that is not queued is a row of the other. -/
theorem tick_sameRequest {a b a' : State} (h : SameRequest a b) (hc : canAdvance a = true)
    (ha : tick a = .next a') : ∃ b', tick b = .next b' ∧ SameRequest a' b' := by
  have ⟨⟨_, _, _, _, _, hbb, he, he', _⟩, _⟩ := h
  cases hb : a.bce with
  | idle =>
    rw [tick_dce hb he] at ha
    cases ha
    exact ⟨_, tick_dce (hbb.trans hb) he', dceRow_sameRequest h hb⟩
  | poll =>
    obtain ⟨_, hready⟩ := Bool.and_eq_true_iff.1 hc
    rw [hb] at hready
    exact tickPolled_sameRequest h hb hready ha

/-! ## The seeding, inside the request and before it -/

/-- DCE has nothing to do and nothing starts it: a row of another engine leaves GeneratorState alone. -/
theorem tick_of_dce_idle {s t : State} (hp : s.dce.phase = .idle) (h : tick s = .next t) :
    t.dce.phase = .idle ∧ t.gen = s.gen := by
  rcases tick_rows h with ⟨_, ⟨hg, ⟨b, hd⟩, _⟩, _⟩ | ⟨_, u, ⟨hg, ⟨b, hd⟩, _⟩, _, _, hret⟩ |
    ⟨_, _, rfl⟩ | ⟨_, _, hr⟩ | ⟨_, _, st, u, hr, rfl⟩
  · exact ⟨by rw [hd]; exact hp, hg⟩
  · have hpu : u.dce.phase = .idle := by rw [hd]; exact hp
    rw [dceBlock_uncalled hpu, dceBlockFailed_uncalled hpu] at hret
    have htu : t = u := hret.elim (fun h => (Host.Outcome.next.inj h).symm) id
    rw [htu]
    exact ⟨hpu, hg⟩
  · simp [dceRow, hp]
  · obtain ⟨hg, hd, _⟩ := ecRow_frame hr
    exact ⟨by rw [hd]; exact hp, hg⟩
  · obtain ⟨hg, hd, _⟩ := ecRow_frame hr
    have hpu : u.dce.phase = .idle := by rw [hd]; exact hp
    have huncalled : dceEntropy st u = u := by simp [dceEntropy, hpu]
    rw [huncalled]
    exact ⟨hpu, hg⟩

/-- R140: the explicit INIT in `a` and the request that initializes the generator in `b` go together: both are
seeding it; or INIT has seeded it and the request goes on as one after INIT would; or INIT has failed. -/
def InitInside (size : BitVec 32) (a b : State) : Prop :=
  (Initializes a ∧ b = asRequest size a) ∨
  ((a.dce.phase = .resp ∨ a.dce.phase = .idle) ∧
    SameRequest (dceGoto .reseedTest (startGetRandom true size a)) b) ∨
  (a.dce.phase = .idle ∧ a.gen.initialized = false)

/-! ### The rows of the seeding -/

theorem ecRow_asRequest {size : BitVec 32} {s u : State} {r : Option Status}
    (h : ecRow s = .next (r, u)) : ecRow (asRequest size s) = .next (r, asRequest size u) := by
  have hu : asRequest size u = ecSideOf u (asRequest size s) := by
    obtain ⟨hgen, hdce, hbce, hacc, hjob, hhost, hout⟩ := ecRow_frame h
    simp only [asRequest, ecSideOf, hgen, hdce, hbce, hacc, hjob, hhost, hout]
  have hside : asRequest size s = ecSideOf s (asRequest size s) := rfl
  rw [hu, hside, ecRow_ecSideOf, h]
  rfl

theorem drawAccStatus_asRequest (size : BitVec 32) (s : State) :
    drawAccStatus (asRequest size s) =
      ((drawAccStatus s).1, asRequest size (drawAccStatus s).2) := by
  have henv : (asRequest size s).env = s.env := rfl
  unfold drawAccStatus
  rw [henv]
  cases s.env.accStatusIn <;> rfl

theorem accStatusRead_asRequest (size : BitVec 32) (s : State) :
    accStatusRead (asRequest size s) =
      ((accStatusRead s).1, asRequest size (accStatusRead s).2) := by
  have hacc : (asRequest size s).acc = s.acc := rfl
  unfold accStatusRead accStatusReadIdle
  rw [hacc, drawAccStatus_asRequest]
  cases s.acc.job with
  | none => cases s.acc.softresetDone <;> rfl
  | some j => rfl

theorem aesPoll_asRequest (size : BitVec 32) (s : State) :
    aesPoll (asRequest size s) = ((aesPoll s).1, asRequest size (aesPoll s).2) := by
  unfold aesPoll
  rw [accStatusRead_asRequest]
  simp only
  cases classify (accStatusRead s).1 <;> rfl

/-- The invariant reads no more of a state than this. -/
theorem Initializes.congr {s t : State} (h : Initializes s) (hp : t.dce.phase = s.dce.phase)
    (hctx : t.dce.ctx = s.dce.ctx) (hgen : t.gen = s.gen) : Initializes t := by
  unfold Initializes
  rw [hp, hctx, hgen]
  exact h

/-- R132: the cipher block of a seeding goes to TEMP. -/
theorem dceBlock_asRequest {size : BitVec 32} {u a' : State} (h : Initializes u)
    (hu : dceBlock u = .next a') :
    Initializes a' ∧ dceBlock (asRequest size u) = .next (asRequest size a') := by
  have hp : (asRequest size u).dce.phase = u.dce.phase := rfl
  unfold dceBlock at hu ⊢
  rw [hp]
  cases hpu : u.dce.phase <;> rw [hpu] at hu <;> simp only at hu
  case upd k =>
    cases hu
    refine ⟨?_, rfl⟩
    rcases afterUpd_cases k with ⟨k', hk⟩ | hk <;> simpa [Initializes, hpu, hk] using h
  case out j => simp [Initializes, hpu] at h
  all_goals cases hu; exact ⟨h, rfl⟩

theorem aesPoll_gen (s : State) : (aesPoll s).2.gen = s.gen := by
  obtain ⟨hgen, _⟩ := accStatusRead_frame s
  rcases aesPoll_cases s with ⟨_, h⟩ | ⟨_, h⟩ | ⟨_, b, h⟩ <;> rw [h]
  · exact hgen
  · simpa using hgen
  · simpa using hgen

/-- R170, R180: INIT has failed, and the generator is as D_ZERO left it. -/
theorem raise_initFailed (st : Status) {u : State} (h : u.gen.initialized = false) :
    (raise st u).dce.phase = .idle ∧ (raise st u).gen.initialized = false := by
  obtain ⟨_, hp, _⟩ := raise_frame st u
  exact ⟨hp, by rw [raise_gen]; exact h⟩

/-- R133: a failing cipher call of the seeding fails INIT. -/
theorem dceBlockFailed_asRequest (size : BitVec 32) {u : State} (h : Initializes u) :
    (Initializes (dceBlockFailed u) ∧
      dceBlockFailed (asRequest size u) = asRequest size (dceBlockFailed u)) ∨
    ((dceBlockFailed u).dce.phase = .idle ∧ (dceBlockFailed u).gen.initialized = false) := by
  have hp : (asRequest size u).dce.phase = u.dce.phase := rfl
  have hinit := h
  unfold Initializes at hinit
  unfold dceBlockFailed
  rw [hp]
  cases hpu : u.dce.phase <;> rw [hpu] at hinit <;> simp only at hinit
  case upd k =>
    obtain ⟨_, hinit⟩ := hinit
    exact .inr (raise_initFailed .fail hinit)
  all_goals exact .inl ⟨h, rfl⟩

/-- R135: GET_ENTROPY returns to the seeding, which goes on with UPDATE, or INIT fails. -/
theorem dceEntropy_asRequest (size : BitVec 32) (st : Status) {u : State} (h : Initializes u) :
    (Initializes (dceEntropy st u) ∧
      dceEntropy st (asRequest size u) = asRequest size (dceEntropy st u)) ∨
    ((dceEntropy st u).dce.phase = .idle ∧ (dceEntropy st u).gen.initialized = false) := by
  have hp : (asRequest size u).dce.phase = u.dce.phase := rfl
  have hinit := h
  unfold Initializes at hinit
  unfold dceEntropy
  rw [hp]
  cases hpu : u.dce.phase <;> rw [hpu] at hinit <;> simp only at hinit
  case seed =>
    cases st with
    | ok => exact .inl ⟨by simpa [Initializes] using hinit, rfl⟩
    | fail | invalid =>
      obtain ⟨_, hinit⟩ := hinit
      exact .inr (raise_initFailed .fail hinit)
  all_goals exact .inl ⟨h, rfl⟩

/-- R115, R133: a status read of the seeding. -/
theorem tickAes_initInside {size : BitVec 32} {a a' : State} (h : Initializes a) (hb : a.bce = .poll)
    (hc : canAdvance a = true) (ha : tick a = .next a') :
    ∃ m b', drive m (asRequest size a) = .next b' ∧ InitInside size a' b' := by
  have htick : ∀ s : State, s.bce = .poll → tick s = tickAes s := fun s hs => by simp [tick, hs]
  obtain ⟨b, hdce⟩ := aesPoll_dce a
  have hu : Initializes (aesPoll a).2 := h.congr (by rw [hdce]) (by rw [hdce]) (aesPoll_gen a)
  rw [htick a hb] at ha
  have hrow : tick (asRequest size a) = tickAes (asRequest size a) := htick _ hb
  unfold tickAes at ha hrow
  rw [aesPoll_asRequest] at hrow
  cases hcase : (aesPoll a).1 <;> simp only [hcase] at ha hrow
  case busy =>
    cases ha
    exact ⟨1, _, drive_one hc hrow, .inl ⟨hu, rfl⟩⟩
  case done =>
    obtain ⟨ha', hblock⟩ := dceBlock_asRequest (size := size) hu ha
    exact ⟨1, _, drive_one hc (hrow.trans hblock), .inl ⟨ha', rfl⟩⟩
  case error =>
    cases ha
    rcases dceBlockFailed_asRequest size hu with ⟨ha', hreturn⟩ | hfailed
    · exact ⟨1, _, drive_one hc (by rw [hrow, hreturn]), .inl ⟨ha', rfl⟩⟩
    · exact ⟨0, _, rfl, .inr (.inr hfailed)⟩

/-- R136, R140: a row of DCE in the seeding; where its commit ends INIT, the request goes on. -/
theorem dceRow_initInside {size : BitVec 32} {a : State} (h : Initializes a) (hb : a.bce = .idle)
    (he : a.ec.phase = .idle) (hc : canAdvance a = true) :
    ∃ m b', drive m (asRequest size a) = .next b' ∧ InitInside size (dceRow a) b' := by
  have hrow : drive 1 (asRequest size a) = .next (dceRow (asRequest size a)) :=
    drive_one hc (tick_dce hb he)
  have hpr : (asRequest size a).dce.phase = a.dce.phase := rfl
  refine ⟨1, _, hrow, ?_⟩
  unfold dceRow
  rw [hpr]
  unfold Initializes at h
  cases hp : a.dce.phase <;> rw [hp] at h <;> simp only at h
  case zero => exact .inl ⟨by simp [Initializes, h, zeroedGen], rfl⟩
  case seed => exact .inl ⟨by simpa [Initializes, hp] using h, rfl⟩
  case upd k => exact .inl ⟨by simpa [Initializes, hp, dceUpd] using h, rfl⟩
  case commit =>
    obtain ⟨hctx, _⟩ := h
    have hctx' : (asRequest size a).dce.ctx = [.cReseed, .cInit, .cGen] := by simp [asRequest, hctx]
    refine .inr (.inl ⟨.inl (by simp [dceCommit, reseedReturn, hctx]), ?_⟩)
    have hdue : reseedDue 1#64 = false := by decide
    simp [SameRequest, SameRun, SameScratch, dceCommit, reseedReturn, hctx, hctx', hb, he, hdue]
    simp [asRequest, hb, he]

/-- R135, R180: a row of EC in the seeding. -/
theorem tickEc_initInside {size : BitVec 32} {a a' : State} (h : Initializes a) (hb : a.bce = .idle)
    (he : a.ec.phase ≠ .idle) (hc : canAdvance a = true) (ha : tick a = .next a') :
    ∃ m b', drive m (asRequest size a) = .next b' ∧ InitInside size a' b' := by
  rcases tick_cases ha with ⟨hi, _⟩ | ⟨_, hi, _⟩ | ⟨_, _, r, u, hr, rfl⟩
  · simp [hb] at hi
  · exact absurd hi he
  obtain ⟨hgen, hdce, _⟩ := ecRow_frame hr
  have hu : Initializes u := h.congr (by rw [hdce]) (by rw [hdce]) hgen
  cases r with
  | none => exact ⟨1, _, drive_one hc (tick_ec hb he (ecRow_asRequest hr)), .inl ⟨hu, rfl⟩⟩
  | some st =>
    rcases dceEntropy_asRequest size st hu with ⟨ha', hreturn⟩ | hfailed
    · have hrow : tick (asRequest size a) = .next (dceEntropy st (asRequest size u)) :=
        tick_ec_return hb he (ecRow_asRequest hr)
      exact ⟨1, _, drive_one hc (by rw [hrow, hreturn]), .inl ⟨ha', rfl⟩⟩
    · exact ⟨0, _, rfl, .inr (.inr hfailed)⟩

/-- R136: INIT has seeded the generator and responds; the request waits at its reseed test. -/
theorem respond_initInside {size : BitVec 32} {a b : State}
    (h : SameRequest (dceGoto .reseedTest (startGetRandom true size a)) b) :
    SameRequest (dceGoto .reseedTest (startGetRandom true size (respond .ok a))) b := by
  obtain ⟨⟨hgen, hacc, hout, htr, hq, hb, he, he', hp, hctx⟩, hscratch⟩ := h
  exact ⟨⟨hgen, hacc, hout, htr, hq, hb, he, he', hp, hctx⟩, hscratch⟩

/-- R140: every row of INIT is followed by the request that initializes the generator. -/
theorem tick_initInside {size : BitVec 32} {a b a' : State} (h : InitInside size a b)
    (hc : canAdvance a = true) (ha : tick a = .next a') :
    ∃ m b', drive m b = .next b' ∧ InitInside size a' b' := by
  rcases h with ⟨hseeding, rfl⟩ | ⟨hended, hsame⟩ | ⟨hp, hfailed⟩
  · cases hb : a.bce with
    | poll => exact tickAes_initInside hseeding hb hc ha
    | idle =>
      by_cases he : a.ec.phase = .idle
      · rw [tick_dce hb he] at ha
        cases ha
        exact dceRow_initInside hseeding hb he hc
      · exact tickEc_initInside hseeding hb he hc ha
  · have ⟨⟨_, _, _, _, _, _, hec, _⟩, hbce, _⟩ := hsame
    have he : a.ec.phase = .idle := hec
    have hb : a.bce = .idle := hbce
    rcases hended with hp | hp
    · have hrow : tick a = .next (respond .ok a) := by rw [tick_dce hb he]; simp [dceRow, hp]
      rw [hrow] at ha
      cases ha
      exact ⟨0, b, rfl, .inr (.inl ⟨.inr (by simp), respond_initInside hsame⟩)⟩
    · rw [canAdvance_of_idle (idle_of hp he hb)] at hc
      cases hc
  · obtain ⟨hp', hg⟩ := tick_of_dce_idle hp ha
    exact ⟨0, b, rfl, .inr (.inr ⟨hp', by rw [hg]; exact hfailed⟩)⟩

/-- Settles O49: the request follows the run of INIT, and from its reseed test on the run of the request after
INIT. -/
theorem lazyInitEqualsExplicitInit : Obligations.LazyInitEqualsExplicitInit := by
  intro s s1 s2 size hs hi h0 hsz hinit hidle1 hi1 hexec hidle2
  obtain ⟨_, hrun1⟩ := whenIdle_next hinit
  obtain ⟨_, hrun2⟩ := whenIdle_next hexec
  obtain ⟨hp1, he1, hb1⟩ := idle_phases hidle1
  obtain ⟨hp2, he2, hb2⟩ := idle_phases hidle2
  obtain ⟨m1, l1, hl1, hinside⟩ := drive_follows (fun _ _ _ => tick_initInside)
    (.inl ⟨rfl, rfl⟩ : InitInside size (startInit s) (lazyInit size s)) hrun1
  have hsame : SameRequest (dceGoto .reseedTest (startGetRandom true size s1)) l1 := by
    rcases hinside with ⟨hseeding, _⟩ | ⟨_, hsame⟩ | ⟨_, hfailed⟩
    · simp [Initializes, hp1] at hseeding
    · exact hsame
    · simp [hfailed] at hi1
  obtain ⟨n, hn⟩ : ∃ n, budget (startGetRandom true size s1) = n + 1 := ⟨_, rfl⟩
  have hrun2' : drive n (dceGoto .reseedTest (startGetRandom true size s1)) = .next s2 := by
    rw [← hrun2, run, hn]
    exact (drive_dce (s := startGetRandom true size s1) hb1 he1 (by simp)
      (dceCheck_startGetRandom hi1 h0 hsz) n).symm
  obtain ⟨m2, t, ht, hrun, hscratch⟩ := drive_follows (R := SameRequest) (fun a b a' h hc ha => by
      obtain ⟨b', hb', h'⟩ := tick_sameRequest h hc ha
      exact ⟨1, b', drive_one (h.canAdvance.trans hc) hb', h'⟩) hsame hrun2'
  obtain ⟨hgen, _, hout, htr, _, hbt, _, het, hpt, _⟩ := hrun
  have hst : t.host.status = s2.host.status := by
    simp only [SameScratch, hp2] at hscratch
    exact hscratch.2
  have hidle : idle t = true := idle_of (hpt.trans hp2) het (hbt.trans hb2)
  have hlazy : drive (m1 + m2 + 1) (startGetRandom true size s) = .next t := by
    rw [drive_lazyInit hs hi h0 hsz]
    exact drive_trans hl1 ht
  exact ⟨t, whenIdle_of_drive hs hlazy hidle, hidle, hgen, hout, htr, hst⟩

end Sys2Proof.Machine

namespace Sys2Proof.Machine

/-! # The waiting machine (R200) -/

/-- With no engine running a step issues the next operation, whatever the queue holds; `step_of_idle` is the
case of a queue that holds one. -/
theorem step_eq_issueNext_of_idle {s : State} (hidle : idle s = true) : step s = issueNext s :=
  if_pos hidle

/-- R200: with an empty queue there is nothing to issue, and the state stays. -/
theorem issueNext_of_nothing_issued {s : State} (hq : s.host.issue = []) : issueNext s = .next s := by
  simp [issueNext, hq]

/-- Settles O9: the idle machine issues, and an empty queue has nothing to issue. -/
theorem idleMachineWaits : Obligations.IdleMachineWaits := fun _ hidle hq =>
  (step_eq_issueNext_of_idle hidle).trans (issueNext_of_nothing_issued hq)

end Sys2Proof.Machine
